-- ==== Sys2Proof/Word.lean ====
section
/-! DEFINITION. The widths of the block: bytes and 32-bit words (spec 00_scope.md R10, 10_state.md R24, R25). -/

namespace Sys2Proof

/-- An unsigned integer 0..255 (R10). Raw bytes and field bytes alike. -/
abbrev Byte := BitVec 8

/-- The 32-bit values of the host port (`arg`, `timeout`) and of the deadline (R25). -/
abbrev Word32 := BitVec 32

end Sys2Proof
end

