-- ==== Sys2Proof/Config.lean ====
section
/-! DEFINITION. The build-time parameters of spec 00_scope.md R7, the constraints R8 puts on them, and their defaults.
The parameters are carried by the machine state as one field that no step writes (assumption 1), so that a statement about
every state is a statement about every parameter set; the one parameter that is a type, `TransportErr`, stands beside them. -/

namespace Sys2Proof

/-- The parameters of 00_scope.md R7 that are fixed when the block is built. `XF` and `UNXF` are functions on bytes, held as
the tables of their 256 values. `MAX_ATTEMPTS` and `TIMEOUT_TICKS` are run-time inputs of `START` (R28), not fields here. -/
structure Params where
  delim : Byte
  esc : Byte
  fc1 : Byte
  fc2 : Byte
  xfTable : List Byte
  unxfTable : List Byte
  addr0 : Byte
  opcStartMeas : Byte
  opcStopMeas : Byte
  opcReadMeas : Byte
  opcSleep : Byte
  opcWakeUp : Byte
  opcFanClean : Byte
  opcInterval : Byte
  opcDevInfo : Byte
  opcReadVersion : Byte
  opcReadStatus : Byte
  opcReset : Byte
  fmtFloat : Byte
  fmtFixed : Byte
  fwverLen : Nat
  statusRsvdLen : Nat
  devinfoMax : Nat
  speedBit : Nat
  laserBit : Nat
  fanBit : Nat
  cap : Nat
  deriving DecidableEq, Repr

/-- `XF(b)`, the escape transform (R7). -/
def Params.xf (p : Params) (b : Byte) : Byte := p.xfTable.getD b.toNat 0

/-- `UNXF(b)`, its inverse (R7). -/
def Params.unxf (p : Params) (b : Byte) : Byte := p.unxfTable.getD b.toNat 0

/-- The set `RESERVED` of R8(a). -/
def Params.reserved (p : Params) : List Byte := [p.delim, p.esc, p.fc1, p.fc2]

/-- `b in RESERVED`. -/
def Params.isReserved (p : Params) (b : Byte) : Bool :=
  b == p.delim || b == p.esc || b == p.fc1 || b == p.fc2

/-- The eleven opcodes of 30_encoding.md R100. -/
def Params.opcodes (p : Params) : List Byte :=
  [p.opcStartMeas, p.opcStopMeas, p.opcReadMeas, p.opcSleep, p.opcWakeUp, p.opcFanClean, p.opcInterval, p.opcDevInfo,
    p.opcReadVersion, p.opcReadStatus, p.opcReset]

/-- The structural constraints R8(a) to (h), and the types of R7. Every rule of the spec assumes them; nothing in the block
checks them (R355(a)). -/
structure Params.Valid (p : Params) : Prop where
  /-- R8(a) -/
  reserved_distinct : p.reserved.Nodup
  /-- R7: `XF` and `UNXF` are functions on all 256 bytes -/
  xf_total : p.xfTable.length = 256
  unxf_total : p.unxfTable.length = 256
  /-- R8(b) -/
  unxf_xf : ∀ b : Byte, p.unxf (p.xf b) = b
  /-- R8(b): `XF` is a bijection, so its left inverse is its right inverse -/
  xf_unxf : ∀ b : Byte, p.xf (p.unxf b) = b
  /-- R8(c) -/
  xf_reserved : ∀ r ∈ p.reserved, p.isReserved (p.xf r) = false
  /-- R8(d) -/
  cap_ge : 40 ≤ p.cap
  cap_le : p.cap ≤ 255
  /-- R8(e) -/
  opcodes_distinct : p.opcodes.Nodup
  /-- R8(f) -/
  fmt_distinct : p.fmtFloat ≠ p.fmtFixed
  /-- R8(g) -/
  status_fits : 4 + p.statusRsvdLen ≤ p.cap
  fwver_fits : p.fwverLen ≤ p.cap
  devinfo_fits : p.devinfoMax ≤ p.cap
  /-- R8(h) and the ranges of R7 -/
  bits_distinct : [p.speedBit, p.laserBit, p.fanBit].Nodup
  bits_range : p.speedBit < 32 ∧ p.laserBit < 32 ∧ p.fanBit < 32

/-- The default escape transform `b XOR 0x20` as its table (R7, D2). -/
def defaultXfTable : List Byte := (List.range 256).map fun n => BitVec.ofNat 8 n ^^^ 0x20#8

/-- The default column of R7. `CAP` is open in the spec; 40 is the value its vectors use (assumption 2). -/
def Params.default : Params where
  delim := 0x7E#8
  esc := 0x7D#8
  fc1 := 0x11#8
  fc2 := 0x13#8
  xfTable := defaultXfTable
  unxfTable := defaultXfTable
  addr0 := 0x00#8
  opcStartMeas := 0x00#8
  opcStopMeas := 0x01#8
  opcReadMeas := 0x03#8
  opcSleep := 0x10#8
  opcWakeUp := 0x11#8
  opcFanClean := 0x56#8
  opcInterval := 0x80#8
  opcDevInfo := 0xD0#8
  opcReadVersion := 0xD1#8
  opcReadStatus := 0xD2#8
  opcReset := 0xD3#8
  fmtFloat := 0x03#8
  fmtFixed := 0x05#8
  fwverLen := 7
  statusRsvdLen := 1
  devinfoMax := 40
  speedBit := 21
  laserBit := 5
  fanBit := 4
  cap := 40

/-! ### The parameter `TransportErr` (R7, D35, U4) -/

/-- How many values the transport's error type has, left open by the spec: the index of the last one, or `none` where there is no
last one. No body: nothing can be proved about it, so a statement holds for every size of the type (assumption 4). -/
opaque Config.lastTransportErr : Option Nat

/-- `TransportErr`, the type parameter of R7 (D35, U4): an opaque value, passed through unchanged (60_exceptions.md R307). Its
values are told apart and have no other structure; how many there are is the open `Config.lastTransportErr`. Each stands as plain
data by an index that no operation reads (assumption 4). -/
structure TransportErr where
  index : Nat
  inRange : ∀ last ∈ Config.lastTransportErr, index ≤ last
  deriving DecidableEq, Repr

/-- A value that the type has whatever its size. -/
def TransportErr.first : TransportErr := ⟨0, fun _ _ => Nat.zero_le _⟩

end Sys2Proof
end

