-- ==== Sys2Proof/Syntax.lean ====
section
/-! DEFINITION. The instruction set: one constructor of `Instr` per row of spec/opcode_table.json (30_encoding.md R102), under
the mapping of 00_scope.md R3. -/

namespace Sys2Proof

/-- The data representation argument: `Float` = 0, `Fixed` = 1 (10_state.md R25). -/
inductive Fmt where
  | float
  | fixed
  deriving DecidableEq, Repr

/-- The twelve catalog commands, the legal values of `op_sel` in the order of 30_encoding.md R120. -/
inductive Op where
  | startMeas
  | stopMeas
  | readMeas
  | sleep
  | wakeUp
  | fanClean
  | readInterval
  | writeInterval
  | devInfo
  | readVersion
  | readStatus
  | reset
  deriving DecidableEq, Repr

/-- The seven decoder states of 10_state.md R21, in the spec's order. -/
inductive DState where
  | awaitingStart
  | readingAddress
  | readingCommand
  | readingLength
  | readingPayload
  | readingChecksum
  | awaitingStop
  deriving DecidableEq, Repr

/-- `dstate` in `ReadingAddress` .. `ReadingChecksum`: the states in which a field byte is expected. -/
def DState.inField : DState → Bool
  | .awaitingStart => false
  | .readingAddress => true
  | .readingCommand => true
  | .readingLength => true
  | .readingPayload => true
  | .readingChecksum => true
  | .awaitingStop => false

/-- The side inputs presented at the host port with `op_sel` (10_state.md R44, `START`). -/
structure StartArgs where
  fmt : Fmt
  arg : Word32
  maxAttempts : BitVec 8
  timeout : Word32
  deriving DecidableEq, Repr

/-- One constructor per row of the opcode table. `REQ` rows carry the operands of their payload; `RSP` rows whose response is
not empty carry the payload bytes; `RAW` and `ESCAPED` rows with the pattern `vvvvvvvv` carry the raw byte; `HOST.START` rows
carry the side inputs of the host port. -/
inductive Instr where
  -- REQ: the request frames the block emits (44_commands.md R202 to R213)
  | startMeas (fmt : Fmt)
  | stopMeas
  | readMeas
  | sleep
  | wakeUp
  | fanClean
  | readInterval
  | writeInterval (interval : Word32)
  | devInfo (subIndex : Byte)
  | readVersion
  | readStatus (clear : Bool)
  | reset
  -- RSP: the response frames a latched request accepts (44_commands.md R215)
  | rspStartMeas
  | rspStopMeas
  | rspReadMeasFloat (payload : List Byte)
  | rspReadMeasFixed (payload : List Byte)
  | rspSleep
  | rspWakeUp
  | rspFanClean
  | rspReadInterval (payload : List Byte)
  | rspWriteInterval (payload : List Byte)
  | rspDevInfo (payload : List Byte)
  | rspReadVersion (payload : List Byte)
  | rspReadStatus (payload : List Byte)
  | rspReset
  -- RAW and ESCAPED: the raw-byte classes of the framer (43_frame_decode.md R170 to R183)
  | rawDelimOpen
  | rawOtherIdle (v : Byte)
  | rawDelimMidframe
  | rawDelimClose
  | rawOtherStop (v : Byte)
  | rawEsc
  | escapedDelim
  | escapedEsc
  | escapedFc1
  | escapedFc2
  | escapedIllegal (v : Byte)
  | rawFc1
  | rawFc2
  | rawDataAddr (v : Byte)
  | rawDataCmd (v : Byte)
  | rawDataLen (v : Byte)
  | rawDataPayload (v : Byte)
  | rawDataChk (v : Byte)
  -- HOST: the operations of the host port (30_encoding.md R120, 45_engine.md R241, R242, R256)
  | hostStartStartMeas (a : StartArgs)
  | hostStartStopMeas (a : StartArgs)
  | hostStartReadMeas (a : StartArgs)
  | hostStartSleep (a : StartArgs)
  | hostStartWakeUp (a : StartArgs)
  | hostStartFanClean (a : StartArgs)
  | hostStartReadInterval (a : StartArgs)
  | hostStartWriteInterval (a : StartArgs)
  | hostStartDevInfo (a : StartArgs)
  | hostStartReadVersion (a : StartArgs)
  | hostStartReadStatus (a : StartArgs)
  | hostStartReset (a : StartArgs)
  | hostStartReserved12 (a : StartArgs)
  | hostStartReserved13 (a : StartArgs)
  | hostStartReserved14 (a : StartArgs)
  | hostStartReserved15 (a : StartArgs)
  | hostCancel
  deriving DecidableEq, Repr

end Sys2Proof
end

