-- ==== Sys2Proof/WellFormed.lean ====
section
/-! DEFINITION. The checks on an instruction that its fields alone do not enforce: the payload length of a response row
(44_commands.md R201) and the raw bytes that belong to another row of the same context (30_encoding.md R93). -/

namespace Sys2Proof

/-- The row's own constraint on the operands. A raw byte `v` of a row with the pattern `vvvvvvvv` is "any value no more specific
row of the same context takes" (R102). -/
def Instr.wellFormed (p : Params) : Instr → Bool
  | .startMeas _ | .stopMeas | .readMeas | .sleep | .wakeUp | .fanClean | .readInterval | .writeInterval _ | .devInfo _
  | .readVersion | .readStatus _ | .reset => true
  | .rspStartMeas | .rspStopMeas | .rspSleep | .rspWakeUp | .rspFanClean | .rspReset => true
  | .rspReadMeasFloat q => q.length == 40
  | .rspReadMeasFixed q => q.length == 20
  | .rspReadInterval q => q.length == 4
  | .rspWriteInterval q => q.length == 4
  | .rspDevInfo q => decide (q.length ≤ p.devinfoMax)
  | .rspReadVersion q => q.length == p.fwverLen
  | .rspReadStatus q => q.length == 4 + p.statusRsvdLen
  | .rawDelimOpen => true
  | .rawOtherIdle v => v != p.delim
  | .rawDelimMidframe => true
  | .rawDelimClose => true
  | .rawOtherStop v => v != p.delim
  | .rawEsc => true
  | .escapedDelim => true
  | .escapedEsc => true
  | .escapedFc1 => true
  | .escapedFc2 => true
  | .escapedIllegal v => v != p.delim && !p.isReserved (p.unxf v)
  | .rawFc1 => true
  | .rawFc2 => true
  | .rawDataAddr v => !p.isReserved v
  | .rawDataCmd v => !p.isReserved v
  | .rawDataLen v => !p.isReserved v
  | .rawDataPayload v => !p.isReserved v
  | .rawDataChk v => !p.isReserved v
  | .hostStartStartMeas _ | .hostStartStopMeas _ | .hostStartReadMeas _ | .hostStartSleep _ | .hostStartWakeUp _
  | .hostStartFanClean _ | .hostStartReadInterval _ | .hostStartWriteInterval _ | .hostStartDevInfo _
  | .hostStartReadVersion _ | .hostStartReadStatus _ | .hostStartReset _ | .hostStartReserved12 _
  | .hostStartReserved13 _ | .hostStartReserved14 _ | .hostStartReserved15 _ | .hostCancel => true

end Sys2Proof
end

