-- ==== Sys2Proof/Decode.lean ====
section
/-! DEFINITION. Encodings: byte order, the Command Catalog's three functions (44_commands.md R200, R201), the decoder of each kind
of encoding of the opcode table and, after it, the encoder. The four kinds are the unstuffed frame body of a request, the
unstuffed frame body of a response under the latched request, the raw byte in its decoder context, and the host port
(30_encoding.md R101, R102). -/

namespace Sys2Proof

/-! ### Byte order (00_scope.md R10, 20_memory.md R61) -/

/-- `be32(b0,b1,b2,b3)`, first byte on the wire most significant (R10). -/
def be32 (b0 b1 b2 b3 : Byte) : Word32 := b0 ++ b1 ++ b2 ++ b3

/-- `be16(b0,b1)` (R10). -/
def be16 (b0 b1 : Byte) : BitVec 16 := b0 ++ b1

/-- A 32-bit value as four bytes, most significant first: `[v[31:24], v[23:16], v[15:8], v[7:0]]` (30_encoding.md R106). -/
def bytes32 (v : Word32) : List Byte :=
  [v.extractLsb' 24 8, v.extractLsb' 16 8, v.extractLsb' 8 8, v.extractLsb' 0 8]

/-! ### The catalog (44_commands.md R201) -/

/-- `cmd_of(op)`, the opcode. -/
def cmdOf (p : Params) : Op → Byte
  | .startMeas => p.opcStartMeas
  | .stopMeas => p.opcStopMeas
  | .readMeas => p.opcReadMeas
  | .sleep => p.opcSleep
  | .wakeUp => p.opcWakeUp
  | .fanClean => p.opcFanClean
  | .readInterval => p.opcInterval
  | .writeInterval => p.opcInterval
  | .devInfo => p.opcDevInfo
  | .readVersion => p.opcReadVersion
  | .readStatus => p.opcReadStatus
  | .reset => p.opcReset

/-- The data-format selector byte (30_encoding.md R105). -/
def fmtSelector (p : Params) : Fmt → Byte
  | .float => p.fmtFloat
  | .fixed => p.fmtFixed

/-- The clear-flag byte, `0x01` or `0x00` (30_encoding.md R108). -/
def clearByte (clear : Bool) : Byte := if clear then 0x01#8 else 0x00#8

/-- `req_payload(op, fmt, arg)`. -/
def reqPayload (p : Params) (op : Op) (fmt : Fmt) (arg : Word32) : List Byte :=
  match op with
  | .startMeas => [fmtSelector p fmt]
  | .stopMeas => []
  | .readMeas => []
  | .sleep => []
  | .wakeUp => []
  | .fanClean => []
  | .readInterval => []
  | .writeInterval => bytes32 arg
  | .devInfo => [arg.extractLsb' 0 8]
  | .readVersion => []
  | .readStatus => [clearByte (arg.getLsbD 0)]
  | .reset => []

/-- `rsp_len_ok(op, fmt, n)`. -/
def rspLenOk (p : Params) (op : Op) (fmt : Fmt) (n : Nat) : Bool :=
  match op with
  | .startMeas => n == 0
  | .stopMeas => n == 0
  | .readMeas =>
    match fmt with
    | .float => n == 40
    | .fixed => n == 20
  | .sleep => n == 0
  | .wakeUp => n == 0
  | .fanClean => n == 0
  | .readInterval => n == 4
  | .writeInterval => n == 4
  | .devInfo => decide (n ≤ p.devinfoMax)
  | .readVersion => n == p.fwverLen
  | .readStatus => n == 4 + p.statusRsvdLen
  | .reset => n == 0

/-- The request row a request selects, with its operands (30_encoding.md R120). -/
def requestInstr (op : Op) (fmt : Fmt) (arg : Word32) : Instr :=
  match op with
  | .startMeas => .startMeas fmt
  | .stopMeas => .stopMeas
  | .readMeas => .readMeas
  | .sleep => .sleep
  | .wakeUp => .wakeUp
  | .fanClean => .fanClean
  | .readInterval => .readInterval
  | .writeInterval => .writeInterval arg
  | .devInfo => .devInfo (arg.extractLsb' 0 8)
  | .readVersion => .readVersion
  | .readStatus => .readStatus (arg.getLsbD 0)
  | .reset => .reset

/-- The request a `REQ` row stands for: its command and operands, an operand the row does not use being 0 (`Float`). -/
def requestOperands : Instr → Option (Op × Fmt × Word32)
  | .startMeas fmt => some (.startMeas, fmt, 0#32)
  | .stopMeas => some (.stopMeas, .float, 0#32)
  | .readMeas => some (.readMeas, .float, 0#32)
  | .sleep => some (.sleep, .float, 0#32)
  | .wakeUp => some (.wakeUp, .float, 0#32)
  | .fanClean => some (.fanClean, .float, 0#32)
  | .readInterval => some (.readInterval, .float, 0#32)
  | .writeInterval interval => some (.writeInterval, .float, interval)
  | .devInfo subIndex => some (.devInfo, .float, subIndex.setWidth 32)
  | .readVersion => some (.readVersion, .float, 0#32)
  | .readStatus clear => some (.readStatus, .float, if clear then 1#32 else 0#32)
  | .reset => some (.reset, .float, 0#32)
  | .rspStartMeas | .rspStopMeas | .rspReadMeasFloat _ | .rspReadMeasFixed _ | .rspSleep | .rspWakeUp | .rspFanClean
  | .rspReadInterval _ | .rspWriteInterval _ | .rspDevInfo _ | .rspReadVersion _ | .rspReadStatus _ | .rspReset => none
  | .rawDelimOpen | .rawOtherIdle _ | .rawDelimMidframe | .rawDelimClose | .rawOtherStop _ | .rawEsc | .escapedDelim
  | .escapedEsc | .escapedFc1 | .escapedFc2 | .escapedIllegal _ | .rawFc1 | .rawFc2 | .rawDataAddr _ | .rawDataCmd _
  | .rawDataLen _ | .rawDataPayload _ | .rawDataChk _ => none
  | .hostStartStartMeas _ | .hostStartStopMeas _ | .hostStartReadMeas _ | .hostStartSleep _ | .hostStartWakeUp _
  | .hostStartFanClean _ | .hostStartReadInterval _ | .hostStartWriteInterval _ | .hostStartDevInfo _
  | .hostStartReadVersion _ | .hostStartReadStatus _ | .hostStartReset _ | .hostStartReserved12 _
  | .hostStartReserved13 _ | .hostStartReserved14 _ | .hostStartReserved15 _ | .hostCancel => none

/-- The response row the latched request selects: "it is decided by the latched `req_op` and `req_fmt`" (R101). -/
def responseInstr (op : Op) (fmt : Fmt) (payload : List Byte) : Instr :=
  match op with
  | .startMeas => .rspStartMeas
  | .stopMeas => .rspStopMeas
  | .readMeas =>
    match fmt with
    | .float => .rspReadMeasFloat payload
    | .fixed => .rspReadMeasFixed payload
  | .sleep => .rspSleep
  | .wakeUp => .rspWakeUp
  | .fanClean => .rspFanClean
  | .readInterval => .rspReadInterval payload
  | .writeInterval => .rspWriteInterval payload
  | .devInfo => .rspDevInfo payload
  | .readVersion => .rspReadVersion payload
  | .readStatus => .rspReadStatus payload
  | .reset => .rspReset

/-! ### Decoding -/

/-- One encoding of an instruction. A frame body is the unstuffed list `[ADDR, CMD, LEN] ++ PAYLOAD`, whose first three bytes are
the header word `H` of R101; a raw byte and a response stand with the context that decides their row (R101, R102). -/
inductive Code where
  | request (body : List Byte)
  | response (op : Op) (fmt : Fmt) (body : List Byte)
  | raw (dstate : DState) (esc : Bool) (b : Byte)
  | start (opSel : BitVec 4) (a : StartArgs)
  | cancel
  deriving DecidableEq, Repr

/-- Why the decoder rejects an encoding. -/
inductive DecodeError where
  /-- fewer than three header bytes -/
  | shortBody
  /-- LEN is not the number of payload bytes (R90) -/
  | lengthField
  /-- ADDR is not `ADDR0` (R90, R111) -/
  | address
  /-- CMD is no catalog opcode, or not the latched request's (R111, R112) -/
  | opcode
  /-- a request payload of another length than its row's (R100) -/
  | payloadShape
  /-- a data-format selector that is neither `FMT_FLOAT` nor `FMT_FIXED` (R105) -/
  | formatSelector
  /-- a clear flag that is neither 0 nor 1 (R108) -/
  | clearFlag
  /-- a response length the latched request does not allow (R111) -/
  | responseLength
  deriving DecidableEq, Repr

/-- A request whose payload is empty. -/
def decodeEmpty (i : Instr) : List Byte → Except DecodeError Instr
  | [] => .ok i
  | _ :: _ => .error .payloadShape

/-- `START_MEAS` (R105). -/
def decodeFormat (p : Params) : List Byte → Except DecodeError Instr
  | [f] => if f = p.fmtFloat then .ok (.startMeas .float) else if f = p.fmtFixed then .ok (.startMeas .fixed) else .error .formatSelector
  | [] => .error .payloadShape
  | _ :: _ :: _ => .error .payloadShape

/-- `READ_INTERVAL` and `WRITE_INTERVAL` share an opcode and differ in LEN (R100, R106). -/
def decodeInterval : List Byte → Except DecodeError Instr
  | [] => .ok .readInterval
  | [b0, b1, b2, b3] => .ok (.writeInterval (be32 b0 b1 b2 b3))
  | _ => .error .payloadShape

/-- `DEV_INFO` (R107). -/
def decodeSubIndex : List Byte → Except DecodeError Instr
  | [b] => .ok (.devInfo b)
  | [] => .error .payloadShape
  | _ :: _ :: _ => .error .payloadShape

/-- `READ_STATUS` (R108). -/
def decodeClear : List Byte → Except DecodeError Instr
  | [b] => if b = 0x00#8 then .ok (.readStatus false) else if b = 0x01#8 then .ok (.readStatus true) else .error .clearFlag
  | [] => .error .payloadShape
  | _ :: _ :: _ => .error .payloadShape

/-- The request row of a command byte and payload (R100). -/
def decodeCommand (p : Params) (cmd : Byte) (payload : List Byte) : Except DecodeError Instr :=
  if cmd = p.opcStartMeas then decodeFormat p payload
  else if cmd = p.opcStopMeas then decodeEmpty .stopMeas payload
  else if cmd = p.opcReadMeas then decodeEmpty .readMeas payload
  else if cmd = p.opcSleep then decodeEmpty .sleep payload
  else if cmd = p.opcWakeUp then decodeEmpty .wakeUp payload
  else if cmd = p.opcFanClean then decodeEmpty .fanClean payload
  else if cmd = p.opcInterval then decodeInterval payload
  else if cmd = p.opcDevInfo then decodeSubIndex payload
  else if cmd = p.opcReadVersion then decodeEmpty .readVersion payload
  else if cmd = p.opcReadStatus then decodeClear payload
  else if cmd = p.opcReset then decodeEmpty .reset payload
  else .error .opcode

/-- The request row of an unstuffed frame body (R90, R100, R101). -/
def decodeRequest (p : Params) : List Byte → Except DecodeError Instr
  | addr :: cmd :: len :: payload =>
    if payload.length = len.toNat then
      if addr = p.addr0 then decodeCommand p cmd payload else .error .address
    else .error .lengthField
  | [] => .error .shortBody
  | [_] => .error .shortBody
  | [_, _] => .error .shortBody

/-- The response row of an unstuffed frame body under the latched request (R101, R111). -/
def decodeResponse (p : Params) (op : Op) (fmt : Fmt) : List Byte → Except DecodeError Instr
  | addr :: cmd :: len :: payload =>
    if payload.length = len.toNat then
      if addr = p.addr0 then
        if cmd = cmdOf p op then
          if rspLenOk p op fmt payload.length then .ok (responseInstr op fmt payload) else .error .responseLength
        else .error .opcode
      else .error .address
    else .error .lengthField
  | [] => .error .shortBody
  | [_] => .error .shortBody
  | [_, _] => .error .shortBody

/-- Classes 2 and 3 of R93: the second byte of an escape pair. -/
def decodeEscaped (p : Params) (b : Byte) : Instr :=
  if p.unxf b = p.delim then .escapedDelim
  else if p.unxf b = p.esc then .escapedEsc
  else if p.unxf b = p.fc1 then .escapedFc1
  else if p.unxf b = p.fc2 then .escapedFc2
  else .escapedIllegal b

/-- Classes 2 to 6 of R93 in a state that expects a field byte; `data` is the row of an ordinary data byte in that state. -/
def decodeField (p : Params) (esc : Bool) (b : Byte) (data : Instr) : Instr :=
  if b = p.delim then .rawDelimMidframe
  else if esc then decodeEscaped p b
  else if b = p.esc then .rawEsc
  else if b = p.fc1 then .rawFc1
  else if b = p.fc2 then .rawFc2
  else data

/-- The raw-byte row of `b` in the context (`dstate`, `esc`) (30_encoding.md R93, column `context` of the table). Total: every byte
in every state has exactly one row (43_frame_decode.md R165). -/
def decodeRaw (p : Params) (dstate : DState) (esc : Bool) (b : Byte) : Instr :=
  match dstate with
  | .awaitingStart => if b = p.delim then .rawDelimOpen else .rawOtherIdle b
  | .readingAddress => decodeField p esc b (.rawDataAddr b)
  | .readingCommand => decodeField p esc b (.rawDataCmd b)
  | .readingLength => decodeField p esc b (.rawDataLen b)
  | .readingPayload => decodeField p esc b (.rawDataPayload b)
  | .readingChecksum => decodeField p esc b (.rawDataChk b)
  | .awaitingStop => if b = p.delim then .rawDelimClose else .rawOtherStop b

/-- The command an `op_sel` value selects; 12 to 15 are reserved (30_encoding.md R120). -/
def opOfSel (sel : BitVec 4) : Option Op :=
  match sel.toNat with
  | 0 => some .startMeas
  | 1 => some .stopMeas
  | 2 => some .readMeas
  | 3 => some .sleep
  | 4 => some .wakeUp
  | 5 => some .fanClean
  | 6 => some .readInterval
  | 7 => some .writeInterval
  | 8 => some .devInfo
  | 9 => some .readVersion
  | 10 => some .readStatus
  | 11 => some .reset
  | _ => none

/-- The `op_sel` value of a command (R120). -/
def opSel : Op → BitVec 4
  | .startMeas => 0#4
  | .stopMeas => 1#4
  | .readMeas => 2#4
  | .sleep => 3#4
  | .wakeUp => 4#4
  | .fanClean => 5#4
  | .readInterval => 6#4
  | .writeInterval => 7#4
  | .devInfo => 8#4
  | .readVersion => 9#4
  | .readStatus => 10#4
  | .reset => 11#4

/-- The host row of a `START` with a legal selector. -/
def startInstr (op : Op) (a : StartArgs) : Instr :=
  match op with
  | .startMeas => .hostStartStartMeas a
  | .stopMeas => .hostStartStopMeas a
  | .readMeas => .hostStartReadMeas a
  | .sleep => .hostStartSleep a
  | .wakeUp => .hostStartWakeUp a
  | .fanClean => .hostStartFanClean a
  | .readInterval => .hostStartReadInterval a
  | .writeInterval => .hostStartWriteInterval a
  | .devInfo => .hostStartDevInfo a
  | .readVersion => .hostStartReadVersion a
  | .readStatus => .hostStartReadStatus a
  | .reset => .hostStartReset a

/-- The host row of a `START` (R120). Total: the four reserved selectors are rows of their own. -/
def decodeStart (sel : BitVec 4) (a : StartArgs) : Instr :=
  match opOfSel sel with
  | some op => startInstr op a
  | none =>
    if sel = 12#4 then .hostStartReserved12 a
    else if sel = 13#4 then .hostStartReserved13 a
    else if sel = 14#4 then .hostStartReserved14 a
    else .hostStartReserved15 a

/-- The decoder: total on every encoding, rejecting by name. -/
def decode (p : Params) : Code → Except DecodeError Instr
  | .request body => decodeRequest p body
  | .response op fmt body => decodeResponse p op fmt body
  | .raw dstate esc b => .ok (decodeRaw p dstate esc b)
  | .start sel a => .ok (decodeStart sel a)
  | .cancel => .ok .hostCancel

/-! ### Encoding -/

/-- The unstuffed frame body `[ADDR, CMD, LEN] ++ PAYLOAD` (30_encoding.md R90). -/
def frameBody (addr cmd : Byte) (payload : List Byte) : List Byte :=
  [addr, cmd, BitVec.ofNat 8 payload.length] ++ payload

/-- The body of the request frame of a command. -/
def requestBody (p : Params) (op : Op) (payload : List Byte) : Code := .request (frameBody p.addr0 (cmdOf p op) payload)

/-- The body of a response frame, with the latched request that selects its row. -/
def responseBody (p : Params) (op : Op) (fmt : Fmt) (payload : List Byte) : Code :=
  .response op fmt (frameBody p.addr0 (cmdOf p op) payload)

/-- The raw byte of a `RAW` or `ESCAPED` row (R93). -/
def rawByte (p : Params) : Instr → Option Byte
  | .rawDelimOpen => some p.delim
  | .rawOtherIdle v => some v
  | .rawDelimMidframe => some p.delim
  | .rawDelimClose => some p.delim
  | .rawOtherStop v => some v
  | .rawEsc => some p.esc
  | .escapedDelim => some (p.xf p.delim)
  | .escapedEsc => some (p.xf p.esc)
  | .escapedFc1 => some (p.xf p.fc1)
  | .escapedFc2 => some (p.xf p.fc2)
  | .escapedIllegal v => some v
  | .rawFc1 => some p.fc1
  | .rawFc2 => some p.fc2
  | .rawDataAddr v => some v
  | .rawDataCmd v => some v
  | .rawDataLen v => some v
  | .rawDataPayload v => some v
  | .rawDataChk v => some v
  | .startMeas _ | .stopMeas | .readMeas | .sleep | .wakeUp | .fanClean | .readInterval | .writeInterval _ | .devInfo _
  | .readVersion | .readStatus _ | .reset => none
  | .rspStartMeas | .rspStopMeas | .rspReadMeasFloat _ | .rspReadMeasFixed _ | .rspSleep | .rspWakeUp | .rspFanClean
  | .rspReadInterval _ | .rspWriteInterval _ | .rspDevInfo _ | .rspReadVersion _ | .rspReadStatus _ | .rspReset => none
  | .hostStartStartMeas _ | .hostStartStopMeas _ | .hostStartReadMeas _ | .hostStartSleep _ | .hostStartWakeUp _
  | .hostStartFanClean _ | .hostStartReadInterval _ | .hostStartWriteInterval _ | .hostStartDevInfo _
  | .hostStartReadVersion _ | .hostStartReadStatus _ | .hostStartReset _ | .hostStartReserved12 _
  | .hostStartReserved13 _ | .hostStartReserved14 _ | .hostStartReserved15 _ | .hostCancel => none

/-- The decoder contexts (`dstate`, `esc`) in which a `RAW` or `ESCAPED` row applies (the table's column `context`). -/
def rawContext (i : Instr) (dstate : DState) (esc : Bool) : Bool :=
  match i with
  | .rawDelimOpen => dstate == .awaitingStart
  | .rawOtherIdle _ => dstate == .awaitingStart
  | .rawDelimMidframe => dstate.inField
  | .rawDelimClose => dstate == .awaitingStop
  | .rawOtherStop _ => dstate == .awaitingStop
  | .rawEsc => dstate.inField && !esc
  | .escapedDelim => dstate.inField && esc
  | .escapedEsc => dstate.inField && esc
  | .escapedFc1 => dstate.inField && esc
  | .escapedFc2 => dstate.inField && esc
  | .escapedIllegal _ => dstate.inField && esc
  | .rawFc1 => dstate.inField && !esc
  | .rawFc2 => dstate.inField && !esc
  | .rawDataAddr _ => dstate == .readingAddress && !esc
  | .rawDataCmd _ => dstate == .readingCommand && !esc
  | .rawDataLen _ => dstate == .readingLength && !esc
  | .rawDataPayload _ => dstate == .readingPayload && !esc
  | .rawDataChk _ => dstate == .readingChecksum && !esc
  | .startMeas _ | .stopMeas | .readMeas | .sleep | .wakeUp | .fanClean | .readInterval | .writeInterval _ | .devInfo _
  | .readVersion | .readStatus _ | .reset => false
  | .rspStartMeas | .rspStopMeas | .rspReadMeasFloat _ | .rspReadMeasFixed _ | .rspSleep | .rspWakeUp | .rspFanClean
  | .rspReadInterval _ | .rspWriteInterval _ | .rspDevInfo _ | .rspReadVersion _ | .rspReadStatus _ | .rspReset => false
  | .hostStartStartMeas _ | .hostStartStopMeas _ | .hostStartReadMeas _ | .hostStartSleep _ | .hostStartWakeUp _
  | .hostStartFanClean _ | .hostStartReadInterval _ | .hostStartWriteInterval _ | .hostStartDevInfo _
  | .hostStartReadVersion _ | .hostStartReadStatus _ | .hostStartReset _ | .hostStartReserved12 _
  | .hostStartReserved13 _ | .hostStartReserved14 _ | .hostStartReserved15 _ | .hostCancel => false

/-- The encoder: the encoding of a well-formed instruction, written from R90, R93, R100, R105 to R108 and R120. A raw-byte row is
written in the first context of its column; a response row that does not depend on `fmt` is written under `Float`. -/
def encode (p : Params) : Instr → Code
  | .startMeas fmt => requestBody p .startMeas [fmtSelector p fmt]
  | .stopMeas => requestBody p .stopMeas []
  | .readMeas => requestBody p .readMeas []
  | .sleep => requestBody p .sleep []
  | .wakeUp => requestBody p .wakeUp []
  | .fanClean => requestBody p .fanClean []
  | .readInterval => requestBody p .readInterval []
  | .writeInterval interval => requestBody p .writeInterval (bytes32 interval)
  | .devInfo subIndex => requestBody p .devInfo [subIndex]
  | .readVersion => requestBody p .readVersion []
  | .readStatus clear => requestBody p .readStatus [clearByte clear]
  | .reset => requestBody p .reset []
  | .rspStartMeas => responseBody p .startMeas .float []
  | .rspStopMeas => responseBody p .stopMeas .float []
  | .rspReadMeasFloat q => responseBody p .readMeas .float q
  | .rspReadMeasFixed q => responseBody p .readMeas .fixed q
  | .rspSleep => responseBody p .sleep .float []
  | .rspWakeUp => responseBody p .wakeUp .float []
  | .rspFanClean => responseBody p .fanClean .float []
  | .rspReadInterval q => responseBody p .readInterval .float q
  | .rspWriteInterval q => responseBody p .writeInterval .float q
  | .rspDevInfo q => responseBody p .devInfo .float q
  | .rspReadVersion q => responseBody p .readVersion .float q
  | .rspReadStatus q => responseBody p .readStatus .float q
  | .rspReset => responseBody p .reset .float []
  | .rawDelimOpen => .raw .awaitingStart false p.delim
  | .rawOtherIdle v => .raw .awaitingStart false v
  | .rawDelimMidframe => .raw .readingAddress false p.delim
  | .rawDelimClose => .raw .awaitingStop false p.delim
  | .rawOtherStop v => .raw .awaitingStop false v
  | .rawEsc => .raw .readingAddress false p.esc
  | .escapedDelim => .raw .readingAddress true (p.xf p.delim)
  | .escapedEsc => .raw .readingAddress true (p.xf p.esc)
  | .escapedFc1 => .raw .readingAddress true (p.xf p.fc1)
  | .escapedFc2 => .raw .readingAddress true (p.xf p.fc2)
  | .escapedIllegal v => .raw .readingAddress true v
  | .rawFc1 => .raw .readingAddress false p.fc1
  | .rawFc2 => .raw .readingAddress false p.fc2
  | .rawDataAddr v => .raw .readingAddress false v
  | .rawDataCmd v => .raw .readingCommand false v
  | .rawDataLen v => .raw .readingLength false v
  | .rawDataPayload v => .raw .readingPayload false v
  | .rawDataChk v => .raw .readingChecksum false v
  | .hostStartStartMeas a => .start 0#4 a
  | .hostStartStopMeas a => .start 1#4 a
  | .hostStartReadMeas a => .start 2#4 a
  | .hostStartSleep a => .start 3#4 a
  | .hostStartWakeUp a => .start 4#4 a
  | .hostStartFanClean a => .start 5#4 a
  | .hostStartReadInterval a => .start 6#4 a
  | .hostStartWriteInterval a => .start 7#4 a
  | .hostStartDevInfo a => .start 8#4 a
  | .hostStartReadVersion a => .start 9#4 a
  | .hostStartReadStatus a => .start 10#4 a
  | .hostStartReset a => .start 11#4 a
  | .hostStartReserved12 a => .start 12#4 a
  | .hostStartReserved13 a => .start 13#4 a
  | .hostStartReserved14 a => .start 14#4 a
  | .hostStartReserved15 a => .start 15#4 a
  | .hostCancel => .cancel

/-! ### The opcode table's words (30_encoding.md R101, R102) -/

/-- The header word `H = ADDR * 2^16 + CMD * 2^8 + LEN` (R101). -/
def headerWord (addr cmd len : Byte) : BitVec 24 := addr ++ cmd ++ len

/-- The header word of an unstuffed frame body. -/
def bodyHeader : List Byte → Option (BitVec 24)
  | addr :: cmd :: len :: _ => some (headerWord addr cmd len)
  | [] => none
  | [_] => none
  | [_, _] => none

/-- The twelve commands in the order of R120. -/
def allOps : List Op :=
  [.startMeas, .stopMeas, .readMeas, .sleep, .wakeUp, .fanClean, .readInterval, .writeInterval, .devInfo, .readVersion,
    .readStatus, .reset]

/-- The first of a list of encodings that has the header word `h` and is decoded. -/
def decodeFirst (p : Params) (h : BitVec 24) : List (List Byte × Code) → Option Instr
  | [] => none
  | (body, code) :: rest =>
    if bodyHeader body = some h then
      match decode p code with
      | .ok i => some i
      | .error _ => decodeFirst p h rest
    else decodeFirst p h rest

/-- The request bodies whose operands are zero: `fmt` = 0 (`Float`), `arg` = 0 (assumption 3). -/
def zeroRequests (p : Params) : List (List Byte × Code) :=
  allOps.map fun op =>
    let body := frameBody p.addr0 (cmdOf p op) (reqPayload p op .float 0#32)
    (body, .request body)

/-- The body of a header word followed by `LEN` zero bytes, under each latched request. -/
def zeroResponses (h : BitVec 24) : List (List Byte × Code) :=
  let len : Byte := h.extractLsb' 0 8
  let body := [h.extractLsb' 16 8, h.extractLsb' 8 8, len] ++ List.replicate len.toNat 0x00#8
  allOps.flatMap fun op => [(body, .response op .float body), (body, .response op .fixed body)]

/-- The context in which a bare 8-bit table word is read (assumption 3): the escaped images after `ESC`, `DELIM` while
`AwaitingStart`, every other byte as the address byte of a frame. -/
def tableByteContext (p : Params) (b : Byte) : DState × Bool :=
  if b = p.delim then (.awaitingStart, false)
  else if p.isReserved (p.unxf b) then (.readingAddress, true)
  else (.readingAddress, false)

/-- The side inputs of a bare `op_sel` table word: the smallest legal ones (assumption 3). -/
def zeroArgs : StartArgs := ⟨.float, 0#32, 1#8, 1#32⟩

/-- The instruction the decoder reads from a word of the opcode table, under the parameter defaults from which the table was
computed (R101). The table gives its words without the context that the block decides a row by, and several rows share a
word; assumption 3 says which row is answered. -/
def decodeTableWord (nbits w : Nat) : Option Instr :=
  let p := Params.default
  if nbits = 24 then
    if w < 2 ^ 24 then
      let h := BitVec.ofNat 24 w
      match decodeFirst p h (zeroRequests p) with
      | some i => some i
      | none => decodeFirst p h (zeroResponses h)
    else none
  else if nbits = 8 then
    if w < 16 then some (decodeStart (BitVec.ofNat 4 w) zeroArgs)
    else if w < 256 then
      let b := BitVec.ofNat 8 w
      let c := tableByteContext p b
      some (decodeRaw p c.1 c.2 b)
    else none
  else if nbits = 4 then
    if w < 16 then some (decodeStart (BitVec.ofNat 4 w) zeroArgs) else none
  else none

end Sys2Proof
end

