-- ==== Sys2Proof/Machine/State.lean ====
section
/-! DEFINITION. The state of the block (10_state.md R20 to R30), the errors and output events it reports (10_state.md R44, R46,
60_exceptions.md R301, R302), the input events it consumes (R44), the reasons a step can stop, and the reset state (R50). -/

namespace Sys2Proof.Machine

/-! ### Errors (60_exceptions.md R301 to R311) -/

/-- The sub-causes of `FramingError` (R303). -/
inductive FramingSub where
  | malformedEscape
  | unexpectedByte
  | delimMidFrame
  deriving DecidableEq, Repr

/-- The sub-causes of `ResponseShapeError` (R305). -/
inductive ShapeSub where
  | addrMismatch
  | opcodeMismatch
  | lengthMismatch
  deriving DecidableEq, Repr

/-- The error record (R301): "Only these eight values can be the cause of a failed attempt." -/
inductive ErrorRecord where
  | framing (sub : FramingSub)
  | checksum
  | shape (sub : ShapeSub)
  | timeout
  deriving DecidableEq, Repr

/-- The errors a `Result` can carry (10_state.md R46). -/
inductive CallerError where
  | transportError (e : TransportErr)
  | bufferOverflow (len : Byte)
  | exhaustedRetries (cause : ErrorRecord)
  | invalidRequest
  deriving DecidableEq, Repr

/-- `Result(r)` (R46). -/
inductive Result where
  | ok (op : Op) (len : Byte) (payload : List Byte)
  | err (e : CallerError)
  deriving DecidableEq, Repr

/-! ### Events (10_state.md R44) -/

/-- The output events. -/
inductive Output where
  | txWrite (bytes : List Byte)
  | trace (n : BitVec 8) (cause : ErrorRecord)
  | result (r : Result)
  deriving DecidableEq, Repr

/-- The input events of R44, and the reset input of R350. -/
inductive Input where
  | start (opSel : BitVec 4) (a : StartArgs)
  | cancel
  | txDone
  | txError (e : TransportErr)
  | rxChunk (bytes : List Byte)
  | rxError (e : TransportErr)
  | tick
  | reset
  deriving DecidableEq, Repr

/-! ### The decoder group (R20, R21, R24, R26, R30) -/

/-- The payload buffer `buf` (R30) as its written bytes, by index, strictly rising. An index that is not listed has no value:
R50 "a value no rule may read, not as zero" (assumption 5). -/
abbrev Memory := List Host.Cell

/-- The canonical form of a memory: indices strictly rising. -/
abbrev Memory.wf (m : Memory) : Prop := m.Pairwise (fun x y => x.1 < y.1)

/-- The state of the incremental frame parser. -/
structure Decoder where
  dstate : DState
  esc : Bool
  remaining : Byte
  rxAddr : Byte
  rxCmd : Byte
  rxLen : Byte
  rxChk : Byte
  buf : Memory
  deriving DecidableEq, Repr

/-- The decoder's error outputs (43_frame_decode.md R165). -/
inductive DecError where
  | framing (sub : FramingSub)
  | checksum
  | overflow (len : Byte)
  deriving DecidableEq, Repr

/-- `DecOut`, what one decoder step reports (43_frame_decode.md R165). -/
inductive DecOut where
  | none
  | frame (addr cmd len : Byte) (payload : List Byte)
  | error (e : DecError)
  deriving DecidableEq, Repr

/-! ### The engine group and the machine -/

/-- The five engine states of R22. -/
inductive EState where
  | idle
  | sending
  | awaitingResponse
  | validating
  | failed
  deriving DecidableEq, Repr

/-- The machine: the decoder group, the engine group (R20, R22, R25), the build-time parameters, and the two event streams at
the block's ports. `par` is written by no step (assumption 1). `inputs` holds the events the environment will offer, first
one next; `outputs` is the history of the events the block has emitted, oldest first (assumption 6). -/
structure State where
  par : Params
  dec : Decoder
  estate : EState
  attempt : BitVec 8
  deadline : Word32
  lastCause : Option ErrorRecord
  reqOp : Op
  reqFmt : Fmt
  reqArg : Word32
  cfgMaxAttempts : BitVec 8
  cfgTimeout : Word32
  inputs : List Input
  outputs : List Output
  deriving DecidableEq, Repr

/-- Why the machine stops with a fault. Both are raised by a decoder step only, in states no run from reset reaches
(10_state.md R24, 20_memory.md R65, 43_frame_decode.md R179, R187). -/
inductive Fault where
  /-- Raised by the frame completion (R183) when a payload byte it reads was never written. Safe: the spec gives such a byte no
  value, and no run reads one (R187). -/
  | unwrittenBuffer
  /-- Raised by the payload store (R178) when its index is not below both `rx_len` and `CAP`. Safe: the spec has no such index,
  "because none arises" (R65). -/
  | bufferIndex
  deriving DecidableEq, Repr

/-- Why there is no step. All are safe: the spec gives the event or row no step in that state. -/
inductive Refusal where
  /-- Raised by `exec` for an instruction without a meaning. Safe. -/
  | notModelled (mnemonic : String)
  /-- Raised by the `HOST.START` rows while `estate` is not `Idle`: "`START` is not enabled" (45_engine.md R242). Safe. -/
  | startBusy
  /-- Raised for `TxDone` and `TxError` outside `Sending`: "cannot occur otherwise" (10_state.md R45). Safe. -/
  | writeNotOutstanding
  /-- Raised for `RxChunk`, `RxError`, raw-byte rows and response rows outside `AwaitingResponse` (R45). Safe. -/
  | readNotArmed
  /-- Raised by a raw-byte row or request row in a state that selects another row (30_encoding.md R102, column `context`;
  42_frame_encode.md R159). Safe. -/
  | outOfContext
  /-- Raised by a request row while a write is outstanding (70_reset_and_hazards.md R381). Safe. -/
  | writeOutstanding
  /-- Raised by a response row whose payload has more than 255 bytes: no frame carries one (00_scope.md R9, U11). Safe. -/
  | payloadTooLong
  /-- Raised by `step` when no event is offered: "states with no enabled internal step" (60_exceptions.md R336). Safe. -/
  | noInput
  deriving DecidableEq, Repr

/-- What a step answers. -/
abbrev Answer := Host.Outcome State Fault Refusal

/-- The decoder group after reset (R50). The spec leaves the four field registers and `buf` unspecified: the registers are zero
here and no byte of `buf` is listed (assumptions 5 and 7). -/
def Decoder.reset : Decoder where
  dstate := .awaitingStart
  esc := false
  remaining := 0#8
  rxAddr := 0#8
  rxCmd := 0#8
  rxLen := 0#8
  rxChk := 0#8
  buf := []

/-- The machine right after reset (R50, R350). `deadline` and the request and configuration latches are unspecified in the spec
and zero here (assumption 7); the parameters are the defaults of R7 (assumption 2). -/
def State.reset : State where
  par := Params.default
  dec := Decoder.reset
  estate := .idle
  attempt := 0#8
  deadline := 0#32
  lastCause := none
  reqOp := .startMeas
  reqFmt := .float
  reqArg := 0#32
  cfgMaxAttempts := 0#8
  cfgTimeout := 0#32
  inputs := []
  outputs := []

end Sys2Proof.Machine
end

