-- ==== Sys2Proof/Machine/Flags.lean ====
section
/-! DEFINITION. Flag computations: the pending-escape flag as the streaming destuffer computes it (41_stuffing.md R144), the
derived signal `busy` (10_state.md R27), and the numeric codes of states and errors (10_state.md R21, R22, 60_exceptions.md R302). -/

namespace Sys2Proof.Machine

/-- The output of `DESTUFF.STEP` (R144). -/
inductive DestuffOut where
  | none
  | byte (v : Byte)
  | error (sub : FramingSub)
  deriving DecidableEq, Repr

/-- `DESTUFF.STEP(esc, b) -> (esc', out)` (R144, with R146 and R147). -/
def destuffStep (p : Params) (esc : Bool) (b : Byte) : Bool × DestuffOut :=
  if esc then
    if p.isReserved (p.unxf b) then (false, .byte (p.unxf b)) else (false, .error .malformedEscape)
  else if b = p.esc then (true, .none)
  else if b = p.fc1 ∨ b = p.fc2 then (false, .error .unexpectedByte)
  else (false, .byte b)

/-- `busy = (estate != Idle)` (R27). -/
def State.busy (s : State) : Bool := s.estate != .idle

/-- The encoding 0 to 6 of `dstate` (R21, D27). -/
def dstateCode : DState → Nat
  | .awaitingStart => 0
  | .readingAddress => 1
  | .readingCommand => 2
  | .readingLength => 3
  | .readingPayload => 4
  | .readingChecksum => 5
  | .awaitingStop => 6

/-- The encoding 0 to 4 of `estate` (R22, D27). -/
def estateCode : EState → Nat
  | .idle => 0
  | .sending => 1
  | .awaitingResponse => 2
  | .validating => 3
  | .failed => 4

/-- The code of the class of an error record (R302). -/
def ErrorRecord.code : ErrorRecord → Nat
  | .framing _ => 2
  | .checksum => 3
  | .shape _ => 4
  | .timeout => 5

/-- The sub-cause code of an error record (R302). DEDUCED (assumption 17): `ChecksumError` and `TimeoutError`, the classes without
sub-causes, for which R302 lists no code, answer `none`, so the model gives them no number. -/
def ErrorRecord.subCode : ErrorRecord → Option Nat
  | .framing .malformedEscape => some 1
  | .framing .unexpectedByte => some 2
  | .framing .delimMidFrame => some 3
  | .checksum => none
  | .shape .addrMismatch => some 1
  | .shape .opcodeMismatch => some 2
  | .shape .lengthMismatch => some 3
  | .timeout => none

/-- The code of an error a caller receives (R302). -/
def CallerError.code : CallerError → Nat
  | .transportError _ => 1
  | .exhaustedRetries _ => 6
  | .bufferOverflow _ => 7
  | .invalidRequest => 9

/-- The code of `DeviceFault`, a decoded status and not an error of the block (R302, R310). -/
def deviceFaultCode : Nat := 8

end Sys2Proof.Machine
end

