-- ==== Sys2Proof/Machine/Operands.lean ====
section
/-! DEFINITION. Operand forms: the argument checks of `START`, the operands of a request row taken from the latches, and the
response shape check on a frame's operands. -/

namespace Sys2Proof.Machine

/-- The arguments with which `START` is accepted: none of the conditions of 45_engine.md R241 holds. (`op` 12 to 15 are rows of
their own.) -/
def argsValid (op : Op) (a : StartArgs) : Bool :=
  a.maxAttempts != 0#8 && a.timeout != 0#32 &&
    match op with
    | .startMeas => true
    | .stopMeas => true
    | .readMeas => true
    | .sleep => true
    | .wakeUp => true
    | .fanClean => true
    | .readInterval => true
    | .writeInterval => true
    | .devInfo => a.arg.extractLsb' 8 24 == 0#24
    | .readVersion => true
    | .readStatus => a.arg.extractLsb' 1 31 == 0#31
    | .reset => true

/-- The request row the latches hold (42_frame_encode.md R159). -/
def State.request (s : State) : Instr := requestInstr s.reqOp s.reqFmt s.reqArg

/-- `CAT.CHECK` (44_commands.md R215): `none` is `Ok`. -/
def catCheck (p : Params) (op : Op) (fmt : Fmt) (addr cmd : Byte) (n : Nat) : Option ShapeSub :=
  if addr ≠ p.addr0 then some .addrMismatch
  else if cmd ≠ cmdOf p op then some .opcodeMismatch
  else if rspLenOk p op fmt n = false then some .lengthMismatch
  else none

end Sys2Proof.Machine
end

