-- ==== Sys2Proof/Machine/Ops.lean ====
section
/-! DEFINITION. The named operations: buffer accesses, the Checksum Unit (40_checksum.md), the Byte Stuffer (41_stuffing.md), the
frame encoder (42_frame_encode.md), the decoder's register updates (43_frame_decode.md), and the engine's sub-steps
(45_engine.md): sending, and what the block does when an error is detected and how it gets back (60_exceptions.md R315 to
R321). -/

namespace Sys2Proof.Machine

/-! ### The payload buffer (10_state.md R30, 20_memory.md R65) -/

/-- `buf[i]`: the byte at an index, if one was written. -/
def Memory.read : Memory → Nat → Option Byte
  | [], _ => none
  | (k, v) :: m, i => if k = i then some v else Memory.read m i

/-- `buf[i] <- v`, keeping the indices strictly rising. -/
def Memory.write : Memory → Nat → Byte → Memory
  | [], i, v => [(i, v)]
  | (k, w) :: m, i, v =>
    if i < k then (i, v) :: (k, w) :: m
    else if i = k then (i, v) :: m
    else (k, w) :: Memory.write m i v

/-- `MemRead(addr, n)`: the list of `n` bytes from index `addr` (00_scope.md R11), if every one was written. -/
def Memory.readN (m : Memory) (addr : Nat) : Nat → Option (List Byte)
  | 0 => some []
  | n + 1 =>
    match m.read addr, Memory.readN m (addr + 1) n with
    | some v, some vs => some (v :: vs)
    | some _, none => none
    | none, _ => none

/-! ### The Checksum Unit (R130 to R132) -/

/-- The 8-bit accumulator: the sum of the bytes modulo 256 (R131). -/
def sum8 (bytes : List Byte) : Byte := bytes.foldl (· + ·) 0#8

/-- `CHK.COMPUTE(bytes)` (R130). -/
def chkCompute (bytes : List Byte) : Byte := ~~~ sum8 bytes

/-- `CHK.VERIFY(bytes, claimed)` (R132). -/
def chkVerify (bytes : List Byte) (claimed : Byte) : Bool := chkCompute bytes == claimed

/-! ### The Byte Stuffer and Destuffer (R141, R142, R148, R149) -/

/-- `STUFF.BYTE(b)` (R141); `destuff` gives `[b]` back (R149). -/
def stuffByte (p : Params) (b : Byte) : List Byte := if p.isReserved b then [p.esc, p.xf b] else [b]

/-- `STUFF(bs)` (R142), whose inverse is `destuff` (R149). -/
def stuff (p : Params) (bs : List Byte) : List Byte := bs.flatMap (stuffByte p)

/-- The result of `DESTUFF` (R148). -/
inductive DestuffResult where
  | ok (bs : List Byte)
  | pending
  | error (sub : FramingSub)
  deriving DecidableEq, Repr

/-- Puts a field byte in front of a destuffed list. -/
def DestuffResult.cons (v : Byte) : DestuffResult → DestuffResult
  | .ok bs => .ok (v :: bs)
  | .pending => .pending
  | .error sub => .error sub

/-- The fold of `DESTUFF.STEP` from a given flag. -/
def destuffFrom (p : Params) (esc : Bool) : List Byte → DestuffResult
  | [] => if esc then .pending else .ok []
  | b :: bs =>
    match destuffStep p esc b with
    | (e, .none) => destuffFrom p e bs
    | (e, .byte v) => (destuffFrom p e bs).cons v
    | (_, .error sub) => .error sub

/-- `DESTUFF(raw)` (R148): a rejected or unfinished escape pair and a bare `FC1` or `FC2` give no list, which makes `stuff` and
`destuff` mutually inverse (R149). -/
def destuff (p : Params) (raw : List Byte) : DestuffResult := destuffFrom p false raw

/-- R149's correspondence: `raw` is in the domain of `DESTUFF`, no byte of it `DELIM` (R148), and `DESTUFF` accepts it as `bs`. By
R149 that is so exactly when `raw` is `STUFF(bs)`. -/
def DestuffsTo (p : Params) (raw bs : List Byte) : Prop := p.delim ∉ raw ∧ destuff p raw = .ok bs

/-! ### The frame encoder (R155) -/

/-- The body of R155's pseudocode followed by its checksum: the `n + 4` field bytes of a frame. -/
def fieldBytes (addr cmd : Byte) (payload : List Byte) : List Byte :=
  frameBody addr cmd payload ++ [chkCompute (frameBody addr cmd payload)]

/-- The raw bytes of a frame whose payload has at most 255 bytes: length, checksum, stuffing, delimiters, in that order (R156). -/
def frameBytes (p : Params) (addr cmd : Byte) (payload : List Byte) : List Byte :=
  [p.delim] ++ stuff p (fieldBytes addr cmd payload) ++ [p.delim]

/-- `FRAME.ENCODE(addr, cmd, payload)` (R155): a longer payload is a refusal, not a truncation. -/
def frameEncode (p : Params) (addr cmd : Byte) (payload : List Byte) : Option (List Byte) :=
  if payload.length ≤ 255 then some (frameBytes p addr cmd payload) else none

/-! ### Decoder updates (R170 to R186) -/

/-- `DEC.CLEAR` on the decoder group (R186), and the state part of a resynchronization (R184). -/
def Decoder.clear (d : Decoder) : Decoder := { d with dstate := .awaitingStart, esc := false, remaining := 0#8 }

/-- A resynchronization reporting `e` (R184). -/
def Decoder.resync (e : DecError) (d : Decoder) : Decoder × DecOut := (d.clear, .error e)

/-- The opening delimiter (R170). -/
def Decoder.openFrame (d : Decoder) : Decoder := { d with dstate := .readingAddress, esc := false }

/-- The escape marker (R172). -/
def Decoder.setEsc (d : Decoder) : Decoder := { d with esc := true }

/-- The address field (R175). -/
def Decoder.storeAddr (v : Byte) (d : Decoder) : Decoder := { d with rxAddr := v, dstate := .readingCommand, esc := false }

/-- The command field (R176). -/
def Decoder.storeCmd (v : Byte) (d : Decoder) : Decoder := { d with rxCmd := v, dstate := .readingLength, esc := false }

/-- The length field (R177). -/
def Decoder.storeLen (p : Params) (v : Byte) (d : Decoder) : Decoder × DecOut :=
  if p.cap < v.toNat then Decoder.resync (.overflow v) { d with rxLen := v }
  else if v = 0#8 then ({ d with rxLen := v, remaining := 0#8, dstate := .readingChecksum, esc := false }, .none)
  else ({ d with rxLen := v, remaining := v, dstate := .readingPayload, esc := false }, .none)

/-- The index `rx_len - remaining` of the next payload byte (R178). -/
def Decoder.payloadIndex (d : Decoder) : Nat := d.rxLen.toNat - d.remaining.toNat

/-- The payload store (R178). Outside `1 <= remaining <= rx_len <= CAP` (R179) there is no such index (R65). -/
def Decoder.storePayload (p : Params) (v : Byte) (d : Decoder) : Except Fault (Decoder × DecOut) :=
  if d.remaining = 0#8 ∨ d.rxLen.toNat < d.remaining.toNat ∨ p.cap ≤ d.payloadIndex then .error .bufferIndex
  else if d.remaining = 1#8 then
    .ok ({ d with buf := Memory.write d.buf d.payloadIndex v, remaining := 0#8, dstate := .readingChecksum, esc := false }, .none)
  else
    .ok ({ d with buf := Memory.write d.buf d.payloadIndex v, remaining := d.remaining - 1#8, esc := false }, .none)

/-- The checksum field (R180). -/
def Decoder.storeChk (v : Byte) (d : Decoder) : Decoder := { d with rxChk := v, dstate := .awaitingStop, esc := false }

/-- The field byte `v` by state (R175 to R180). In the two states that expect none the decoder is left as it is; no row and no
line of R171 comes here then. -/
def Decoder.fieldByte (p : Params) (v : Byte) (d : Decoder) : Except Fault (Decoder × DecOut) :=
  match d.dstate with
  | .awaitingStart => .ok (d, .none)
  | .readingAddress => .ok (d.storeAddr v, .none)
  | .readingCommand => .ok (d.storeCmd v, .none)
  | .readingLength => .ok (d.storeLen p v)
  | .readingPayload => d.storePayload p v
  | .readingChecksum => .ok (d.storeChk v, .none)
  | .awaitingStop => .ok (d, .none)

/-- The frame completion (R183). -/
def Decoder.complete (d : Decoder) : Except Fault (Decoder × DecOut) :=
  match Memory.readN d.buf 0 d.rxLen.toNat with
  | none => .error .unwrittenBuffer
  | some payload =>
    if chkCompute ([d.rxAddr, d.rxCmd, d.rxLen] ++ payload) = d.rxChk then
      .ok (d.clear, .frame d.rxAddr d.rxCmd d.rxLen payload)
    else .ok (d.clear, .error .checksum)

/-! ### Engine sub-steps (45_engine.md) -/

/-- `emit Ev(args)` (00_scope.md R11). -/
def State.emit (o : Output) (s : State) : State := { s with outputs := s.outputs ++ [o] }

/-- `DEC.CLEAR` as the engine invokes it (R186). -/
def State.decClear (s : State) : State := { s with dec := s.dec.clear }

/-- The frame of the latched request (42_frame_encode.md R159). -/
def State.requestFrame (s : State) : List Byte :=
  frameBytes s.par s.par.addr0 (cmdOf s.par s.reqOp) (reqPayload s.par s.reqOp s.reqFmt s.reqArg)

/-- `SEND` (R243), which begins every attempt; on the error path it is the return to `Sending` (60_exceptions.md R320). -/
def State.send (s : State) : State := { s with estate := .sending }.emit (.txWrite s.requestFrame)

/-- The end of an exchange: `DEC.CLEAR; estate <- Idle; emit Result(r)` (R245, R249, R254, R255), the return to `Idle` of
60_exceptions.md R320. -/
def State.finish (r : Result) (s : State) : State := { s.decClear with estate := .idle }.emit (.result r)

/-- `FAIL_ATTEMPT(cause)` (R252) with the exhaustion of R253: "the single entry for `FramingError`, `ChecksumError`,
`ResponseShapeError` and `TimeoutError`" (60_exceptions.md R318). `Failed` is passed through on the way to `Idle`. -/
def State.failAttempt (cause : ErrorRecord) (s : State) : State :=
  let t := { (s.emit (.trace s.attempt cause)).decClear with lastCause := some cause, attempt := s.attempt + 1#8 }
  if s.attempt.toNat + 1 < s.cfgMaxAttempts.toNat then t.send
  else { t with estate := .failed }.finish (.err (.exhaustedRetries cause))

/-- `VALIDATE(a, c, n, p)` (R248, R249): `Validating` is passed through. -/
def State.validate (addr cmd len : Byte) (payload : List Byte) (s : State) : State :=
  let t := { s with estate := .validating }
  match catCheck s.par s.reqOp s.reqFmt addr cmd len.toNat with
  | none => t.finish (.ok s.reqOp len payload)
  | some sub => t.failAttempt (.shape sub)

/-- What the engine does with a decoder output (R246, R254). -/
def State.react (out : DecOut) (s : State) : State :=
  match out with
  | .none => s
  | .frame addr cmd len payload => s.validate addr cmd len payload
  | .error (.framing sub) => s.failAttempt (.framing sub)
  | .error .checksum => s.failAttempt .checksum
  | .error (.overflow len) => s.finish (.err (.bufferOverflow len))

/-- The engine step on the result of one decoder step. -/
def State.receive (r : Except Fault (Decoder × DecOut)) (s : State) : Answer :=
  match r with
  | .error f => .fault f
  | .ok (d, out) => .next ({ s with dec := d }.react out)

end Sys2Proof.Machine
end

