-- ==== Sys2Proof/Machine/Framer.lean ====
section
/-! DEFINITION. The incremental frame decoder `DEC.STEP` and `DEC.RUN` (43_frame_decode.md R165 to R188), and the meanings of the
`RAW` and `ESCAPED` rows: one raw byte of the receive stream, consumed by the decoder and then by the engine
(45_engine.md R246). -/

namespace Sys2Proof.Machine

/-- `DEC.STEP(b)` (R165), by the fixed priority order of R171. -/
def decStep (p : Params) (d : Decoder) (b : Byte) : Except Fault (Decoder × DecOut) :=
  if d.dstate = .awaitingStart then
    if b = p.delim then .ok (d.openFrame, .none) else .ok (d, .none)
  else if b = p.delim then
    if d.dstate = .awaitingStop then d.complete else .ok (d.resync (.framing .delimMidFrame))
  else if d.dstate = .awaitingStop then .ok (d.resync (.framing .unexpectedByte))
  else
    match destuffStep p d.esc b with
    | (e, .none) => .ok ({ d with esc := e }, .none)
    | (e, .byte v) => { d with esc := e }.fieldByte p v
    | (_, .error sub) => .ok (d.resync (.framing sub))

/-- `DEC.RUN(s, bytes)` (R188): the non-`None` outputs in order, and the final decoder state. -/
def decRun (p : Params) (d : Decoder) : List Byte → Except Fault (List DecOut × Decoder)
  | [] => .ok ([], d)
  | b :: bs =>
    match decStep p d b with
    | .error f => .error f
    | .ok (d', out) =>
      match decRun p d' bs with
      | .error f => .error f
      | .ok (outs, d'') => .ok (if out = .none then outs else out :: outs, d'')

/-- A raw-byte row: it applies while a read is armed (10_state.md R44) and in its decoder context (30_encoding.md R102). -/
def rawRow (context : Bool) (r : Except Fault (Decoder × DecOut)) (s : State) : Answer :=
  if s.estate = .awaitingResponse then
    if context then s.receive r else .refused .outOfContext
  else .refused .readNotArmed

/-- The decoder expects a field byte and no escape is pending. -/
def Decoder.plainField (d : Decoder) : Bool := d.dstate.inField && !d.esc

/-- The decoder expects the second byte of an escape pair. -/
def Decoder.pairField (d : Decoder) : Bool := d.dstate.inField && d.esc

/-- `RAW.DELIM.OPEN` (R170). -/
def execRawDelimOpen (s : State) : Answer :=
  rawRow (s.dec.dstate == .awaitingStart) (.ok (s.dec.openFrame, .none)) s

/-- `RAW.OTHER.IDLE` (R170): discarded. -/
def execRawOtherIdle (v : Byte) (s : State) : Answer :=
  rawRow (s.dec.dstate == .awaitingStart && v != s.par.delim) (.ok (s.dec, .none)) s

/-- `RAW.DELIM.MIDFRAME` (R181). -/
def execRawDelimMidframe (s : State) : Answer :=
  rawRow s.dec.dstate.inField (.ok (s.dec.resync (.framing .delimMidFrame))) s

/-- `RAW.DELIM.CLOSE` (R183). -/
def execRawDelimClose (s : State) : Answer :=
  rawRow (s.dec.dstate == .awaitingStop) s.dec.complete s

/-- `RAW.OTHER.STOP` (R182). -/
def execRawOtherStop (v : Byte) (s : State) : Answer :=
  rawRow (s.dec.dstate == .awaitingStop && v != s.par.delim) (.ok (s.dec.resync (.framing .unexpectedByte))) s

/-- `RAW.ESC` (R172). -/
def execRawEsc (s : State) : Answer :=
  rawRow s.dec.plainField (.ok (s.dec.setEsc, .none)) s

/-- `ESCAPED.DELIM` (R173): the field byte `DELIM`. -/
def execEscapedDelim (s : State) : Answer :=
  rawRow s.dec.pairField (s.dec.fieldByte s.par s.par.delim) s

/-- `ESCAPED.ESC` (R173): the field byte `ESC`. -/
def execEscapedEsc (s : State) : Answer :=
  rawRow s.dec.pairField (s.dec.fieldByte s.par s.par.esc) s

/-- `ESCAPED.FC1` (R173): the field byte `FC1`. -/
def execEscapedFc1 (s : State) : Answer :=
  rawRow s.dec.pairField (s.dec.fieldByte s.par s.par.fc1) s

/-- `ESCAPED.FC2` (R173): the field byte `FC2`. -/
def execEscapedFc2 (s : State) : Answer :=
  rawRow s.dec.pairField (s.dec.fieldByte s.par s.par.fc2) s

/-- `ESCAPED.ILLEGAL` (R173). -/
def execEscapedIllegal (v : Byte) (s : State) : Answer :=
  rawRow (s.dec.pairField && v != s.par.delim && !s.par.isReserved (s.par.unxf v))
    (.ok (s.dec.resync (.framing .malformedEscape))) s

/-- `RAW.FC1` (R174). -/
def execRawFc1 (s : State) : Answer :=
  rawRow s.dec.plainField (.ok (s.dec.resync (.framing .unexpectedByte))) s

/-- `RAW.FC2` (R174). -/
def execRawFc2 (s : State) : Answer :=
  rawRow s.dec.plainField (.ok (s.dec.resync (.framing .unexpectedByte))) s

/-- The context of a `RAW.DATA` row. -/
def State.dataContext (ds : DState) (v : Byte) (s : State) : Bool :=
  s.dec.dstate == ds && !s.dec.esc && !s.par.isReserved v

/-- `RAW.DATA.ADDR` (R175). -/
def execRawDataAddr (v : Byte) (s : State) : Answer :=
  rawRow (s.dataContext .readingAddress v) (.ok (s.dec.storeAddr v, .none)) s

/-- `RAW.DATA.CMD` (R176). -/
def execRawDataCmd (v : Byte) (s : State) : Answer :=
  rawRow (s.dataContext .readingCommand v) (.ok (s.dec.storeCmd v, .none)) s

/-- `RAW.DATA.LEN` (R177). -/
def execRawDataLen (v : Byte) (s : State) : Answer :=
  rawRow (s.dataContext .readingLength v) (.ok (s.dec.storeLen s.par v)) s

/-- `RAW.DATA.PAYLOAD` (R178). -/
def execRawDataPayload (v : Byte) (s : State) : Answer :=
  rawRow (s.dataContext .readingPayload v) (s.dec.storePayload s.par v) s

/-- `RAW.DATA.CHK` (R180). -/
def execRawDataChk (v : Byte) (s : State) : Answer :=
  rawRow (s.dataContext .readingChecksum v) (.ok (s.dec.storeChk v, .none)) s

end Sys2Proof.Machine
end

