-- ==== Sys2Proof/Machine/HostPort.lean ====
section
/-! DEFINITION. The meanings of the `HOST` rows: `START` with each selector (45_engine.md R241, R242) and `CANCEL` (R256). -/

namespace Sys2Proof.Machine

/-- `START` refused (R241): `Result(Err(InvalidRequest))`, nothing sent, no other state changes. -/
def State.refuseStart (s : State) : State := s.emit (.result (.err .invalidRequest))

/-- The latches and the decoder clear of an accepted `START` (R242), before `SEND`. -/
def State.latch (op : Op) (a : StartArgs) (s : State) : State :=
  { s.decClear with
    reqOp := op
    reqFmt := a.fmt
    reqArg := a.arg
    cfgMaxAttempts := a.maxAttempts
    cfgTimeout := a.timeout
    attempt := 0#8
    lastCause := none }

/-- `START` with a legal selector: enabled only in `Idle`; refused or accepted by its arguments (R241, R242). -/
def startRow (op : Op) (a : StartArgs) (s : State) : Answer :=
  if s.estate = .idle then
    if argsValid op a then .next (s.latch op a).send else .next s.refuseStart
  else .refused .startBusy

/-- `START` with a reserved selector (R241). -/
def reservedRow (s : State) : Answer :=
  if s.estate = .idle then .next s.refuseStart else .refused .startBusy

/-- `HOST.START.START_MEAS` (R241, R242). -/
def execHostStartStartMeas (a : StartArgs) (s : State) : Answer := startRow .startMeas a s

/-- `HOST.START.STOP_MEAS` (R241, R242). -/
def execHostStartStopMeas (a : StartArgs) (s : State) : Answer := startRow .stopMeas a s

/-- `HOST.START.READ_MEAS` (R241, R242). -/
def execHostStartReadMeas (a : StartArgs) (s : State) : Answer := startRow .readMeas a s

/-- `HOST.START.SLEEP` (R241, R242). -/
def execHostStartSleep (a : StartArgs) (s : State) : Answer := startRow .sleep a s

/-- `HOST.START.WAKE_UP` (R241, R242). -/
def execHostStartWakeUp (a : StartArgs) (s : State) : Answer := startRow .wakeUp a s

/-- `HOST.START.FAN_CLEAN` (R241, R242). -/
def execHostStartFanClean (a : StartArgs) (s : State) : Answer := startRow .fanClean a s

/-- `HOST.START.READ_INTERVAL` (R241, R242). -/
def execHostStartReadInterval (a : StartArgs) (s : State) : Answer := startRow .readInterval a s

/-- `HOST.START.WRITE_INTERVAL` (R241, R242). -/
def execHostStartWriteInterval (a : StartArgs) (s : State) : Answer := startRow .writeInterval a s

/-- `HOST.START.DEV_INFO` (R241, R242). -/
def execHostStartDevInfo (a : StartArgs) (s : State) : Answer := startRow .devInfo a s

/-- `HOST.START.READ_VERSION` (R241, R242). -/
def execHostStartReadVersion (a : StartArgs) (s : State) : Answer := startRow .readVersion a s

/-- `HOST.START.READ_STATUS` (R241, R242). -/
def execHostStartReadStatus (a : StartArgs) (s : State) : Answer := startRow .readStatus a s

/-- `HOST.START.RESET` (R241, R242). -/
def execHostStartReset (a : StartArgs) (s : State) : Answer := startRow .reset a s

/-- `HOST.START.RESERVED12` (R241): refused whatever the side inputs. -/
def execHostStartReserved12 (s : State) : Answer := reservedRow s

/-- `HOST.START.RESERVED13` (R241): refused whatever the side inputs. -/
def execHostStartReserved13 (s : State) : Answer := reservedRow s

/-- `HOST.START.RESERVED14` (R241): refused whatever the side inputs. -/
def execHostStartReserved14 (s : State) : Answer := reservedRow s

/-- `HOST.START.RESERVED15` (R241): refused whatever the side inputs. -/
def execHostStartReserved15 (s : State) : Answer := reservedRow s

/-- `HOST.CANCEL` (R256). -/
def execHostCancel (s : State) : Answer :=
  if s.estate = .idle then .next s else .next { s.decClear with estate := .idle }

end Sys2Proof.Machine
end

