-- ==== Sys2Proof/Machine/Request.lean ====
section
/-! DEFINITION. The meanings of the `REQ` rows: the sub-step `SEND` (45_engine.md R243) of the row's own request, which begins
every attempt of its exchange (44_commands.md R202 to R213). -/

namespace Sys2Proof.Machine

/-- A request row applies when the latches hold it (42_frame_encode.md R159) and no write is outstanding
(70_reset_and_hazards.md R381): the engine then sends its frame. -/
def requestRow (i : Instr) (s : State) : Answer :=
  if s.estate = .sending then .refused .writeOutstanding
  else if s.request = i then .next s.send
  else .refused .outOfContext

/-- `START_MEAS` (R202). -/
def execStartMeas (fmt : Fmt) (s : State) : Answer := requestRow (.startMeas fmt) s

/-- `STOP_MEAS` (R203). -/
def execStopMeas (s : State) : Answer := requestRow .stopMeas s

/-- `READ_MEAS` (R204). -/
def execReadMeas (s : State) : Answer := requestRow .readMeas s

/-- `SLEEP` (R205). -/
def execSleep (s : State) : Answer := requestRow .sleep s

/-- `WAKE_UP` (R206). -/
def execWakeUp (s : State) : Answer := requestRow .wakeUp s

/-- `FAN_CLEAN` (R207). -/
def execFanClean (s : State) : Answer := requestRow .fanClean s

/-- `READ_INTERVAL` (R208). -/
def execReadInterval (s : State) : Answer := requestRow .readInterval s

/-- `WRITE_INTERVAL` (R209). -/
def execWriteInterval (interval : Word32) (s : State) : Answer := requestRow (.writeInterval interval) s

/-- `DEV_INFO` (R210). -/
def execDevInfo (subIndex : Byte) (s : State) : Answer := requestRow (.devInfo subIndex) s

/-- `READ_VERSION` (R211). -/
def execReadVersion (s : State) : Answer := requestRow .readVersion s

/-- `READ_STATUS` (R212). -/
def execReadStatus (clear : Bool) (s : State) : Answer := requestRow (.readStatus clear) s

/-- `RESET` (R213). -/
def execReset (s : State) : Answer := requestRow .reset s

end Sys2Proof.Machine
end

