-- ==== Sys2Proof/Machine/Response.lean ====
section
/-! DEFINITION. The meanings of the `RSP` rows: a complete, checksum-valid frame with the row's header has been delivered by the
frame decoder, and the engine validates it against the latched request (45_engine.md R248, 44_commands.md R215). -/

namespace Sys2Proof.Machine

/-- `VALIDATE` of the frame with the row's ADDR and CMD (45_engine.md R248): it exists only while a response is awaited. -/
def responseRow (op : Op) (payload : List Byte) (s : State) : Answer :=
  if s.estate = .awaitingResponse then
    if payload.length ≤ 255 then
      .next (s.validate s.par.addr0 (cmdOf s.par op) (BitVec.ofNat 8 payload.length) payload)
    else .refused .payloadTooLong
  else .refused .readNotArmed

/-- `RSP.START_MEAS` (R215). -/
def execRspStartMeas (s : State) : Answer := responseRow .startMeas [] s

/-- `RSP.STOP_MEAS` (R215). -/
def execRspStopMeas (s : State) : Answer := responseRow .stopMeas [] s

/-- `RSP.READ_MEAS.FLOAT` (R215). -/
def execRspReadMeasFloat (payload : List Byte) (s : State) : Answer := responseRow .readMeas payload s

/-- `RSP.READ_MEAS.FIXED` (R215). -/
def execRspReadMeasFixed (payload : List Byte) (s : State) : Answer := responseRow .readMeas payload s

/-- `RSP.SLEEP` (R215). -/
def execRspSleep (s : State) : Answer := responseRow .sleep [] s

/-- `RSP.WAKE_UP` (R215). -/
def execRspWakeUp (s : State) : Answer := responseRow .wakeUp [] s

/-- `RSP.FAN_CLEAN` (R215). -/
def execRspFanClean (s : State) : Answer := responseRow .fanClean [] s

/-- `RSP.READ_INTERVAL` (R215). -/
def execRspReadInterval (payload : List Byte) (s : State) : Answer := responseRow .readInterval payload s

/-- `RSP.WRITE_INTERVAL` (R215). -/
def execRspWriteInterval (payload : List Byte) (s : State) : Answer := responseRow .writeInterval payload s

/-- `RSP.DEV_INFO` (R215). -/
def execRspDevInfo (payload : List Byte) (s : State) : Answer := responseRow .devInfo payload s

/-- `RSP.READ_VERSION` (R215). -/
def execRspReadVersion (payload : List Byte) (s : State) : Answer := responseRow .readVersion payload s

/-- `RSP.READ_STATUS` (R215). -/
def execRspReadStatus (payload : List Byte) (s : State) : Answer := responseRow .readStatus payload s

/-- `RSP.RESET` (R215). -/
def execRspReset (s : State) : Answer := responseRow .reset [] s

end Sys2Proof.Machine
end

