-- ==== Sys2Proof/Machine/Dispatch.lean ====
section
/-! DEFINITION. One arm per constructor of `Instr`: each row of the opcode table and its meaning. -/

namespace Sys2Proof.Machine

def exec (i : Instr) (s : State) : Host.Outcome State Fault Refusal :=
  match i with
  | .startMeas fmt => Sys2Proof.Machine.execStartMeas fmt s
  | .stopMeas => Sys2Proof.Machine.execStopMeas s
  | .readMeas => Sys2Proof.Machine.execReadMeas s
  | .sleep => Sys2Proof.Machine.execSleep s
  | .wakeUp => Sys2Proof.Machine.execWakeUp s
  | .fanClean => Sys2Proof.Machine.execFanClean s
  | .readInterval => Sys2Proof.Machine.execReadInterval s
  | .writeInterval interval => Sys2Proof.Machine.execWriteInterval interval s
  | .devInfo subIndex => Sys2Proof.Machine.execDevInfo subIndex s
  | .readVersion => Sys2Proof.Machine.execReadVersion s
  | .readStatus clear => Sys2Proof.Machine.execReadStatus clear s
  | .reset => Sys2Proof.Machine.execReset s
  | .rspStartMeas => Sys2Proof.Machine.execRspStartMeas s
  | .rspStopMeas => Sys2Proof.Machine.execRspStopMeas s
  | .rspReadMeasFloat payload => Sys2Proof.Machine.execRspReadMeasFloat payload s
  | .rspReadMeasFixed payload => Sys2Proof.Machine.execRspReadMeasFixed payload s
  | .rspSleep => Sys2Proof.Machine.execRspSleep s
  | .rspWakeUp => Sys2Proof.Machine.execRspWakeUp s
  | .rspFanClean => Sys2Proof.Machine.execRspFanClean s
  | .rspReadInterval payload => Sys2Proof.Machine.execRspReadInterval payload s
  | .rspWriteInterval payload => Sys2Proof.Machine.execRspWriteInterval payload s
  | .rspDevInfo payload => Sys2Proof.Machine.execRspDevInfo payload s
  | .rspReadVersion payload => Sys2Proof.Machine.execRspReadVersion payload s
  | .rspReadStatus payload => Sys2Proof.Machine.execRspReadStatus payload s
  | .rspReset => Sys2Proof.Machine.execRspReset s
  | .rawDelimOpen => Sys2Proof.Machine.execRawDelimOpen s
  | .rawOtherIdle v => Sys2Proof.Machine.execRawOtherIdle v s
  | .rawDelimMidframe => Sys2Proof.Machine.execRawDelimMidframe s
  | .rawDelimClose => Sys2Proof.Machine.execRawDelimClose s
  | .rawOtherStop v => Sys2Proof.Machine.execRawOtherStop v s
  | .rawEsc => Sys2Proof.Machine.execRawEsc s
  | .escapedDelim => Sys2Proof.Machine.execEscapedDelim s
  | .escapedEsc => Sys2Proof.Machine.execEscapedEsc s
  | .escapedFc1 => Sys2Proof.Machine.execEscapedFc1 s
  | .escapedFc2 => Sys2Proof.Machine.execEscapedFc2 s
  | .escapedIllegal v => Sys2Proof.Machine.execEscapedIllegal v s
  | .rawFc1 => Sys2Proof.Machine.execRawFc1 s
  | .rawFc2 => Sys2Proof.Machine.execRawFc2 s
  | .rawDataAddr v => Sys2Proof.Machine.execRawDataAddr v s
  | .rawDataCmd v => Sys2Proof.Machine.execRawDataCmd v s
  | .rawDataLen v => Sys2Proof.Machine.execRawDataLen v s
  | .rawDataPayload v => Sys2Proof.Machine.execRawDataPayload v s
  | .rawDataChk v => Sys2Proof.Machine.execRawDataChk v s
  | .hostStartStartMeas a => Sys2Proof.Machine.execHostStartStartMeas a s
  | .hostStartStopMeas a => Sys2Proof.Machine.execHostStartStopMeas a s
  | .hostStartReadMeas a => Sys2Proof.Machine.execHostStartReadMeas a s
  | .hostStartSleep a => Sys2Proof.Machine.execHostStartSleep a s
  | .hostStartWakeUp a => Sys2Proof.Machine.execHostStartWakeUp a s
  | .hostStartFanClean a => Sys2Proof.Machine.execHostStartFanClean a s
  | .hostStartReadInterval a => Sys2Proof.Machine.execHostStartReadInterval a s
  | .hostStartWriteInterval a => Sys2Proof.Machine.execHostStartWriteInterval a s
  | .hostStartDevInfo a => Sys2Proof.Machine.execHostStartDevInfo a s
  | .hostStartReadVersion a => Sys2Proof.Machine.execHostStartReadVersion a s
  | .hostStartReadStatus a => Sys2Proof.Machine.execHostStartReadStatus a s
  | .hostStartReset a => Sys2Proof.Machine.execHostStartReset a s
  | .hostStartReserved12 _ => Sys2Proof.Machine.execHostStartReserved12 s
  | .hostStartReserved13 _ => Sys2Proof.Machine.execHostStartReserved13 s
  | .hostStartReserved14 _ => Sys2Proof.Machine.execHostStartReserved14 s
  | .hostStartReserved15 _ => Sys2Proof.Machine.execHostStartReserved15 s
  | .hostCancel => Sys2Proof.Machine.execHostCancel s

end Sys2Proof.Machine
end

