-- ==== Sys2Proof/Machine/Events.lean ====
section
/-! DEFINITION. One engine step per input event (00_scope.md R12, 10_state.md R44, 45_engine.md R241 to R256). A host event and
every raw byte of a chunk are instructions: they are decoded and executed. The transport's, the timer's and the reset event
have no row in the opcode table (30_encoding.md R102); their rules are here. -/

namespace Sys2Proof.Machine

/-- `TxDone` (R244). -/
def onTxDone (s : State) : Answer :=
  if s.estate = .sending then .next { s with deadline := s.cfgTimeout, estate := .awaitingResponse }
  else .refused .writeNotOutstanding

/-- `TxError(e)` (R245). -/
def onTxError (e : TransportErr) (s : State) : Answer :=
  if s.estate = .sending then .next (s.finish (.err (.transportError e)))
  else .refused .writeNotOutstanding

/-- `RxError(e)` (R255). -/
def onRxError (e : TransportErr) (s : State) : Answer :=
  if s.estate = .awaitingResponse then .next (s.finish (.err (.transportError e)))
  else .refused .readNotArmed

/-- `Tick` (R250, R251). -/
def onTick (s : State) : Answer :=
  if s.estate = .awaitingResponse then
    if s.deadline = 1#32 then .next (s.failAttempt .timeout)
    else .next { s with deadline := s.deadline - 1#32 }
  else .next s

/-- The reset input during operation (70_reset_and_hazards.md R350, R351): "it equals `CANCEL` followed by clearing `attempt` and
`last_cause`". The registers R50 leaves unspecified keep what they hold (assumption 8). -/
def onReset (s : State) : Answer :=
  .next { s.decClear with estate := .idle, attempt := 0#8, lastCause := none }

/-- The instruction a raw byte is in the current decoder context. -/
def State.rawInstr (s : State) (b : Byte) : Instr := decodeRaw s.par s.dec.dstate s.dec.esc b

/-- The bytes of a chunk in order, until the engine leaves `AwaitingResponse`; the rest is dropped (R246, R247). -/
def feed : List Byte → State → Answer
  | [], s => .next s
  | b :: bs, s =>
    match exec (s.rawInstr b) s with
    | .next t => if t.estate = .awaitingResponse then feed bs t else .next t
    | .fault f => .fault f
    | .refused r => .refused r

/-- `RxChunk(bytes)` (R246). -/
def onRxChunk (bytes : List Byte) (s : State) : Answer :=
  if s.estate = .awaitingResponse then feed bytes s else .refused .readNotArmed

/-- One engine step on one input event. -/
def runInput (e : Input) (s : State) : Answer :=
  match e with
  | .start sel a => exec (decodeStart sel a) s
  | .cancel => exec .hostCancel s
  | .txDone => onTxDone s
  | .txError e => onTxError e s
  | .rxChunk bytes => onRxChunk bytes s
  | .rxError e => onRxError e s
  | .tick => onTick s
  | .reset => onReset s

/-! ### Placing an instruction where the next step finds it -/

/-- A raw byte offered as a one-byte chunk, with a read armed and the decoder in a context of the byte's row. -/
def State.offerByte (ds : DState) (esc : Bool) (b : Byte) (s : State) : State :=
  { s with
    estate := .awaitingResponse
    dec := { s.dec with dstate := ds, esc := esc }
    inputs := .rxChunk [b] :: s.inputs }

/-- The response frame of a command offered as one chunk, with a read armed for that command. -/
def State.offerResponse (op : Op) (fmt : Fmt) (payload : List Byte) (s : State) : State :=
  { s.decClear with
    estate := .awaitingResponse
    reqOp := op
    reqFmt := fmt
    inputs := .rxChunk (frameBytes s.par s.par.addr0 (cmdOf s.par op) payload) :: s.inputs }

/-- A `START` offered to the idle engine. -/
def State.offerStart (sel : BitVec 4) (a : StartArgs) (s : State) : State :=
  { s with estate := .idle, inputs := .start sel a :: s.inputs }

/-- The encoding of an instruction offered as the next input event. A request row is run by the `START` that latches and sends
it (assumption 9). -/
def State.offer (i : Instr) (s : State) : State :=
  match encode s.par i with
  | .raw ds esc b => s.offerByte ds esc b
  | .response op fmt body => s.offerResponse op fmt (body.drop 3)
  | .start sel a => s.offerStart sel a
  | .cancel => { s with inputs := .cancel :: s.inputs }
  | .request _ =>
    match requestOperands i with
    | some (op, fmt, arg) => s.offerStart (opSel op) ⟨fmt, arg, 1#8, 1#32⟩
    | none => s

end Sys2Proof.Machine
end

