-- ==== Sys2Proof/Machine/Payload.lean ====
section
/-! DEFINITION. The payload decoders (46_payload_decode.md R280 to R287): pure functions of a payload that `Result(Ok(...))` has
delivered. A payload of another length is outside their domain ("Decoding is pure and total given a correctly-sized payload;
payload-size mismatches are caught upstream"); what the functions answer there is the model's (assumption 16). -/

namespace Sys2Proof.Machine

/-- The big-endian 4-byte fields of a list, while four bytes remain. -/
def fields32 : List Byte → List Word32
  | b0 :: b1 :: b2 :: b3 :: rest => be32 b0 b1 b2 b3 :: fields32 rest
  | _ => []

/-- The big-endian 2-byte fields of a list, while two bytes remain. -/
def fields16 : List Byte → List (BitVec 16)
  | b0 :: b1 :: rest => be16 b0 b1 :: fields16 rest
  | _ => []

/-- `MEAS.DECODE_FLOAT(p)`: ten 32-bit patterns, passed through bit for bit (R281, R286). -/
def measDecodeFloat (p : List Byte) : Option (List Word32) := if p.length = 40 then some (fields32 p) else none

/-- `MEAS.DECODE_FIXED(p)`: ten unsigned 16-bit values (R282). -/
def measDecodeFixed (p : List Byte) : Option (List (BitVec 16)) := if p.length = 20 then some (fields16 p) else none

/-- The ten measurement fields by index (R280): four mass concentrations, five number concentrations, the typical particle size. -/
inductive MeasField where
  | massPm1
  | massPm25
  | massPm4
  | massPm10
  | numberPm05
  | numberPm1
  | numberPm25
  | numberPm4
  | numberPm10
  | typicalSize
  deriving DecidableEq, Repr

/-- The field `k` of R280. -/
def MeasField.index : MeasField → Nat
  | .massPm1 => 0
  | .massPm25 => 1
  | .massPm4 => 2
  | .massPm10 => 3
  | .numberPm05 => 4
  | .numberPm1 => 5
  | .numberPm25 => 6
  | .numberPm4 => 7
  | .numberPm10 => 8
  | .typicalSize => 9

/-- The decoded status of R283. -/
structure DeviceStatus where
  word : Word32
  speed : Bool
  laser : Bool
  fan : Bool
  deriving DecidableEq, Repr

/-- `STATUS.DECODE(p)` (R283); the reserved bytes from `p[4]` are ignored. -/
def statusDecode (par : Params) (p : List Byte) : Option DeviceStatus :=
  if p.length = 4 + par.statusRsvdLen then
    match p with
    | b0 :: b1 :: b2 :: b3 :: _ =>
      let word := be32 b0 b1 b2 b3
      some ⟨word, word.getLsbD par.speedBit, word.getLsbD par.laserBit, word.getLsbD par.fanBit⟩
    | _ => none
  else none

/-- `DeviceFault = speed OR laser OR fan` (R284). -/
def DeviceStatus.deviceFault (d : DeviceStatus) : Bool := d.speed || d.laser || d.fan

/-- `INTERVAL.DECODE(p)` (R285). -/
def intervalDecode : List Byte → Option Word32
  | [b0, b1, b2, b3] => some (be32 b0 b1 b2 b3)
  | _ => none

/-- The decoded form of an `Ok` payload (10_state.md R46, 46_payload_decode.md). -/
inductive Decoded where
  | nothing
  | float (words : List Word32)
  | fixed (values : List (BitVec 16))
  | interval (value : Word32)
  | status (d : DeviceStatus)
  | bytes (payload : List Byte)
  deriving DecidableEq, Repr

/-- The decoder a command's payload has; `DEV_INFO` and `READ_VERSION` payloads are delivered as byte lists, and an empty response
carries nothing to decode (R287). DESIGN CHOICE (assumption 16): outside the spec's domain, a payload of a length that the command's
response does not have, the answer is `none` for a command with a decoder of R281 to R285, `some .nothing` for one whose response is
empty, and `some (.bytes p)` for `DEV_INFO` and `READ_VERSION`. -/
def decodePayload (par : Params) (op : Op) (fmt : Fmt) (p : List Byte) : Option Decoded :=
  match op with
  | .startMeas => some .nothing
  | .stopMeas => some .nothing
  | .readMeas =>
    match fmt with
    | .float => (measDecodeFloat p).map .float
    | .fixed => (measDecodeFixed p).map .fixed
  | .sleep => some .nothing
  | .wakeUp => some .nothing
  | .fanClean => some .nothing
  | .readInterval => (intervalDecode p).map .interval
  | .writeInterval => (intervalDecode p).map .interval
  | .devInfo => some (.bytes p)
  | .readVersion => some (.bytes p)
  | .readStatus => (statusDecode par p).map .status
  | .reset => some .nothing

end Sys2Proof.Machine
end

