-- ==== Sys2Proof/Machine/Step.lean ====
section
/-! DEFINITION. One step of the machine: the next input event is consumed by one engine step (00_scope.md R12). -/

namespace Sys2Proof.Machine

/-- One engine step. Where no event is offered the block waits: it has no step of its own (60_exceptions.md R336). -/
def step (s : State) : Host.Outcome State Fault Refusal :=
  match s.inputs with
  | [] => .refused .noInput
  | e :: rest => runInput e { s with inputs := rest }

/-- `s` with the instruction of a table word offered as the next input event (assumptions 3 and 9). A word that is no row's
leaves `s` as it is. -/
def State.withFetchWord (s : State) (nbits w : Nat) : State :=
  match decodeTableWord nbits w with
  | some i => s.offer i
  | none => s

end Sys2Proof.Machine
end

