-- ==== Sys2Proof/Safety.lean ====
section
/-! DEFINITION. What a run of the block keeps: the invariant of the decoder group and of the machine, in the terms the statements
use. Each field cites the rule of the spec it comes from. -/

namespace Sys2Proof.Machine

/-- Every byte of `buf[0 .. n]` has been written. -/
def Memory.filled (m : Memory) (n : Nat) : Prop := ∀ i, i < n → (m.read i).isSome = true

/-- The decoder is in the condition `DEC.CLEAR` leaves (43_frame_decode.md R186). -/
def Decoder.cleared (d : Decoder) : Prop := d.dstate = .awaitingStart ∧ d.esc = false ∧ d.remaining = 0#8

/-- The invariant of the decoder group. -/
structure Decoder.Inv (p : Params) (d : Decoder) : Prop where
  /-- the buffer keeps its canonical form -/
  buf_wf : d.buf.wf
  /-- every index is below `CAP` (20_memory.md R65) -/
  buf_bound : ∀ c ∈ d.buf, c.1 < p.cap
  /-- "`esc = 1` implies `dstate` is one of `ReadingAddress` .. `ReadingChecksum`" (10_state.md R26) -/
  esc_field : d.esc = true → d.dstate.inField = true
  /-- `remaining` counts only in `ReadingPayload` (10_state.md R21) -/
  remaining_zero : d.dstate ≠ .readingPayload → d.remaining = 0#8
  /-- "Whenever `dstate = ReadingPayload`, `1 <= remaining <= rx_len <= CAP`" (R179) -/
  payload_count : d.dstate = .readingPayload →
    1 ≤ d.remaining.toNat ∧ d.remaining.toNat ≤ d.rxLen.toNat ∧ d.rxLen.toNat ≤ p.cap
  /-- the `rx_len - remaining` payload bytes received so far are stored (R179) -/
  payload_stored : d.dstate = .readingPayload → d.buf.filled d.payloadIndex
  /-- after the payload all of it is stored (R187) -/
  frame_stored : d.dstate = .readingChecksum ∨ d.dstate = .awaitingStop →
    d.rxLen.toNat ≤ p.cap ∧ d.buf.filled d.rxLen.toNat

/-- The invariant of the machine. -/
structure State.Inv (s : State) : Prop where
  /-- the parameters satisfy R8 -/
  par_valid : s.par.Valid
  dec_inv : s.dec.Inv s.par
  /-- "The block rests between steps only in `Idle`, `Sending` or `AwaitingResponse`" (10_state.md R22) -/
  resting : s.estate = .idle ∨ s.estate = .sending ∨ s.estate = .awaitingResponse
  /-- the decoder is cleared whenever no response is awaited (20_memory.md R71) -/
  dec_cleared : s.estate ≠ .awaitingResponse → s.dec.cleared
  /-- "`0 <= attempt <= cfg_max_attempts`" (10_state.md R25) -/
  attempt_le : s.attempt.toNat ≤ s.cfgMaxAttempts.toNat
  /-- while an exchange is in flight an attempt is left (45_engine.md R252) -/
  attempt_lt : s.estate ≠ .idle → s.attempt.toNat < s.cfgMaxAttempts.toNat
  /-- while an exchange is in flight the latches hold arguments that `START` accepts (R241) -/
  latched_valid : s.estate ≠ .idle → argsValid s.reqOp ⟨s.reqFmt, s.reqArg, s.cfgMaxAttempts, s.cfgTimeout⟩ = true
  /-- while an exchange is in flight `last_cause` is set exactly when an attempt has failed (R242, R252) -/
  cause_iff : s.estate ≠ .idle → (s.lastCause = none ↔ s.attempt = 0#8)
  /-- "it never reaches 0 and never wraps" (45_engine.md R258) -/
  deadline_range : s.estate = .awaitingResponse → 1 ≤ s.deadline.toNat ∧ s.deadline.toNat ≤ s.cfgTimeout.toNat

/-- The events a step has added to the history. -/
def emitted (s t : State) (outs : List Output) : Prop := t.outputs = s.outputs ++ outs

/-- The state of a failed attempt while attempts are left (45_engine.md R252 with R243). -/
def State.retried (s : State) (cause : ErrorRecord) : State :=
  { s with
    dec := s.dec.clear
    estate := .sending
    attempt := s.attempt + 1#8
    lastCause := some cause
    outputs := s.outputs ++ [.trace s.attempt cause, .txWrite s.requestFrame] }

/-- The state of a failed attempt when none is left (R252 with R253). -/
def State.exhausted (s : State) (cause : ErrorRecord) : State :=
  { s with
    dec := s.dec.clear
    estate := .idle
    attempt := s.attempt + 1#8
    lastCause := some cause
    outputs := s.outputs ++ [.trace s.attempt cause, .result (.err (.exhaustedRetries cause))] }

/-- The state of a failed attempt (45_engine.md R252, R253): "Retries left" is `attempt + 1 < cfg_max_attempts` (R257). -/
def State.failed (s : State) (cause : ErrorRecord) : State :=
  if s.attempt.toNat + 1 < s.cfgMaxAttempts.toNat then s.retried cause else s.exhausted cause

/-- The state after an exchange has ended with `r` (R245, R249, R254, R255). -/
def State.ended (s : State) (r : Result) : State :=
  { s with dec := s.dec.clear, estate := .idle, outputs := s.outputs ++ [.result r] }

end Sys2Proof.Machine
end

