-- ==== Sys2Proof/Certificates/Slice0/Obligations.lean ====
section
/-! DEFINITION. The statements for the provers. Rule numbers are those of spec/; `State.failed`, `State.ended`, `Decoder.cleared`
and the invariants are written out in Sys2Proof/Safety.lean. -/

open Sys2Proof Sys2Proof.Machine

/-! ### Encodings -/

/-- Decoding an encoded well-formed instruction gives it back, for every row of the opcode table and every valid parameter set
(R90, R93, R100, R105 to R108, R120). -/
def Obligations.DecodeEncodeRoundTrip : Prop :=
  ∀ (p : Params) (i : Instr), p.Valid → i.wellFormed p = true → decode p (encode p i) = .ok i

/-- Every raw byte in every decoder context is exactly one row: the row decoded for it has that byte, that context and
well-formed operands, and every well-formed row is decoded from its byte in each of its contexts (R93, R165). -/
def Obligations.RawByteRowsPartitionTheContexts : Prop :=
  ∀ p : Params, p.Valid →
    (∀ (ds : DState) (esc : Bool) (b : Byte),
      rawByte p (decodeRaw p ds esc b) = some b ∧ rawContext (decodeRaw p ds esc b) ds esc = true ∧
        (decodeRaw p ds esc b).wellFormed p = true) ∧
    ∀ (i : Instr) (ds : DState) (esc : Bool) (b : Byte),
      i.wellFormed p = true → rawByte p i = some b → rawContext i ds esc = true → decodeRaw p ds esc b = i

/-- Words written out from the spec's encodings decode to their rows: two requests (V-ENC-9, V-ENC-13), a response, raw bytes of
R93 and selectors of R120, under the parameter defaults. -/
def Obligations.SampleWordsDecodeToTheirRows : Prop :=
  decode Params.default (.request [0x00#8, 0x80#8, 0x04#8, 0x00#8, 0x09#8, 0x3A#8, 0x80#8]) = .ok (.writeInterval 604800#32) ∧
  decode Params.default (.request [0x00#8, 0xD0#8, 0x01#8, 0x03#8]) = .ok (.devInfo 3#8) ∧
  decode Params.default (.response .stopMeas .float [0x00#8, 0x01#8, 0x00#8]) = .ok .rspStopMeas ∧
  decodeRaw Params.default .awaitingStart false 0x7E#8 = .rawDelimOpen ∧
  decodeRaw Params.default .readingCommand true 0x31#8 = .escapedFc1 ∧
  decodeRaw Params.default .readingCommand false 0x31#8 = .rawDataCmd 0x31#8 ∧
  decodeStart 9#4 zeroArgs = .hostStartReadVersion zeroArgs ∧ decodeStart 12#4 zeroArgs = .hostStartReserved12 zeroArgs ∧
  decodeTableWord 24 0x000100 = some .stopMeas ∧ decodeTableWord 8 0x7D = some .rawEsc

/-! ### The request rows -/

/-- Each of the twelve request rows, when the latches hold it and no write is outstanding, sends the frame with its own CMD and
payload and goes to `Sending`; nothing else changes (R243 with R202 to R213, R105 to R108). That `exec` of a request row is
`SEND`, in `Idle` too, is the model's reading (log entry 11). -/
def Obligations.RequestRowsSendTheirFrame : Prop :=
  ∀ s : State, s.estate ≠ .sending →
    let sent (cmd : Byte) (payload : List Byte) : Answer :=
      .next { s with
        estate := .sending
        outputs := s.outputs ++ [.txWrite (frameBytes s.par s.par.addr0 cmd payload)] }
    (s.reqOp = .startMeas → s.reqFmt = .float → exec (.startMeas .float) s = sent s.par.opcStartMeas [s.par.fmtFloat]) ∧
    (s.reqOp = .startMeas → s.reqFmt = .fixed → exec (.startMeas .fixed) s = sent s.par.opcStartMeas [s.par.fmtFixed]) ∧
    (s.reqOp = .stopMeas → exec .stopMeas s = sent s.par.opcStopMeas []) ∧
    (s.reqOp = .readMeas → exec .readMeas s = sent s.par.opcReadMeas []) ∧
    (s.reqOp = .sleep → exec .sleep s = sent s.par.opcSleep []) ∧
    (s.reqOp = .wakeUp → exec .wakeUp s = sent s.par.opcWakeUp []) ∧
    (s.reqOp = .fanClean → exec .fanClean s = sent s.par.opcFanClean []) ∧
    (s.reqOp = .readInterval → exec .readInterval s = sent s.par.opcInterval []) ∧
    (s.reqOp = .writeInterval → ∀ b0 b1 b2 b3 : Byte, s.reqArg = be32 b0 b1 b2 b3 →
      exec (.writeInterval (be32 b0 b1 b2 b3)) s = sent s.par.opcInterval [b0, b1, b2, b3]) ∧
    (s.reqOp = .devInfo → ∀ k : Byte, s.reqArg = k.setWidth 32 → exec (.devInfo k) s = sent s.par.opcDevInfo [k]) ∧
    (s.reqOp = .readVersion → exec .readVersion s = sent s.par.opcReadVersion []) ∧
    (s.reqOp = .readStatus → s.reqArg = 0#32 → exec (.readStatus false) s = sent s.par.opcReadStatus [0x00#8]) ∧
    (s.reqOp = .readStatus → s.reqArg = 1#32 → exec (.readStatus true) s = sent s.par.opcReadStatus [0x01#8]) ∧
    (s.reqOp = .reset → exec .reset s = sent s.par.opcReset [])

/-! ### The host port -/

/-- An accepted `START`: each of the twelve rows latches its request and configuration, clears the decoder, and sends the frame
of the request; nothing else changes (R242, with the sub-step of R243). Outside `Idle` the row is not enabled (R242); that such a
row is the refusal `startBusy` is the model's choice (DESIGN CHOICE, log entry 10). -/
def Obligations.AcceptedStartLatchesAndSends : Prop :=
  ∀ (s : State) (op : Op) (a : StartArgs), a.maxAttempts ≠ 0#8 → a.timeout ≠ 0#32 →
    (op = .devInfo → a.arg.extractLsb' 8 24 = 0#24) → (op = .readStatus → a.arg.extractLsb' 1 31 = 0#31) →
    (s.estate = .idle →
      exec (startInstr op a) s =
        .next { s with
          dec := { s.dec with dstate := .awaitingStart, esc := false, remaining := 0#8 }
          estate := .sending
          attempt := 0#8
          lastCause := none
          reqOp := op
          reqFmt := a.fmt
          reqArg := a.arg
          cfgMaxAttempts := a.maxAttempts
          cfgTimeout := a.timeout
          outputs := s.outputs ++
            [.txWrite (frameBytes s.par s.par.addr0 (cmdOf s.par op) (reqPayload s.par op a.fmt a.arg))] }) ∧
    (s.estate ≠ .idle → exec (startInstr op a) s = .refused .startBusy)

/-- A refused `START`: in `Idle`, with a reserved selector or an argument that R241 names, the block answers
`Result(Err(InvalidRequest))` and nothing else changes. All sixteen `START` rows. -/
def Obligations.RefusedStartChangesNothing : Prop :=
  ∀ (s : State) (a : StartArgs), s.estate = .idle →
    let refusal : Answer := .next { s with outputs := s.outputs ++ [.result (.err .invalidRequest)] }
    (∀ op : Op,
      (a.maxAttempts = 0#8 ∨ a.timeout = 0#32 ∨ (op = .devInfo ∧ a.arg.extractLsb' 8 24 ≠ 0#24) ∨
        (op = .readStatus ∧ a.arg.extractLsb' 1 31 ≠ 0#31)) →
      exec (startInstr op a) s = refusal) ∧
    exec (.hostStartReserved12 a) s = refusal ∧ exec (.hostStartReserved13 a) s = refusal ∧
    exec (.hostStartReserved14 a) s = refusal ∧ exec (.hostStartReserved15 a) s = refusal

/-- `CANCEL`: no effect in `Idle`; otherwise the decoder is cleared and the engine goes to `Idle`, with no event (R256). -/
def Obligations.CancelClearsAndReturnsToIdle : Prop :=
  ∀ s : State,
    (s.estate = .idle → exec .hostCancel s = .next s) ∧
    (s.estate ≠ .idle →
      exec .hostCancel s =
        .next { s with dec := { s.dec with dstate := .awaitingStart, esc := false, remaining := 0#8 }, estate := .idle })

/-- Where a row has no step: `START` outside `Idle` (R242), a request row that the latches do not hold or while a write is
outstanding, a response or raw-byte row while no read is armed, a response longer than a frame can carry, and a raw-byte row
outside its decoder context (R9, R44, R102). -/
def Obligations.RowsOutsideTheirConditionHaveNoStep : Prop :=
  ∀ (s : State) (i : Instr),
    (∀ sel a, encode s.par i = .start sel a → s.estate ≠ .idle → exec i s = .refused .startBusy) ∧
    (∀ body, encode s.par i = .request body →
      (s.estate = .sending → exec i s = .refused .writeOutstanding) ∧
      (s.estate ≠ .sending → s.request ≠ i → exec i s = .refused .outOfContext)) ∧
    (∀ op fmt body, encode s.par i = .response op fmt body →
      (s.estate ≠ .awaitingResponse → exec i s = .refused .readNotArmed) ∧
      (s.estate = .awaitingResponse → 255 + 3 < body.length → exec i s = .refused .payloadTooLong)) ∧
    (∀ b, rawByte s.par i = some b →
      (s.estate ≠ .awaitingResponse → exec i s = .refused .readNotArmed) ∧
      (s.estate = .awaitingResponse → rawContext i s.dec.dstate s.dec.esc = false ∨ i.wellFormed s.par = false →
        exec i s = .refused .outOfContext))

/-! ### The response rows -/

/-- The thirteen response rows: a frame of the row the latched request selects ends the exchange in `Idle` with its payload;
nothing but the cleared decoder changes (R248, R249, R215). That `exec` of a response row is `VALIDATE` is the model's reading of
R102, R215 and R248 (log entry 11). -/
def Obligations.ResponseRowsCompleteTheExchange : Prop :=
  ∀ s : State, s.par.Valid → s.estate = .awaitingResponse →
    let done (n : Nat) (payload : List Byte) : Answer := .next (s.ended (.ok s.reqOp (BitVec.ofNat 8 n) payload))
    (s.reqOp = .startMeas → exec .rspStartMeas s = done 0 []) ∧
    (s.reqOp = .stopMeas → exec .rspStopMeas s = done 0 []) ∧
    (s.reqOp = .readMeas → s.reqFmt = .float → ∀ q, q.length = 40 → exec (.rspReadMeasFloat q) s = done 40 q) ∧
    (s.reqOp = .readMeas → s.reqFmt = .fixed → ∀ q, q.length = 20 → exec (.rspReadMeasFixed q) s = done 20 q) ∧
    (s.reqOp = .sleep → exec .rspSleep s = done 0 []) ∧
    (s.reqOp = .wakeUp → exec .rspWakeUp s = done 0 []) ∧
    (s.reqOp = .fanClean → exec .rspFanClean s = done 0 []) ∧
    (s.reqOp = .readInterval → ∀ q, q.length = 4 → exec (.rspReadInterval q) s = done 4 q) ∧
    (s.reqOp = .writeInterval → ∀ q, q.length = 4 → exec (.rspWriteInterval q) s = done 4 q) ∧
    (s.reqOp = .devInfo → ∀ q, q.length ≤ s.par.devinfoMax → exec (.rspDevInfo q) s = done q.length q) ∧
    (s.reqOp = .readVersion → ∀ q, q.length = s.par.fwverLen → exec (.rspReadVersion q) s = done s.par.fwverLen q) ∧
    (s.reqOp = .readStatus → ∀ q, q.length = 4 + s.par.statusRsvdLen →
      exec (.rspReadStatus q) s = done (4 + s.par.statusRsvdLen) q) ∧
    (s.reqOp = .reset → exec .rspReset s = done 0 [])

/-- A response row of another command, or of a length the latched request does not allow, fails the attempt with
`OpcodeMismatch` before `LengthMismatch` (R215, R248, R252). `responseInstr` gives every response row. That `exec` of a response
row is `VALIDATE` is the model's reading (log entry 11). -/
def Obligations.ForeignResponseRowsFailTheAttempt : Prop :=
  ∀ (s : State) (op : Op) (fmt : Fmt) (payload : List Byte), s.par.Valid → s.estate = .awaitingResponse →
    rspLenOk s.par op fmt payload.length = true →
    (cmdOf s.par op ≠ cmdOf s.par s.reqOp →
      exec (responseInstr op fmt payload) s = .next (s.failed (.shape .opcodeMismatch))) ∧
    (cmdOf s.par op = cmdOf s.par s.reqOp → rspLenOk s.par s.reqOp s.reqFmt payload.length = false →
      exec (responseInstr op fmt payload) s = .next (s.failed (.shape .lengthMismatch)))

/-! ### The raw-byte rows -/

/-- Outside a frame: `DELIM` opens one, and any other byte is discarded with no state change (R170). -/
def Obligations.BytesOutsideAFrame : Prop :=
  ∀ s : State, s.estate = .awaitingResponse → s.dec.dstate = .awaitingStart →
    exec .rawDelimOpen s = .next { s with dec := { s.dec with dstate := .readingAddress, esc := false } } ∧
    ∀ v : Byte, v ≠ s.par.delim → exec (.rawOtherIdle v) s = .next s

/-- The escape marker sets `esc` and changes nothing else (R172). -/
def Obligations.EscapeMarkerSetsEsc : Prop :=
  ∀ s : State, s.estate = .awaitingResponse → s.dec.dstate.inField = true → s.dec.esc = false →
    exec .rawEsc s = .next { s with dec := { s.dec with esc := true } }

/-- The address, command and checksum field bytes, each any non-reserved raw byte, are stored in their registers and the decoder
advances; nothing else changes (R175, R176, R180). -/
def Obligations.HeaderAndChecksumBytesAreStored : Prop :=
  ∀ (s : State) (v : Byte), s.estate = .awaitingResponse → s.dec.esc = false → s.par.isReserved v = false →
    (s.dec.dstate = .readingAddress →
      exec (.rawDataAddr v) s = .next { s with dec := { s.dec with rxAddr := v, dstate := .readingCommand } }) ∧
    (s.dec.dstate = .readingCommand →
      exec (.rawDataCmd v) s = .next { s with dec := { s.dec with rxCmd := v, dstate := .readingLength } }) ∧
    (s.dec.dstate = .readingChecksum →
      exec (.rawDataChk v) s = .next { s with dec := { s.dec with rxChk := v, dstate := .awaitingStop } })

/-- The length byte: `v > CAP` ends the exchange with `BufferOverflow(v)`, 0 skips the payload, anything else starts it
(R177, R254). -/
def Obligations.LengthByteFixesTheCount : Prop :=
  ∀ (s : State) (v : Byte), s.estate = .awaitingResponse → s.dec.dstate = .readingLength → s.dec.esc = false →
    s.par.isReserved v = false →
    (s.par.cap < v.toNat →
      exec (.rawDataLen v) s =
        .next { s with
          dec := { s.dec with rxLen := v, dstate := .awaitingStart, esc := false, remaining := 0#8 }
          estate := .idle
          outputs := s.outputs ++ [.result (.err (.bufferOverflow v))] }) ∧
    (v.toNat ≤ s.par.cap → v = 0#8 →
      exec (.rawDataLen v) s =
        .next { s with dec := { s.dec with rxLen := v, remaining := 0#8, dstate := .readingChecksum } }) ∧
    (v.toNat ≤ s.par.cap → v ≠ 0#8 →
      exec (.rawDataLen v) s =
        .next { s with dec := { s.dec with rxLen := v, remaining := v, dstate := .readingPayload } })

/-- The payload byte is stored at `buf[rx_len - remaining]` and at no other index, `remaining` counts down, and the last byte
moves on to the checksum; nothing else changes (R178). -/
def Obligations.PayloadByteIsStoredAtItsIndex : Prop :=
  ∀ (s : State) (v : Byte), s.estate = .awaitingResponse → s.dec.dstate = .readingPayload → s.dec.esc = false →
    s.par.isReserved v = false → 1 ≤ s.dec.remaining.toNat → s.dec.remaining.toNat ≤ s.dec.rxLen.toNat →
    s.dec.rxLen.toNat ≤ s.par.cap →
    ∃ buf : Memory,
      (∀ i : Nat, buf.read i = if i = s.dec.rxLen.toNat - s.dec.remaining.toNat then some v else s.dec.buf.read i) ∧
      (s.dec.remaining = 1#8 →
        exec (.rawDataPayload v) s =
          .next { s with dec := { s.dec with buf := buf, remaining := 0#8, dstate := .readingChecksum } }) ∧
      (s.dec.remaining ≠ 1#8 →
        exec (.rawDataPayload v) s =
          .next { s with dec := { s.dec with buf := buf, remaining := s.dec.remaining - 1#8 } })

/-- The second byte of an escape pair of a reserved value `r` acts in each state as the field byte `r` with `esc` cleared
(R173 with R175 to R180). -/
def Obligations.EscapedBytesAreFieldBytes : Prop :=
  ∀ (s : State) (i : Instr) (r : Byte),
    (i, r) ∈ [(Instr.escapedDelim, s.par.delim), (.escapedEsc, s.par.esc), (.escapedFc1, s.par.fc1), (.escapedFc2, s.par.fc2)] →
    s.estate = .awaitingResponse → s.dec.esc = true →
    (s.dec.dstate = .readingAddress →
      exec i s = .next { s with dec := { s.dec with esc := false, rxAddr := r, dstate := .readingCommand } }) ∧
    (s.dec.dstate = .readingCommand →
      exec i s = .next { s with dec := { s.dec with esc := false, rxCmd := r, dstate := .readingLength } }) ∧
    (s.dec.dstate = .readingLength → s.par.cap < r.toNat →
      exec i s =
        .next { s with
          dec := { s.dec with rxLen := r, dstate := .awaitingStart, esc := false, remaining := 0#8 }
          estate := .idle
          outputs := s.outputs ++ [.result (.err (.bufferOverflow r))] }) ∧
    (s.dec.dstate = .readingLength → r.toNat ≤ s.par.cap → r = 0#8 →
      exec i s =
        .next { s with dec := { s.dec with esc := false, rxLen := r, remaining := 0#8, dstate := .readingChecksum } }) ∧
    (s.dec.dstate = .readingLength → r.toNat ≤ s.par.cap → r ≠ 0#8 →
      exec i s =
        .next { s with dec := { s.dec with esc := false, rxLen := r, remaining := r, dstate := .readingPayload } }) ∧
    (s.dec.dstate = .readingPayload → 1 ≤ s.dec.remaining.toNat → s.dec.remaining.toNat ≤ s.dec.rxLen.toNat →
      s.dec.rxLen.toNat ≤ s.par.cap →
      ∃ buf : Memory,
        (∀ k : Nat, buf.read k = if k = s.dec.rxLen.toNat - s.dec.remaining.toNat then some r else s.dec.buf.read k) ∧
        exec i s =
          .next { s with
            dec := { s.dec with
              esc := false
              buf := buf
              remaining := s.dec.remaining - 1#8
              dstate := if s.dec.remaining = 1#8 then .readingChecksum else .readingPayload } }) ∧
    (s.dec.dstate = .readingChecksum →
      exec i s = .next { s with dec := { s.dec with esc := false, rxChk := r, dstate := .awaitingStop } })

/-- The rows that are framing errors fail the attempt with their sub-cause: a delimiter mid-frame, an unescaped flow-control
byte, a malformed escape, a byte where the closing delimiter is expected (R173, R174, R181, R182 with R184, R252). -/
def Obligations.FramingErrorRowsFailTheAttempt : Prop :=
  ∀ s : State, s.estate = .awaitingResponse →
    (s.dec.dstate.inField = true → exec .rawDelimMidframe s = .next (s.failed (.framing .delimMidFrame))) ∧
    (s.dec.dstate.inField = true → s.dec.esc = false →
      exec .rawFc1 s = .next (s.failed (.framing .unexpectedByte)) ∧
      exec .rawFc2 s = .next (s.failed (.framing .unexpectedByte))) ∧
    (s.dec.dstate.inField = true → s.dec.esc = true →
      ∀ v : Byte, v ≠ s.par.delim → s.par.isReserved (s.par.unxf v) = false →
        exec (.escapedIllegal v) s = .next (s.failed (.framing .malformedEscape))) ∧
    (s.dec.dstate = .awaitingStop →
      ∀ v : Byte, v ≠ s.par.delim → exec (.rawOtherStop v) s = .next (s.failed (.framing .unexpectedByte)))

/-- The closing delimiter: over the stored header and payload a wrong checksum fails the attempt; a right one delivers the frame,
which ends the exchange or fails the attempt by the first of the three shape checks that does not hold
(R183, R215, R248, R249). -/
def Obligations.ClosingDelimiterCompletesTheFrame : Prop :=
  ∀ (s : State) (payload : List Byte), s.estate = .awaitingResponse → s.dec.dstate = .awaitingStop →
    payload.length = s.dec.rxLen.toNat → (∀ k, k < payload.length → s.dec.buf.read k = payload[k]?) →
    let good := chkCompute ([s.dec.rxAddr, s.dec.rxCmd, s.dec.rxLen] ++ payload) = s.dec.rxChk
    let lengthOk := rspLenOk s.par s.reqOp s.reqFmt payload.length
    (¬ good → exec .rawDelimClose s = .next (s.failed .checksum)) ∧
    (good → s.dec.rxAddr ≠ s.par.addr0 → exec .rawDelimClose s = .next (s.failed (.shape .addrMismatch))) ∧
    (good → s.dec.rxAddr = s.par.addr0 → s.dec.rxCmd ≠ cmdOf s.par s.reqOp →
      exec .rawDelimClose s = .next (s.failed (.shape .opcodeMismatch))) ∧
    (good → s.dec.rxAddr = s.par.addr0 → s.dec.rxCmd = cmdOf s.par s.reqOp → lengthOk = false →
      exec .rawDelimClose s = .next (s.failed (.shape .lengthMismatch))) ∧
    (good → s.dec.rxAddr = s.par.addr0 → s.dec.rxCmd = cmdOf s.par s.reqOp → lengthOk = true →
      exec .rawDelimClose s = .next (s.ended (.ok s.reqOp s.dec.rxLen payload)))

/-- A failed attempt, whatever its cause: it is traced under its index, the cause is recorded, the counter goes up and the decoder
is cleared; then the same frame is sent again if the incremented counter is below the maximum, and otherwise the exchange
ends with `ExhaustedRetries` of the same cause (R252, R253). -/
def Obligations.FailedAttemptIsTracedAndRetriedOrEnded : Prop :=
  ∀ (s : State) (cause : ErrorRecord),
    let recorded (estate : EState) (last : Output) : State :=
      { s with
        dec := { s.dec with dstate := .awaitingStart, esc := false, remaining := 0#8 }
        estate := estate
        attempt := s.attempt + 1#8
        lastCause := some cause
        outputs := s.outputs ++ [.trace s.attempt cause, last] }
    (s.attempt.toNat + 1 < s.cfgMaxAttempts.toNat →
      s.failAttempt cause = recorded .sending (.txWrite s.requestFrame)) ∧
    (s.cfgMaxAttempts.toNat ≤ s.attempt.toNat + 1 →
      s.failAttempt cause = recorded .idle (.result (.err (.exhaustedRetries cause)))) ∧
    s.failed cause = s.failAttempt cause

/-- Two descriptions of one raw byte agree: executing the row it is decoded to is one decoder step by the priority order of R171,
followed by the engine's reaction (R165, R171, R246). -/
def Obligations.RawByteRowIsDecoderStepAndReaction : Prop :=
  ∀ (s : State) (b : Byte), s.par.Valid → s.estate = .awaitingResponse →
    exec (s.rawInstr b) s = s.receive (decStep s.par s.dec b)

/-! ### The frame decoder -/

/-- The transition table of the decoder, row by row (R185), for every decoder state and byte; in `ReadingPayload` with
`1 <= remaining <= rx_len <= CAP`, which R179 states of that state. -/
def Obligations.DecoderTransitionTable : Prop :=
  ∀ (p : Params) (d : Decoder) (b : Byte), p.Valid →
    let field (v : Byte) : Prop :=
      b ≠ p.delim ∧ ((d.esc = true ∧ p.unxf b = v ∧ p.isReserved v = true) ∨ (d.esc = false ∧ b = v ∧ p.isReserved v = false))
    let goes (ds : DState) (out : DecOut) : Prop := ∃ d', decStep p d b = .ok (d', out) ∧ d'.dstate = ds
    (d.dstate = .awaitingStart → b = p.delim → goes .readingAddress .none) ∧
    (d.dstate = .awaitingStart → b ≠ p.delim → decStep p d b = .ok (d, .none)) ∧
    (∀ v, field v →
      (d.dstate = .readingAddress → goes .readingCommand .none) ∧
      (d.dstate = .readingCommand → goes .readingLength .none) ∧
      (d.dstate = .readingLength → v = 0#8 → goes .readingChecksum .none) ∧
      (d.dstate = .readingLength → v ≠ 0#8 → v.toNat ≤ p.cap →
        ∃ d', decStep p d b = .ok (d', .none) ∧ d'.dstate = .readingPayload ∧ d'.remaining = v) ∧
      (d.dstate = .readingLength → p.cap < v.toNat → goes .awaitingStart (.error (.overflow v))) ∧
      (d.dstate = .readingPayload → 2 ≤ d.remaining.toNat → d.remaining.toNat ≤ d.rxLen.toNat → d.rxLen.toNat ≤ p.cap →
        ∃ d', decStep p d b = .ok (d', .none) ∧ d'.dstate = .readingPayload ∧ d'.remaining = d.remaining - 1#8) ∧
      (d.dstate = .readingPayload → d.remaining = 1#8 → 1 ≤ d.rxLen.toNat → d.rxLen.toNat ≤ p.cap →
        goes .readingChecksum .none) ∧
      (d.dstate = .readingChecksum → goes .awaitingStop .none)) ∧
    (d.dstate = .awaitingStop → b = p.delim → ∀ q, Memory.readN d.buf 0 d.rxLen.toNat = some q →
      (chkCompute ([d.rxAddr, d.rxCmd, d.rxLen] ++ q) = d.rxChk →
        goes .awaitingStart (.frame d.rxAddr d.rxCmd d.rxLen q)) ∧
      (chkCompute ([d.rxAddr, d.rxCmd, d.rxLen] ++ q) ≠ d.rxChk → goes .awaitingStart (.error .checksum))) ∧
    (d.dstate = .awaitingStop → b ≠ p.delim → goes .awaitingStart (.error (.framing .unexpectedByte))) ∧
    (d.dstate.inField = true → b = p.delim → goes .awaitingStart (.error (.framing .delimMidFrame))) ∧
    (d.dstate.inField = true → b = p.esc → d.esc = false → decStep p d b = .ok ({ d with esc := true }, .none)) ∧
    (d.dstate.inField = true → b ≠ p.delim → d.esc = true → p.isReserved (p.unxf b) = false →
      goes .awaitingStart (.error (.framing .malformedEscape))) ∧
    (d.dstate.inField = true → d.esc = false → b = p.fc1 ∨ b = p.fc2 →
      goes .awaitingStart (.error (.framing .unexpectedByte)))

/-- What a field byte `v`, received raw or as an escape pair, does in each state: the register it is stored in, the count, the
buffer index and the next state, with `esc` cleared and nothing else changed (R175, R176, R177, R178, R180). -/
def Obligations.FieldBytesUpdateTheRegisters : Prop :=
  ∀ (p : Params) (d : Decoder) (b v : Byte), b ≠ p.delim →
    ((d.esc = true ∧ p.unxf b = v ∧ p.isReserved v = true) ∨ (d.esc = false ∧ b = v ∧ p.isReserved v = false)) →
    (d.dstate = .readingAddress →
      decStep p d b = .ok ({ d with esc := false, rxAddr := v, dstate := .readingCommand }, .none)) ∧
    (d.dstate = .readingCommand →
      decStep p d b = .ok ({ d with esc := false, rxCmd := v, dstate := .readingLength }, .none)) ∧
    (d.dstate = .readingLength → p.cap < v.toNat →
      decStep p d b =
        .ok ({ d with esc := false, rxLen := v, remaining := 0#8, dstate := .awaitingStart }, .error (.overflow v))) ∧
    (d.dstate = .readingLength → v.toNat ≤ p.cap → v = 0#8 →
      decStep p d b = .ok ({ d with esc := false, rxLen := v, remaining := 0#8, dstate := .readingChecksum }, .none)) ∧
    (d.dstate = .readingLength → v.toNat ≤ p.cap → v ≠ 0#8 →
      decStep p d b = .ok ({ d with esc := false, rxLen := v, remaining := v, dstate := .readingPayload }, .none)) ∧
    (d.dstate = .readingPayload → 1 ≤ d.remaining.toNat → d.remaining.toNat ≤ d.rxLen.toNat → d.rxLen.toNat ≤ p.cap →
      ∃ buf : Memory,
        (∀ i : Nat, buf.read i = if i = d.rxLen.toNat - d.remaining.toNat then some v else d.buf.read i) ∧
        (d.remaining = 1#8 →
          decStep p d b = .ok ({ d with esc := false, buf := buf, remaining := 0#8, dstate := .readingChecksum }, .none)) ∧
        (d.remaining ≠ 1#8 →
          decStep p d b = .ok ({ d with esc := false, buf := buf, remaining := d.remaining - 1#8 }, .none))) ∧
    (d.dstate = .readingChecksum →
      decStep p d b = .ok ({ d with esc := false, rxChk := v, dstate := .awaitingStop }, .none))

/-- Every decoder step that reports anything leaves `AwaitingStart`, `esc = 0`, `remaining = 0`, and erases neither the buffer
nor a field register other than the length byte it has just read (R184, R317). -/
def Obligations.DecoderOutputsResynchronize : Prop :=
  ∀ (p : Params) (d d' : Decoder) (b : Byte) (out : DecOut), decStep p d b = .ok (d', out) → out ≠ .none →
    d'.dstate = .awaitingStart ∧ d'.esc = false ∧ d'.remaining = 0#8 ∧ d'.buf = d.buf ∧ d'.rxAddr = d.rxAddr ∧
    d'.rxCmd = d.rxCmd ∧ d'.rxChk = d.rxChk ∧ (d'.rxLen = d.rxLen ∨ out = .error (.overflow d'.rxLen))

/-- Chunk independence: the decoder's outputs and final state over `a ++ b` are those over `a` followed by those over `b` (R188). -/
def Obligations.DecoderRunIsChunkIndependent : Prop :=
  ∀ (p : Params) (d : Decoder) (a b : List Byte),
    decRun p d (a ++ b) =
      match decRun p d a with
      | .error f => .error f
      | .ok (outs, d') =>
        match decRun p d' b with
        | .error f => .error f
        | .ok (outs', d'') => .ok (outs ++ outs', d'')

/-- Round trip of the frame codec: an encoded frame gives exactly one output, the frame, on its last byte, and leaves the decoder
in `AwaitingStart`; a payload above `CAP` gives only `BufferOverflow`, and its closing delimiter then opens a frame
(R189, R160). -/
def Obligations.EncodedFrameDecodesToItself : Prop :=
  ∀ (p : Params) (d : Decoder) (addr cmd : Byte) (payload : List Byte), p.Valid → d.dstate = .awaitingStart →
    (payload.length ≤ p.cap →
      ∃ d₁ d₂ : Decoder,
        decRun p d (frameBytes p addr cmd payload).dropLast = .ok ([], d₁) ∧
        decRun p d (frameBytes p addr cmd payload) =
          .ok ([.frame addr cmd (BitVec.ofNat 8 payload.length) payload], d₂) ∧
        d₂.dstate = .awaitingStart ∧ d₂.esc = false) ∧
    (p.cap < payload.length → payload.length ≤ 255 →
      ∃ d₂ : Decoder,
        decRun p d (frameBytes p addr cmd payload) = .ok ([.error (.overflow (BitVec.ofNat 8 payload.length))], d₂) ∧
        d₂.dstate = .readingAddress)

/-- Exactness: a raw sequence that starts with `DELIM` gives a frame as its one output, on its last byte, exactly when it is the
encoding of that frame with `len <= CAP`; so the encoder is injective (R190). -/
def Obligations.DecoderAcceptsExactlyTheEncodings : Prop :=
  ∀ p : Params, p.Valid →
    (∀ (d : Decoder) (body : List Byte) (last addr cmd len : Byte) (payload : List Byte), d.dstate = .awaitingStart →
      ((∃ d₁ d₂ : Decoder,
          decRun p d (p.delim :: body) = .ok ([], d₁) ∧ decStep p d₁ last = .ok (d₂, .frame addr cmd len payload)) ↔
        p.delim :: body ++ [last] = frameBytes p addr cmd payload ∧ len.toNat = payload.length ∧ payload.length ≤ p.cap)) ∧
    ∀ (a c a' c' : Byte) (q q' : List Byte), q.length ≤ 255 → q'.length ≤ 255 →
      frameBytes p a c q = frameBytes p a' c' q' → a = a' ∧ c = c' ∧ q = q'

/-- Single raw-byte corruption: an encoded frame with one raw byte replaced never decodes to the original frame (R191(a)). -/
def Obligations.CorruptedFrameIsNeverTheOriginal : Prop :=
  ∀ (p : Params) (d d' : Decoder) (addr cmd : Byte) (payload : List Byte) (k : Nat) (x : Byte) (outs : List DecOut),
    p.Valid → d.dstate = .awaitingStart → payload.length ≤ p.cap → k < (frameBytes p addr cmd payload).length →
    (frameBytes p addr cmd payload)[k]? ≠ some x →
    decRun p d ((frameBytes p addr cmd payload).set k x) = .ok (outs, d') →
    DecOut.frame addr cmd (BitVec.ofNat 8 payload.length) payload ∉ outs

/-- Single raw-byte corruption that neither turns a byte into `ESC` nor overwrites the `ESC` of an escape pair: no frame at all is
decoded (R191(b)). -/
def Obligations.CorruptionThatSparesEscapesGivesNoFrame : Prop :=
  ∀ (p : Params) (d d' : Decoder) (addr cmd : Byte) (payload : List Byte) (k : Nat) (b x : Byte) (outs : List DecOut),
    p.Valid → d.dstate = .awaitingStart → payload.length ≤ p.cap → (frameBytes p addr cmd payload)[k]? = some b →
    x ≠ b → b ≠ p.esc → x ≠ p.esc → decRun p d ((frameBytes p addr cmd payload).set k x) = .ok (outs, d') →
    ∀ a c n q, DecOut.frame a c n q ∉ outs

/-- Resynchronization after garbage that ends in `AwaitingStart` without a frame: the frame after it is the one frame decoded;
garbage without `DELIM` gives no output at all (R192). -/
def Obligations.FrameAfterGarbageIsDecoded : Prop :=
  ∀ (p : Params) (d d₁ : Decoder) (g : List Byte) (outs : List DecOut) (addr cmd : Byte) (payload : List Byte), p.Valid →
    d.dstate = .awaitingStart → payload.length ≤ p.cap →
    let frame := DecOut.frame addr cmd (BitVec.ofNat 8 payload.length) payload
    (decRun p d g = .ok (outs, d₁) → d₁.dstate = .awaitingStart → (∀ a c n q, DecOut.frame a c n q ∉ outs) →
      ∃ d₂, decRun p d (g ++ frameBytes p addr cmd payload) = .ok (outs ++ [frame], d₂) ∧ d₂.dstate = .awaitingStart) ∧
    (p.delim ∉ g → decRun p d g = .ok ([], d))

/-! ### The checksum, the stuffer, the frame encoder -/

/-- `CHK.COMPUTE` is 255 minus the sum modulo 256, so a frame is consistent exactly when all its field bytes sum to 255 modulo
256 (R130, R131, R132). -/
def Obligations.ChecksumIsComplementOfTheSum : Prop :=
  ∀ (bytes : List Byte) (claimed : Byte),
    (chkCompute bytes).toNat = 255 - (bytes.map BitVec.toNat).sum % 256 ∧
    (chkVerify bytes claimed = true ↔ ((bytes.map BitVec.toNat).sum + claimed.toNat) % 256 = 255)

/-- Replacing exactly one byte of a verified list, or of its claimed checksum, makes `CHK.VERIFY` fail; changes that keep the sum
modulo 256, a reordering among them, go unseen (R134). -/
def Obligations.ChecksumDetectsOneChangedByte : Prop :=
  ∀ (bytes bytes' : List Byte) (claimed claimed' x : Byte) (k : Nat),
    (chkVerify bytes claimed = true → k < bytes.length → bytes[k]? ≠ some x → chkVerify (bytes.set k x) claimed = false) ∧
    (chkVerify bytes claimed = true → claimed' ≠ claimed → chkVerify bytes claimed' = false) ∧
    ((bytes.map BitVec.toNat).sum % 256 = (bytes'.map BitVec.toNat).sum % 256 →
      chkVerify bytes' claimed = chkVerify bytes claimed) ∧
    (bytes.Perm bytes' → chkVerify bytes' claimed = chkVerify bytes claimed)

/-- `STUFF` and `DESTUFF` are mutually inverse between the lists of field bytes and the raw lists without `DELIM` that `DESTUFF`
accepts (R149): a raw list is accepted as `bs` exactly when it is `STUFF(bs)`. -/
def Obligations.StuffAndDestuffAreInverse : Prop :=
  ∀ (p : Params) (bs raw : List Byte), p.Valid →
    destuff p (stuff p bs) = .ok bs ∧ (∀ b : Byte, destuff p (stuffByte p b) = .ok [b]) ∧
    (DestuffsTo p raw bs ↔ raw = stuff p bs)

/-- Stuffed output holds no `DELIM`, `FC1` or `FC2`, and every `ESC` in it is followed by the image of a reserved byte (R143). -/
def Obligations.StuffedOutputHasNoBareReservedByte : Prop :=
  ∀ (p : Params) (bs : List Byte), p.Valid →
    p.delim ∉ stuff p bs ∧ p.fc1 ∉ stuff p bs ∧ p.fc2 ∉ stuff p bs ∧
    ∀ k, (stuff p bs)[k]? = some p.esc → ∃ r ∈ p.reserved, (stuff p bs)[k + 1]? = some (p.xf r)

/-- An encoded frame is two delimiters around stuffed bytes without one, and `n + 6 + k` bytes long, 6 to 520 (R157, and the
length law of R158). -/
def Obligations.EncodedFrameHasTwoDelimiters : Prop :=
  ∀ (p : Params) (addr cmd : Byte) (payload : List Byte), p.Valid → payload.length ≤ 255 →
    ∃ mid : List Byte,
      frameEncode p addr cmd payload = some (p.delim :: mid ++ [p.delim]) ∧
      p.delim ∉ mid ∧ p.fc1 ∉ mid ∧ p.fc2 ∉ mid ∧
      (∀ k, mid[k]? = some p.esc → ∃ r ∈ p.reserved, mid[k + 1]? = some (p.xf r)) ∧
      mid.length + 2 = payload.length + 6 + (fieldBytes addr cmd payload).countP (fun b => p.isReserved b) ∧
      6 ≤ mid.length + 2 ∧ mid.length + 2 ≤ 520

/-! ### Steps -/

/-- A step runs the instruction its next input event decodes to: a `START` or `CANCEL` is that row's `exec`; a chunk is the `exec`
of its first byte's row and then, while a response is still awaited, the rest of the chunk; and what an accepted `START`
does after its latches is the `exec` of the request row. Around `exec` the step only takes the event off the input stream. -/
def Obligations.StepRunsTheDecodedInstruction : Prop :=
  ∀ (s : State) (rest : List Input),
    let s₀ := { s with inputs := rest }
    (∀ sel a, s.inputs = .start sel a :: rest → step s = exec (decodeStart sel a) s₀) ∧
    (s.inputs = .cancel :: rest → step s = exec .hostCancel s₀) ∧
    (∀ b bs, s.inputs = .rxChunk (b :: bs) :: rest → s.estate = .awaitingResponse →
      step s =
        match exec (decodeRaw s.par s.dec.dstate s.dec.esc b) s₀ with
        | .next t => if t.estate = .awaitingResponse then step { t with inputs := .rxChunk bs :: t.inputs } else .next t
        | .fault f => .fault f
        | .refused r => .refused r) ∧
    (∀ op a, s.inputs = .start (opSel op) a :: rest → s.estate = .idle → argsValid op a = true →
      step s = exec (requestInstr op a.fmt a.arg) (s₀.latch op a)) ∧
    (s.inputs = [] → step s = .refused .noInput)

/-- A chunk that is one whole response frame of the latched request runs that response row: the step is the row's `exec` on the
state whose field registers and buffer hold the frame, and it ends the exchange with the frame's payload. That the row's `exec` is
`VALIDATE` is the model's reading (log entry 11). -/
def Obligations.FrameChunkRunsItsResponseRow : Prop :=
  ∀ (s : State) (payload : List Byte) (rest : List Input), s.par.Valid → s.estate = .awaitingResponse →
    s.dec.dstate = .awaitingStart → rspLenOk s.par s.reqOp s.reqFmt payload.length = true → payload.length ≤ s.par.cap →
    s.inputs = .rxChunk (frameBytes s.par s.par.addr0 (cmdOf s.par s.reqOp) payload) :: rest →
    ∃ d : Decoder, d.cleared ∧ d.rxAddr = s.par.addr0 ∧ d.rxCmd = cmdOf s.par s.reqOp ∧
      d.rxLen = BitVec.ofNat 8 payload.length ∧ Memory.readN d.buf 0 payload.length = some payload ∧
      (∀ k, payload.length ≤ k → d.buf.read k = s.dec.buf.read k) ∧
      step s = exec (responseInstr s.reqOp s.reqFmt payload) { s with inputs := rest, dec := d } ∧
      step s =
        .next { s with
          inputs := rest
          dec := d
          estate := .idle
          outputs := s.outputs ++ [.result (.ok s.reqOp (BitVec.ofNat 8 payload.length) payload)] }

/-- Echo: for the five commands with empty request and response, and for `WRITE_INTERVAL`, the block's own request frame received
as a chunk is accepted as the response (R364). -/
def Obligations.EchoOfTheRequestIsAccepted : Prop :=
  ∀ (s : State) (rest : List Input), s.par.Valid → s.estate = .awaitingResponse → s.dec.dstate = .awaitingStart →
    s.reqOp ∈ [Op.stopMeas, .sleep, .wakeUp, .fanClean, .reset, .writeInterval] →
    s.inputs = .rxChunk s.requestFrame :: rest →
    ∃ t, step s = .next t ∧ t.estate = .idle ∧
      t.outputs = s.outputs ++
        [.result (.ok s.reqOp (BitVec.ofNat 8 (reqPayload s.par s.reqOp s.reqFmt s.reqArg).length)
          (reqPayload s.par s.reqOp s.reqFmt s.reqArg))]

/-- `TxDone` in `Sending` loads the deadline and arms a read; nothing else changes (R244). -/
def Obligations.TxDoneArmsTheDeadline : Prop :=
  ∀ (s : State) (rest : List Input), s.inputs = .txDone :: rest → s.estate = .sending →
    step s = .next { s with inputs := rest, deadline := s.cfgTimeout, estate := .awaitingResponse }

/-- A transport failure ends the exchange at once, whatever `attempt` is, with no `Trace` (R245, R255, R319). -/
def Obligations.TransportErrorEndsTheExchange : Prop :=
  ∀ (s : State) (e : TransportErr) (rest : List Input),
    (s.inputs = .txError e :: rest → s.estate = .sending →
      step s = .next ({ s with inputs := rest }.ended (.err (.transportError e)))) ∧
    (s.inputs = .rxError e :: rest → s.estate = .awaitingResponse →
      step s = .next ({ s with inputs := rest }.ended (.err (.transportError e))))

/-- `Tick`: the last one fails the attempt with `TimeoutError`, an earlier one counts the deadline down, and outside
`AwaitingResponse` it has no effect (R250, R251). -/
def Obligations.TickCountsTheDeadlineDown : Prop :=
  ∀ (s : State) (rest : List Input), s.inputs = .tick :: rest →
    (s.estate = .awaitingResponse → s.deadline = 1#32 → step s = .next ({ s with inputs := rest }.failed .timeout)) ∧
    (s.estate = .awaitingResponse → s.deadline ≠ 1#32 →
      step s = .next { s with inputs := rest, deadline := s.deadline - 1#32 }) ∧
    (s.estate ≠ .awaitingResponse → step s = .next { s with inputs := rest })

/-- A chunk is fed to the decoder until its first output: with no output only the decoder changes (an empty chunk changes
nothing), and after an output the rest of the chunk is dropped (R246, R247). -/
def Obligations.ChunkIsFedToTheFirstOutput : Prop :=
  ∀ (s : State) (bytes : List Byte) (d : Decoder) (rest : List Input), s.par.Valid → s.estate = .awaitingResponse →
    decRun s.par s.dec bytes = .ok ([], d) →
    (s.inputs = .rxChunk bytes :: rest → step s = .next { s with inputs := rest, dec := d }) ∧
    ∀ (b : Byte) (d' : Decoder) (out : DecOut) (dropped : List Byte), decStep s.par d b = .ok (d', out) → out ≠ .none →
      s.inputs = .rxChunk (bytes ++ b :: dropped) :: rest →
      step s = .next ({ s with inputs := rest, dec := d' }.react out)

/-- Transport completions with no matching operation outstanding have no step (R45). -/
def Obligations.StrayTransportEventsHaveNoStep : Prop :=
  ∀ (s : State) (rest : List Input) (e : TransportErr) (bytes : List Byte),
    (s.estate ≠ .sending →
      (s.inputs = .txDone :: rest → step s = .refused .writeNotOutstanding) ∧
      (s.inputs = .txError e :: rest → step s = .refused .writeNotOutstanding)) ∧
    (s.estate ≠ .awaitingResponse →
      (s.inputs = .rxChunk bytes :: rest → step s = .refused .readNotArmed) ∧
      (s.inputs = .rxError e :: rest → step s = .refused .readNotArmed))

/-- After reset the registers to which the spec gives a reset value hold it (R50, R350). -/
def Obligations.ResetStateHoldsTheSpecValues : Prop :=
  State.reset.estate = .idle ∧ State.reset.dec.dstate = .awaitingStart ∧ State.reset.dec.esc = false ∧
  State.reset.dec.remaining = 0#8 ∧ State.reset.attempt = 0#8 ∧ State.reset.lastCause = none ∧
  State.reset.outputs = []

/-- A reset applied in any state emits nothing and equals a cancel followed by clearing `attempt` and `last_cause` (R351). -/
def Obligations.ResetInputEqualsCancelAndClear : Prop :=
  ∀ (s : State) (rest : List Input), s.inputs = .reset :: rest →
    step s =
      .next { s with
        inputs := rest
        dec := { s.dec with dstate := .awaitingStart, esc := false, remaining := 0#8 }
        estate := .idle
        attempt := 0#8
        lastCause := none }

/-! ### Whole-machine rules -/

/-- The invariant of Sys2Proof/Safety.lean holds after reset. -/
def Obligations.ResetMeetsTheInvariant : Prop := State.reset.Inv

/-- Every step keeps the invariant: resting states, the register bounds, the buffer's form and contents, the cleared decoder
outside `AwaitingResponse` (R22, R25, R26, R65, R179, R187, R258). -/
def Obligations.StepKeepsTheInvariant : Prop :=
  ∀ s t : State, s.Inv → step s = .next t → t.Inv

/-- In a state that meets the invariant no step faults: no buffer index out of range arises and no byte is read before it was
written (R24, R65, R187). -/
def Obligations.NoStepFaultsUnderTheInvariant : Prop :=
  ∀ (s : State) (f : Fault), s.Inv → step s ≠ .fault f

/-- What no step does: change a parameter, alter the history of events already emitted, or touch the input stream beyond taking
its first event. -/
def Obligations.StepExtendsTheHistoryAndKeepsTheParameters : Prop :=
  ∀ s t : State, step s = .next t →
    t.par = s.par ∧ s.inputs.tail = t.inputs ∧ s.inputs ≠ [] ∧ ∃ outs, emitted s t outs ∧ outs.length ≤ 2

/-- The request and configuration latches are written by an accepted `START` only, so nothing the host does during an exchange
changes the frames of its attempts (R73). (A reset is left aside: R50 leaves the latches open after one.) -/
def Obligations.OnlyStartWritesTheLatches : Prop :=
  ∀ s t : State, step s = .next t → s.inputs.head? ≠ some .reset →
    s.estate ≠ .idle ∨ (∀ sel a, s.inputs.head? ≠ some (.start sel a)) →
    t.reqOp = s.reqOp ∧ t.reqFmt = s.reqFmt ∧ t.reqArg = s.reqArg ∧ t.cfgMaxAttempts = s.cfgMaxAttempts ∧
    t.cfgTimeout = s.cfgTimeout ∧ t.requestFrame = s.requestFrame

/-- The transition table of the engine for received data (R257): a chunk that is consumed leaves one of five outcomes, with
exactly these events, and "retries left" decides between the last two. -/
def Obligations.ChunkOutcomesOfTheEngine : Prop :=
  ∀ (s t : State) (bytes : List Byte) (rest : List Input), s.inputs = .rxChunk bytes :: rest → step s = .next t →
    s.estate = .awaitingResponse ∧
    ((t.estate = .awaitingResponse ∧ emitted s t [] ∧ t.deadline = s.deadline ∧ t.attempt = s.attempt) ∨
      (t.estate = .idle ∧ t.attempt = s.attempt ∧ ∃ n q, emitted s t [.result (.ok s.reqOp n q)]) ∨
      (t.estate = .idle ∧ t.attempt = s.attempt ∧ ∃ n : Byte, s.par.cap < n.toNat ∧
        emitted s t [.result (.err (.bufferOverflow n))]) ∨
      (t.estate = .sending ∧ s.attempt.toNat + 1 < s.cfgMaxAttempts.toNat ∧ t.attempt = s.attempt + 1#8 ∧
        ∃ cause, cause ≠ .timeout ∧ t.lastCause = some cause ∧
          emitted s t [.trace s.attempt cause, .txWrite s.requestFrame]) ∨
      (t.estate = .idle ∧ s.cfgMaxAttempts.toNat ≤ s.attempt.toNat + 1 ∧ t.attempt = s.attempt + 1#8 ∧
        ∃ cause, cause ≠ .timeout ∧ t.lastCause = some cause ∧
          emitted s t [.trace s.attempt cause, .result (.err (.exhaustedRetries cause))]))

/-- An exchange in flight ends in `Idle` exactly with one `Result`, the last event of its step, unless it is cancelled or the
block is reset; until then no `Result` is emitted (R44, R46, R261). -/
def Obligations.ExchangeEndsWithOneResult : Prop :=
  ∀ (s t : State) (outs : List Output), s.Inv → s.estate ≠ .idle → step s = .next t → emitted s t outs →
    (s.inputs.head? = some .cancel ∨ s.inputs.head? = some .reset → t.estate = .idle ∧ outs = []) ∧
    (s.inputs.head? ≠ some .cancel → s.inputs.head? ≠ some .reset →
      (t.estate = .idle → ∃ pre r, outs = pre ++ [.result r] ∧ ∀ r', Output.result r' ∉ pre) ∧
      (t.estate ≠ .idle → ∀ r, Output.result r ∉ outs))

/-- Every frame the block hands to the transport is the frame of the request it has latched, and is handed over on entering
`Sending`; while an exchange is in flight it is the exchange's own frame (R243, R261, R381). -/
def Obligations.EveryWriteIsTheLatchedRequest : Prop :=
  ∀ (s t : State) (outs : List Output) (bytes : List Byte), step s = .next t → emitted s t outs →
    Output.txWrite bytes ∈ outs →
    s.estate ≠ .sending ∧ t.estate = .sending ∧ bytes = t.requestFrame ∧ (s.estate ≠ .idle → bytes = s.requestFrame)

/-- An `Ok` result is never truncated or padded (R216): it names the latched command, its length is the received length field and
one the command allows, its payload is all of `buf[0 .. rx_len]`, exactly that many bytes, and the address and command received
are those of the latched request. -/
def Obligations.OkResultsFitTheRequest : Prop :=
  ∀ (s t : State) (outs : List Output) (op : Op) (n : Byte) (payload : List Byte), step s = .next t → emitted s t outs →
    Output.result (.ok op n payload) ∈ outs →
    op = s.reqOp ∧ n = t.dec.rxLen ∧ Memory.readN t.dec.buf 0 n.toNat = some payload ∧ payload.length = n.toNat ∧
    t.dec.rxAddr = s.par.addr0 ∧ t.dec.rxCmd = cmdOf s.par s.reqOp ∧
    rspLenOk s.par s.reqOp s.reqFmt payload.length = true

/-- The retry bound for a transport that never responds: from `Sending` with the first frame of an exchange with `N` attempts and a
timeout of `T` ticks just sent, `N` rounds of `TxDone` and `T` ticks give `N` traces numbered 0 to `N - 1`, `N - 1` re-sends of
the same frame, and then one `ExhaustedRetries(TimeoutError)` (R259). -/
def Obligations.SilentTransportExhaustsTheRetries : Prop :=
  ∀ (s : State) (n t : Nat) (rest : List Input), s.estate = .sending → s.attempt = 0#8 → s.cfgMaxAttempts.toNat = n + 1 →
    s.cfgTimeout.toNat = t + 1 →
    s.inputs = (List.replicate (n + 1) (Input.txDone :: List.replicate (t + 1) .tick)).flatten ++ rest →
    ∃ u : State, Host.Core.run Sys2Proof.core ((n + 1) * (t + 2)) s = .next u ∧ u.inputs = rest ∧ u.estate = .idle ∧
      u.attempt = s.cfgMaxAttempts ∧ u.lastCause = some .timeout ∧
      u.outputs = s.outputs ++
        (List.range n).flatMap (fun k => [.trace (BitVec.ofNat 8 k) .timeout, .txWrite s.requestFrame]) ++
        [.trace (BitVec.ofNat 8 n) .timeout, .result (.err (.exhaustedRetries .timeout))]

/-- What earlier frames left in a cleared decoder cannot be observed: two states that differ in the field registers and the buffer
of a cleared decoder only have the same run, event for event, for any inputs and any number of steps (R187). -/
def Obligations.StaleReceiveContentsAreUnobservable : Prop :=
  ∀ (s t : State) (d : Decoder) (k : Nat), s.par.Valid → s.dec.cleared → d.cleared →
    Host.Core.run Sys2Proof.core k s = .next t →
    ∃ d' : Decoder, Host.Core.run Sys2Proof.core k { s with dec := d } = .next { t with dec := d' } ∧
      d'.dstate = t.dec.dstate ∧ d'.esc = t.dec.esc ∧ d'.remaining = t.dec.remaining

/-! ### The payload decoders -/

/-- `MEAS.DECODE_FLOAT` on its 40 bytes gives ten words, word `k` the big-endian bytes `4k` to `4k+3`, bit for bit (R281). -/
def Obligations.FloatMeasurementIsTenBigEndianWords : Prop :=
  ∀ p : List Byte, p.length = 40 →
    ∃ w : List Word32, measDecodeFloat p = some w ∧ w.length = 10 ∧
      ∀ k, k < 10 →
        ∃ b0 b1 b2 b3 : Byte, p[4 * k]? = some b0 ∧ p[4 * k + 1]? = some b1 ∧ p[4 * k + 2]? = some b2 ∧
          p[4 * k + 3]? = some b3 ∧
          (w[k]?).map BitVec.toNat = some (b0.toNat * 2 ^ 24 + b1.toNat * 2 ^ 16 + b2.toNat * 2 ^ 8 + b3.toNat)

/-- `MEAS.DECODE_FIXED` on its 20 bytes gives ten unsigned values, value `k` the big-endian bytes `2k` and `2k+1` (R282). -/
def Obligations.FixedMeasurementIsTenBigEndianValues : Prop :=
  ∀ p : List Byte, p.length = 20 →
    ∃ u : List (BitVec 16), measDecodeFixed p = some u ∧ u.length = 10 ∧
      ∀ k, k < 10 →
        ∃ b0 b1 : Byte, p[2 * k]? = some b0 ∧ p[2 * k + 1]? = some b1 ∧
          (u[k]?).map BitVec.toNat = some (b0.toNat * 2 ^ 8 + b1.toNat)

/-- `STATUS.DECODE` takes the word from the first four bytes and the three conditions from the bits the parameters name; reserved
bytes and other bits do not matter; `DeviceFault` is their disjunction (R283, R284). -/
def Obligations.StatusBitsAreDecoded : Prop :=
  ∀ (par : Params) (b0 b1 b2 b3 : Byte) (reserved : List Byte), reserved.length = par.statusRsvdLen →
    ∃ d : DeviceStatus, statusDecode par (b0 :: b1 :: b2 :: b3 :: reserved) = some d ∧
      d.word.toNat = b0.toNat * 2 ^ 24 + b1.toNat * 2 ^ 16 + b2.toNat * 2 ^ 8 + b3.toNat ∧
      d.speed = d.word.toNat.testBit par.speedBit ∧ d.laser = d.word.toNat.testBit par.laserBit ∧
      d.fan = d.word.toNat.testBit par.fanBit ∧
      (d.deviceFault = true ↔ d.speed = true ∨ d.laser = true ∨ d.fan = true)

/-- The interval decoder reads four bytes big-endian and undoes the byte order of the `WRITE_INTERVAL` request (R285, R106). -/
def Obligations.IntervalByteOrderMirrorsTheRequest : Prop :=
  (∀ b0 b1 b2 b3 : Byte, ∃ v : Word32, intervalDecode [b0, b1, b2, b3] = some v ∧
    v.toNat = b0.toNat * 2 ^ 24 + b1.toNat * 2 ^ 16 + b2.toNat * 2 ^ 8 + b3.toNat) ∧
  ∀ (p : Params) (fmt : Fmt) (v : Word32), intervalDecode (reqPayload p .writeInterval fmt v) = some v
end

