-- ==== Sys2Proof/Laws/State.lean ====
section
/-! SUPPORT. One lemma per field per named update of the state and of the decoder group, each true by `rfl`. -/

namespace Sys2Proof.Machine

@[simp] theorem State.emit_par (o : Output) (s : State) : (s.emit o).par = s.par := rfl
@[simp] theorem State.emit_dec (o : Output) (s : State) : (s.emit o).dec = s.dec := rfl
@[simp] theorem State.emit_estate (o : Output) (s : State) : (s.emit o).estate = s.estate := rfl
@[simp] theorem State.emit_attempt (o : Output) (s : State) : (s.emit o).attempt = s.attempt := rfl
@[simp] theorem State.emit_deadline (o : Output) (s : State) : (s.emit o).deadline = s.deadline := rfl
@[simp] theorem State.emit_lastCause (o : Output) (s : State) : (s.emit o).lastCause = s.lastCause := rfl
@[simp] theorem State.emit_reqOp (o : Output) (s : State) : (s.emit o).reqOp = s.reqOp := rfl
@[simp] theorem State.emit_reqFmt (o : Output) (s : State) : (s.emit o).reqFmt = s.reqFmt := rfl
@[simp] theorem State.emit_reqArg (o : Output) (s : State) : (s.emit o).reqArg = s.reqArg := rfl
@[simp] theorem State.emit_cfgMaxAttempts (o : Output) (s : State) : (s.emit o).cfgMaxAttempts = s.cfgMaxAttempts := rfl
@[simp] theorem State.emit_cfgTimeout (o : Output) (s : State) : (s.emit o).cfgTimeout = s.cfgTimeout := rfl
@[simp] theorem State.emit_inputs (o : Output) (s : State) : (s.emit o).inputs = s.inputs := rfl
@[simp] theorem State.emit_outputs (o : Output) (s : State) : (s.emit o).outputs = s.outputs ++ [o] := rfl

@[simp] theorem State.decClear_par (s : State) : (s.decClear).par = s.par := rfl
@[simp] theorem State.decClear_dec (s : State) : (s.decClear).dec = s.dec.clear := rfl
@[simp] theorem State.decClear_estate (s : State) : (s.decClear).estate = s.estate := rfl
@[simp] theorem State.decClear_attempt (s : State) : (s.decClear).attempt = s.attempt := rfl
@[simp] theorem State.decClear_deadline (s : State) : (s.decClear).deadline = s.deadline := rfl
@[simp] theorem State.decClear_lastCause (s : State) : (s.decClear).lastCause = s.lastCause := rfl
@[simp] theorem State.decClear_reqOp (s : State) : (s.decClear).reqOp = s.reqOp := rfl
@[simp] theorem State.decClear_reqFmt (s : State) : (s.decClear).reqFmt = s.reqFmt := rfl
@[simp] theorem State.decClear_reqArg (s : State) : (s.decClear).reqArg = s.reqArg := rfl
@[simp] theorem State.decClear_cfgMaxAttempts (s : State) : (s.decClear).cfgMaxAttempts = s.cfgMaxAttempts := rfl
@[simp] theorem State.decClear_cfgTimeout (s : State) : (s.decClear).cfgTimeout = s.cfgTimeout := rfl
@[simp] theorem State.decClear_inputs (s : State) : (s.decClear).inputs = s.inputs := rfl
@[simp] theorem State.decClear_outputs (s : State) : (s.decClear).outputs = s.outputs := rfl

@[simp] theorem State.send_par (s : State) : (s.send).par = s.par := rfl
@[simp] theorem State.send_dec (s : State) : (s.send).dec = s.dec := rfl
@[simp] theorem State.send_estate (s : State) : (s.send).estate = .sending := rfl
@[simp] theorem State.send_attempt (s : State) : (s.send).attempt = s.attempt := rfl
@[simp] theorem State.send_deadline (s : State) : (s.send).deadline = s.deadline := rfl
@[simp] theorem State.send_lastCause (s : State) : (s.send).lastCause = s.lastCause := rfl
@[simp] theorem State.send_reqOp (s : State) : (s.send).reqOp = s.reqOp := rfl
@[simp] theorem State.send_reqFmt (s : State) : (s.send).reqFmt = s.reqFmt := rfl
@[simp] theorem State.send_reqArg (s : State) : (s.send).reqArg = s.reqArg := rfl
@[simp] theorem State.send_cfgMaxAttempts (s : State) : (s.send).cfgMaxAttempts = s.cfgMaxAttempts := rfl
@[simp] theorem State.send_cfgTimeout (s : State) : (s.send).cfgTimeout = s.cfgTimeout := rfl
@[simp] theorem State.send_inputs (s : State) : (s.send).inputs = s.inputs := rfl
@[simp] theorem State.send_outputs (s : State) : (s.send).outputs = s.outputs ++ [.txWrite s.requestFrame] := rfl

@[simp] theorem State.finish_par (r : Result) (s : State) : (s.finish r).par = s.par := rfl
@[simp] theorem State.finish_dec (r : Result) (s : State) : (s.finish r).dec = s.dec.clear := rfl
@[simp] theorem State.finish_estate (r : Result) (s : State) : (s.finish r).estate = .idle := rfl
@[simp] theorem State.finish_attempt (r : Result) (s : State) : (s.finish r).attempt = s.attempt := rfl
@[simp] theorem State.finish_deadline (r : Result) (s : State) : (s.finish r).deadline = s.deadline := rfl
@[simp] theorem State.finish_lastCause (r : Result) (s : State) : (s.finish r).lastCause = s.lastCause := rfl
@[simp] theorem State.finish_reqOp (r : Result) (s : State) : (s.finish r).reqOp = s.reqOp := rfl
@[simp] theorem State.finish_reqFmt (r : Result) (s : State) : (s.finish r).reqFmt = s.reqFmt := rfl
@[simp] theorem State.finish_reqArg (r : Result) (s : State) : (s.finish r).reqArg = s.reqArg := rfl
@[simp] theorem State.finish_cfgMaxAttempts (r : Result) (s : State) : (s.finish r).cfgMaxAttempts = s.cfgMaxAttempts := rfl
@[simp] theorem State.finish_cfgTimeout (r : Result) (s : State) : (s.finish r).cfgTimeout = s.cfgTimeout := rfl
@[simp] theorem State.finish_inputs (r : Result) (s : State) : (s.finish r).inputs = s.inputs := rfl
@[simp] theorem State.finish_outputs (r : Result) (s : State) : (s.finish r).outputs = s.outputs ++ [.result r] := rfl

@[simp] theorem State.retried_par (c : ErrorRecord) (s : State) : (s.retried c).par = s.par := rfl
@[simp] theorem State.retried_dec (c : ErrorRecord) (s : State) : (s.retried c).dec = s.dec.clear := rfl
@[simp] theorem State.retried_estate (c : ErrorRecord) (s : State) : (s.retried c).estate = .sending := rfl
@[simp] theorem State.retried_attempt (c : ErrorRecord) (s : State) : (s.retried c).attempt = s.attempt + 1#8 := rfl
@[simp] theorem State.retried_deadline (c : ErrorRecord) (s : State) : (s.retried c).deadline = s.deadline := rfl
@[simp] theorem State.retried_lastCause (c : ErrorRecord) (s : State) : (s.retried c).lastCause = some c := rfl
@[simp] theorem State.retried_reqOp (c : ErrorRecord) (s : State) : (s.retried c).reqOp = s.reqOp := rfl
@[simp] theorem State.retried_reqFmt (c : ErrorRecord) (s : State) : (s.retried c).reqFmt = s.reqFmt := rfl
@[simp] theorem State.retried_reqArg (c : ErrorRecord) (s : State) : (s.retried c).reqArg = s.reqArg := rfl
@[simp] theorem State.retried_cfgMaxAttempts (c : ErrorRecord) (s : State) : (s.retried c).cfgMaxAttempts = s.cfgMaxAttempts := rfl
@[simp] theorem State.retried_cfgTimeout (c : ErrorRecord) (s : State) : (s.retried c).cfgTimeout = s.cfgTimeout := rfl
@[simp] theorem State.retried_inputs (c : ErrorRecord) (s : State) : (s.retried c).inputs = s.inputs := rfl
@[simp] theorem State.retried_outputs (c : ErrorRecord) (s : State) : (s.retried c).outputs = s.outputs ++ [.trace s.attempt c, .txWrite s.requestFrame] := rfl

@[simp] theorem State.exhausted_par (c : ErrorRecord) (s : State) : (s.exhausted c).par = s.par := rfl
@[simp] theorem State.exhausted_dec (c : ErrorRecord) (s : State) : (s.exhausted c).dec = s.dec.clear := rfl
@[simp] theorem State.exhausted_estate (c : ErrorRecord) (s : State) : (s.exhausted c).estate = .idle := rfl
@[simp] theorem State.exhausted_attempt (c : ErrorRecord) (s : State) : (s.exhausted c).attempt = s.attempt + 1#8 := rfl
@[simp] theorem State.exhausted_deadline (c : ErrorRecord) (s : State) : (s.exhausted c).deadline = s.deadline := rfl
@[simp] theorem State.exhausted_lastCause (c : ErrorRecord) (s : State) : (s.exhausted c).lastCause = some c := rfl
@[simp] theorem State.exhausted_reqOp (c : ErrorRecord) (s : State) : (s.exhausted c).reqOp = s.reqOp := rfl
@[simp] theorem State.exhausted_reqFmt (c : ErrorRecord) (s : State) : (s.exhausted c).reqFmt = s.reqFmt := rfl
@[simp] theorem State.exhausted_reqArg (c : ErrorRecord) (s : State) : (s.exhausted c).reqArg = s.reqArg := rfl
@[simp] theorem State.exhausted_cfgMaxAttempts (c : ErrorRecord) (s : State) : (s.exhausted c).cfgMaxAttempts = s.cfgMaxAttempts := rfl
@[simp] theorem State.exhausted_cfgTimeout (c : ErrorRecord) (s : State) : (s.exhausted c).cfgTimeout = s.cfgTimeout := rfl
@[simp] theorem State.exhausted_inputs (c : ErrorRecord) (s : State) : (s.exhausted c).inputs = s.inputs := rfl
@[simp] theorem State.exhausted_outputs (c : ErrorRecord) (s : State) : (s.exhausted c).outputs = s.outputs ++ [.trace s.attempt c, .result (.err (.exhaustedRetries c))] := rfl

@[simp] theorem State.ended_par (r : Result) (s : State) : (s.ended r).par = s.par := rfl
@[simp] theorem State.ended_dec (r : Result) (s : State) : (s.ended r).dec = s.dec.clear := rfl
@[simp] theorem State.ended_estate (r : Result) (s : State) : (s.ended r).estate = .idle := rfl
@[simp] theorem State.ended_attempt (r : Result) (s : State) : (s.ended r).attempt = s.attempt := rfl
@[simp] theorem State.ended_deadline (r : Result) (s : State) : (s.ended r).deadline = s.deadline := rfl
@[simp] theorem State.ended_lastCause (r : Result) (s : State) : (s.ended r).lastCause = s.lastCause := rfl
@[simp] theorem State.ended_reqOp (r : Result) (s : State) : (s.ended r).reqOp = s.reqOp := rfl
@[simp] theorem State.ended_reqFmt (r : Result) (s : State) : (s.ended r).reqFmt = s.reqFmt := rfl
@[simp] theorem State.ended_reqArg (r : Result) (s : State) : (s.ended r).reqArg = s.reqArg := rfl
@[simp] theorem State.ended_cfgMaxAttempts (r : Result) (s : State) : (s.ended r).cfgMaxAttempts = s.cfgMaxAttempts := rfl
@[simp] theorem State.ended_cfgTimeout (r : Result) (s : State) : (s.ended r).cfgTimeout = s.cfgTimeout := rfl
@[simp] theorem State.ended_inputs (r : Result) (s : State) : (s.ended r).inputs = s.inputs := rfl
@[simp] theorem State.ended_outputs (r : Result) (s : State) : (s.ended r).outputs = s.outputs ++ [.result r] := rfl

@[simp] theorem State.refuseStart_par (s : State) : (s.refuseStart).par = s.par := rfl
@[simp] theorem State.refuseStart_dec (s : State) : (s.refuseStart).dec = s.dec := rfl
@[simp] theorem State.refuseStart_estate (s : State) : (s.refuseStart).estate = s.estate := rfl
@[simp] theorem State.refuseStart_attempt (s : State) : (s.refuseStart).attempt = s.attempt := rfl
@[simp] theorem State.refuseStart_deadline (s : State) : (s.refuseStart).deadline = s.deadline := rfl
@[simp] theorem State.refuseStart_lastCause (s : State) : (s.refuseStart).lastCause = s.lastCause := rfl
@[simp] theorem State.refuseStart_reqOp (s : State) : (s.refuseStart).reqOp = s.reqOp := rfl
@[simp] theorem State.refuseStart_reqFmt (s : State) : (s.refuseStart).reqFmt = s.reqFmt := rfl
@[simp] theorem State.refuseStart_reqArg (s : State) : (s.refuseStart).reqArg = s.reqArg := rfl
@[simp] theorem State.refuseStart_cfgMaxAttempts (s : State) : (s.refuseStart).cfgMaxAttempts = s.cfgMaxAttempts := rfl
@[simp] theorem State.refuseStart_cfgTimeout (s : State) : (s.refuseStart).cfgTimeout = s.cfgTimeout := rfl
@[simp] theorem State.refuseStart_inputs (s : State) : (s.refuseStart).inputs = s.inputs := rfl
@[simp] theorem State.refuseStart_outputs (s : State) : (s.refuseStart).outputs = s.outputs ++ [.result (.err .invalidRequest)] := rfl

@[simp] theorem State.latch_par (op : Op) (a : StartArgs) (s : State) : (s.latch op a).par = s.par := rfl
@[simp] theorem State.latch_dec (op : Op) (a : StartArgs) (s : State) : (s.latch op a).dec = s.dec.clear := rfl
@[simp] theorem State.latch_estate (op : Op) (a : StartArgs) (s : State) : (s.latch op a).estate = s.estate := rfl
@[simp] theorem State.latch_attempt (op : Op) (a : StartArgs) (s : State) : (s.latch op a).attempt = 0#8 := rfl
@[simp] theorem State.latch_deadline (op : Op) (a : StartArgs) (s : State) : (s.latch op a).deadline = s.deadline := rfl
@[simp] theorem State.latch_lastCause (op : Op) (a : StartArgs) (s : State) : (s.latch op a).lastCause = none := rfl
@[simp] theorem State.latch_reqOp (op : Op) (a : StartArgs) (s : State) : (s.latch op a).reqOp = op := rfl
@[simp] theorem State.latch_reqFmt (op : Op) (a : StartArgs) (s : State) : (s.latch op a).reqFmt = a.fmt := rfl
@[simp] theorem State.latch_reqArg (op : Op) (a : StartArgs) (s : State) : (s.latch op a).reqArg = a.arg := rfl
@[simp] theorem State.latch_cfgMaxAttempts (op : Op) (a : StartArgs) (s : State) : (s.latch op a).cfgMaxAttempts = a.maxAttempts := rfl
@[simp] theorem State.latch_cfgTimeout (op : Op) (a : StartArgs) (s : State) : (s.latch op a).cfgTimeout = a.timeout := rfl
@[simp] theorem State.latch_inputs (op : Op) (a : StartArgs) (s : State) : (s.latch op a).inputs = s.inputs := rfl
@[simp] theorem State.latch_outputs (op : Op) (a : StartArgs) (s : State) : (s.latch op a).outputs = s.outputs := rfl

@[simp] theorem Decoder.clear_dstate (d : Decoder) : (d.clear).dstate = .awaitingStart := rfl
@[simp] theorem Decoder.clear_esc (d : Decoder) : (d.clear).esc = false := rfl
@[simp] theorem Decoder.clear_remaining (d : Decoder) : (d.clear).remaining = 0#8 := rfl
@[simp] theorem Decoder.clear_rxAddr (d : Decoder) : (d.clear).rxAddr = d.rxAddr := rfl
@[simp] theorem Decoder.clear_rxCmd (d : Decoder) : (d.clear).rxCmd = d.rxCmd := rfl
@[simp] theorem Decoder.clear_rxLen (d : Decoder) : (d.clear).rxLen = d.rxLen := rfl
@[simp] theorem Decoder.clear_rxChk (d : Decoder) : (d.clear).rxChk = d.rxChk := rfl
@[simp] theorem Decoder.clear_buf (d : Decoder) : (d.clear).buf = d.buf := rfl

@[simp] theorem Decoder.openFrame_dstate (d : Decoder) : (d.openFrame).dstate = .readingAddress := rfl
@[simp] theorem Decoder.openFrame_esc (d : Decoder) : (d.openFrame).esc = false := rfl
@[simp] theorem Decoder.openFrame_remaining (d : Decoder) : (d.openFrame).remaining = d.remaining := rfl
@[simp] theorem Decoder.openFrame_rxAddr (d : Decoder) : (d.openFrame).rxAddr = d.rxAddr := rfl
@[simp] theorem Decoder.openFrame_rxCmd (d : Decoder) : (d.openFrame).rxCmd = d.rxCmd := rfl
@[simp] theorem Decoder.openFrame_rxLen (d : Decoder) : (d.openFrame).rxLen = d.rxLen := rfl
@[simp] theorem Decoder.openFrame_rxChk (d : Decoder) : (d.openFrame).rxChk = d.rxChk := rfl
@[simp] theorem Decoder.openFrame_buf (d : Decoder) : (d.openFrame).buf = d.buf := rfl

@[simp] theorem Decoder.setEsc_dstate (d : Decoder) : (d.setEsc).dstate = d.dstate := rfl
@[simp] theorem Decoder.setEsc_esc (d : Decoder) : (d.setEsc).esc = true := rfl
@[simp] theorem Decoder.setEsc_remaining (d : Decoder) : (d.setEsc).remaining = d.remaining := rfl
@[simp] theorem Decoder.setEsc_rxAddr (d : Decoder) : (d.setEsc).rxAddr = d.rxAddr := rfl
@[simp] theorem Decoder.setEsc_rxCmd (d : Decoder) : (d.setEsc).rxCmd = d.rxCmd := rfl
@[simp] theorem Decoder.setEsc_rxLen (d : Decoder) : (d.setEsc).rxLen = d.rxLen := rfl
@[simp] theorem Decoder.setEsc_rxChk (d : Decoder) : (d.setEsc).rxChk = d.rxChk := rfl
@[simp] theorem Decoder.setEsc_buf (d : Decoder) : (d.setEsc).buf = d.buf := rfl

@[simp] theorem Decoder.storeAddr_dstate (v : Byte) (d : Decoder) : (d.storeAddr v).dstate = .readingCommand := rfl
@[simp] theorem Decoder.storeAddr_esc (v : Byte) (d : Decoder) : (d.storeAddr v).esc = false := rfl
@[simp] theorem Decoder.storeAddr_remaining (v : Byte) (d : Decoder) : (d.storeAddr v).remaining = d.remaining := rfl
@[simp] theorem Decoder.storeAddr_rxAddr (v : Byte) (d : Decoder) : (d.storeAddr v).rxAddr = v := rfl
@[simp] theorem Decoder.storeAddr_rxCmd (v : Byte) (d : Decoder) : (d.storeAddr v).rxCmd = d.rxCmd := rfl
@[simp] theorem Decoder.storeAddr_rxLen (v : Byte) (d : Decoder) : (d.storeAddr v).rxLen = d.rxLen := rfl
@[simp] theorem Decoder.storeAddr_rxChk (v : Byte) (d : Decoder) : (d.storeAddr v).rxChk = d.rxChk := rfl
@[simp] theorem Decoder.storeAddr_buf (v : Byte) (d : Decoder) : (d.storeAddr v).buf = d.buf := rfl

@[simp] theorem Decoder.storeCmd_dstate (v : Byte) (d : Decoder) : (d.storeCmd v).dstate = .readingLength := rfl
@[simp] theorem Decoder.storeCmd_esc (v : Byte) (d : Decoder) : (d.storeCmd v).esc = false := rfl
@[simp] theorem Decoder.storeCmd_remaining (v : Byte) (d : Decoder) : (d.storeCmd v).remaining = d.remaining := rfl
@[simp] theorem Decoder.storeCmd_rxAddr (v : Byte) (d : Decoder) : (d.storeCmd v).rxAddr = d.rxAddr := rfl
@[simp] theorem Decoder.storeCmd_rxCmd (v : Byte) (d : Decoder) : (d.storeCmd v).rxCmd = v := rfl
@[simp] theorem Decoder.storeCmd_rxLen (v : Byte) (d : Decoder) : (d.storeCmd v).rxLen = d.rxLen := rfl
@[simp] theorem Decoder.storeCmd_rxChk (v : Byte) (d : Decoder) : (d.storeCmd v).rxChk = d.rxChk := rfl
@[simp] theorem Decoder.storeCmd_buf (v : Byte) (d : Decoder) : (d.storeCmd v).buf = d.buf := rfl

@[simp] theorem Decoder.storeChk_dstate (v : Byte) (d : Decoder) : (d.storeChk v).dstate = .awaitingStop := rfl
@[simp] theorem Decoder.storeChk_esc (v : Byte) (d : Decoder) : (d.storeChk v).esc = false := rfl
@[simp] theorem Decoder.storeChk_remaining (v : Byte) (d : Decoder) : (d.storeChk v).remaining = d.remaining := rfl
@[simp] theorem Decoder.storeChk_rxAddr (v : Byte) (d : Decoder) : (d.storeChk v).rxAddr = d.rxAddr := rfl
@[simp] theorem Decoder.storeChk_rxCmd (v : Byte) (d : Decoder) : (d.storeChk v).rxCmd = d.rxCmd := rfl
@[simp] theorem Decoder.storeChk_rxLen (v : Byte) (d : Decoder) : (d.storeChk v).rxLen = d.rxLen := rfl
@[simp] theorem Decoder.storeChk_rxChk (v : Byte) (d : Decoder) : (d.storeChk v).rxChk = v := rfl
@[simp] theorem Decoder.storeChk_buf (v : Byte) (d : Decoder) : (d.storeChk v).buf = d.buf := rfl

theorem Decoder.clear_cleared (d : Decoder) : d.clear.cleared := ⟨rfl, rfl, rfl⟩

/-- A clear of a cleared decoder changes nothing. -/
theorem Decoder.clear_of_cleared {d : Decoder} (h : d.cleared) : d.clear = d := by
  obtain ⟨h1, h2, h3⟩ := h
  cases d
  simp_all [Decoder.clear]

end Sys2Proof.Machine
end

