-- ==== Sys2Proof/Laws/Memory.lean ====
section
/-! SUPPORT. The payload buffer: a read after a write, the canonical form and the bound are kept by every write, and what
`readN` answers. -/

namespace Sys2Proof.Machine

/-- A read after a write: the value written at its index, and every other byte as before. -/
@[simp] theorem Memory.read_write (m : Memory) (i : Nat) (v : Byte) (j : Nat) :
    (Memory.write m i v).read j = if j = i then some v else m.read j := by
  induction m with
  | nil => simp [Memory.write, Memory.read, eq_comm]
  | cons c m ih =>
    obtain ⟨k, w⟩ := c
    simp only [Memory.write]
    split
    · simp [Memory.read, eq_comm]
    · split
      · subst k
        simp only [Memory.read]
        by_cases h : i = j
        · simp [h]
        · simp [h, Ne.symm h]
      · rename_i h1 h2
        simp only [Memory.read, ih]
        by_cases h : k = j
        · subst h
          simp [Ne.symm h2]
        · simp [h]

/-- The entries after a write are old entries or the new one. -/
theorem Memory.mem_write {m : Memory} {i : Nat} {v : Byte} {c : Host.Cell} (h : c ∈ Memory.write m i v) :
    c = (i, v) ∨ c ∈ m := by
  induction m with
  | nil => simpa [Memory.write] using h
  | cons a m ih =>
    obtain ⟨k, w⟩ := a
    simp only [Memory.write] at h
    split at h
    · simpa using h
    · split at h
      · rcases List.mem_cons.mp h with h | h
        · exact .inl h
        · exact .inr (List.mem_cons_of_mem _ h)
      · rcases List.mem_cons.mp h with h | h
        · exact .inr (h ▸ List.mem_cons_self)
        · exact (ih h).imp_right (List.mem_cons_of_mem _)

/-- A write keeps the canonical form. -/
theorem Memory.write_wf {m : Memory} (hm : m.wf) (i : Nat) (v : Byte) : (Memory.write m i v).wf := by
  induction m with
  | nil => simp [Memory.wf, Memory.write]
  | cons a m ih =>
    obtain ⟨k, w⟩ := a
    obtain ⟨hk, hr⟩ := List.pairwise_cons.mp hm
    simp only [Memory.write]
    split
    · rename_i h
      refine List.pairwise_cons.mpr ⟨fun c hc => ?_, List.pairwise_cons.mpr ⟨hk, hr⟩⟩
      rcases List.mem_cons.mp hc with rfl | hc
      · exact h
      · exact lt_trans h (hk c hc)
    · split
      · subst k
        exact List.pairwise_cons.mpr ⟨hk, hr⟩
      · rename_i h1 h2
        refine List.pairwise_cons.mpr ⟨fun c hc => ?_, ih hr⟩
        rcases Memory.mem_write hc with rfl | hc
        · simp only; omega
        · exact hk c hc

/-- A write at an index below a bound keeps every index below it. -/
theorem Memory.write_bound {m : Memory} {n i : Nat} {v : Byte} (hm : ∀ c ∈ m, c.1 < n) (hi : i < n) :
    ∀ c ∈ Memory.write m i v, c.1 < n := by
  intro c hc
  rcases Memory.mem_write hc with rfl | hc
  · exact hi
  · exact hm c hc

/-- What `readN` answers: the bytes from `addr` on, when every one is there. -/
theorem Memory.readN_eq_some_iff (m : Memory) (addr n : Nat) (q : List Byte) :
    m.readN addr n = some q ↔ q.length = n ∧ ∀ k, k < n → m.read (addr + k) = q[k]? := by
  induction n generalizing addr q with
  | zero =>
    simp only [Memory.readN, Option.some.injEq]
    constructor
    · rintro rfl; simp
    · rintro ⟨h, -⟩; exact (List.length_eq_zero_iff.mp h).symm
  | succ n ih =>
    constructor
    · intro h
      simp only [Memory.readN] at h
      split at h
      · rename_i v vs hv hvs
        obtain ⟨hl, hr⟩ := (ih (addr + 1) vs).mp hvs
        cases h
        refine ⟨by simp [hl], fun k hk => ?_⟩
        cases k with
        | zero => simpa using hv
        | succ k => simpa [Nat.add_assoc, Nat.add_comm 1 k] using hr k (by omega)
      · cases h
      · cases h
    · rintro ⟨hl, hr⟩
      cases q with
      | nil => simp at hl
      | cons v vs =>
        have h0 : m.read addr = some v := by simpa using hr 0 (by omega)
        have hs : m.readN (addr + 1) n = some vs := by
          refine (ih (addr + 1) vs).mpr ⟨by simpa using hl, fun k hk => ?_⟩
          simpa [Nat.add_assoc, Nat.add_comm 1 k] using hr (k + 1) (by omega)
        simp [Memory.readN, h0, hs]

/-- A filled prefix can be read. -/
theorem Memory.readN_of_filled {m : Memory} {n : Nat} (h : m.filled n) :
    ∃ q : List Byte, m.readN 0 n = some q ∧ q.length = n := by
  refine ⟨(List.range n).map fun k => (m.read k).getD 0#8, (m.readN_eq_some_iff 0 n _).mpr ⟨by simp, fun k hk => ?_⟩, by simp⟩
  obtain ⟨v, hv⟩ := Option.isSome_iff_exists.mp (h k hk)
  simp [hk, hv]

/-- Storing the byte after a filled prefix fills one byte more. -/
theorem Memory.filled_write {m : Memory} {n : Nat} (h : m.filled n) (v : Byte) : (Memory.write m n v).filled (n + 1) := by
  intro i hi
  rw [Memory.read_write]
  split
  · rfl
  · exact h i (by omega)

/-- A write keeps a filled prefix. -/
theorem Memory.filled_write_of_filled {m : Memory} {n : Nat} (h : m.filled n) (i : Nat) (v : Byte) :
    (Memory.write m i v).filled n := by
  intro k hk
  rw [Memory.read_write]
  split
  · rfl
  · exact h k hk

end Sys2Proof.Machine
end

