-- ==== Sys2Proof/Laws/Engine.lean ====
section
/-! SUPPORT. One lemma per shared operation of the engine, saying everything it does. -/

namespace Sys2Proof.Machine

/-- `finish` is the end of an exchange, written out. -/
theorem State.finish_eq_ended (s : State) (r : Result) : s.finish r = s.ended r := rfl

/-- `FAIL_ATTEMPT` is the failed attempt, written out. -/
theorem State.failAttempt_eq_failed (s : State) (c : ErrorRecord) : s.failAttempt c = s.failed c := by
  simp only [State.failAttempt, State.failed]
  split <;>
    simp [State.retried, State.exhausted, State.send, State.finish, State.emit, State.decClear, State.requestFrame,
      Decoder.clear]

/-- `CAT.CHECK` passes exactly when all three checks hold. -/
theorem catCheck_eq_none_iff (p : Params) (op : Op) (fmt : Fmt) (addr cmd : Byte) (n : Nat) :
    catCheck p op fmt addr cmd n = none ↔ addr = p.addr0 ∧ cmd = cmdOf p op ∧ rspLenOk p op fmt n = true := by
  unfold catCheck
  split <;> simp_all
  split <;> simp_all

/-- `VALIDATE`, written out. -/
theorem State.validate_eq (s : State) (addr cmd len : Byte) (q : List Byte) :
    s.validate addr cmd len q =
      match catCheck s.par s.reqOp s.reqFmt addr cmd len.toNat with
      | none => s.ended (.ok s.reqOp len q)
      | some sub => s.failed (.shape sub) := by
  simp only [State.validate]
  cases catCheck s.par s.reqOp s.reqFmt addr cmd len.toNat with
  | none => rfl
  | some sub => simp only [State.failAttempt_eq_failed, State.failed, State.retried, State.exhausted, State.requestFrame]

/-- What the engine does with a decoder output, written out. -/
theorem State.react_cases (s : State) (out : DecOut) :
    (out = .none ∧ s.react out = s) ∨
    (∃ addr cmd len q, out = .frame addr cmd len q ∧ catCheck s.par s.reqOp s.reqFmt addr cmd len.toNat = none ∧
      s.react out = s.ended (.ok s.reqOp len q)) ∨
    (∃ addr cmd len q sub, out = .frame addr cmd len q ∧
      catCheck s.par s.reqOp s.reqFmt addr cmd len.toNat = some sub ∧ s.react out = s.failed (.shape sub)) ∨
    (∃ sub, out = .error (.framing sub) ∧ s.react out = s.failed (.framing sub)) ∨
    (out = .error .checksum ∧ s.react out = s.failed .checksum) ∨
    (∃ len, out = .error (.overflow len) ∧ s.react out = s.ended (.err (.bufferOverflow len))) := by
  match out with
  | .none => exact .inl ⟨rfl, rfl⟩
  | .frame addr cmd len q =>
    cases h : catCheck s.par s.reqOp s.reqFmt addr cmd len.toNat with
    | none => exact .inr (.inl ⟨addr, cmd, len, q, rfl, h, by simp [State.react, State.validate_eq, h]⟩)
    | some sub => exact .inr (.inr (.inl ⟨addr, cmd, len, q, sub, rfl, h, by simp [State.react, State.validate_eq, h]⟩))
  | .error (.framing sub) =>
    exact .inr (.inr (.inr (.inl ⟨sub, rfl, by simp [State.react, State.failAttempt_eq_failed]⟩)))
  | .error .checksum => exact .inr (.inr (.inr (.inr (.inl ⟨rfl, by simp [State.react, State.failAttempt_eq_failed]⟩))))
  | .error (.overflow len) => exact .inr (.inr (.inr (.inr (.inr ⟨len, rfl, rfl⟩))))

/-- A failed attempt keeps the parameters, the latches, the deadline and the offered events. -/
theorem State.failed_frame (s : State) (c : ErrorRecord) :
    (s.failed c).par = s.par ∧ (s.failed c).inputs = s.inputs ∧ (s.failed c).deadline = s.deadline ∧
    (s.failed c).reqOp = s.reqOp ∧ (s.failed c).reqFmt = s.reqFmt ∧ (s.failed c).reqArg = s.reqArg ∧
    (s.failed c).cfgMaxAttempts = s.cfgMaxAttempts ∧ (s.failed c).cfgTimeout = s.cfgTimeout ∧
    (s.failed c).dec = s.dec.clear ∧ (s.failed c).attempt = s.attempt + 1#8 ∧ (s.failed c).lastCause = some c := by
  unfold State.failed
  split <;> simp

/-- The engine leaves `AwaitingResponse` exactly on an output other than `None` (45_engine.md R246). -/
theorem State.react_estate (s : State) (out : DecOut) (h : s.estate = .awaitingResponse) :
    (s.react out).estate = .awaitingResponse ↔ out = .none := by
  rcases s.react_cases out with ⟨ho, hr⟩ | ⟨_, _, _, _, ho, _, hr⟩ | ⟨_, _, _, _, _, ho, _, hr⟩ | ⟨_, ho, hr⟩ | ⟨ho, hr⟩ |
    ⟨_, ho, hr⟩ <;> rw [hr] <;> subst ho <;> simp [h, State.failed] <;> split <;> simp

/-- Clearing the decoder first makes no difference to a failed attempt. -/
@[simp] theorem State.failed_clear (s : State) (c : ErrorRecord) : ({ s with dec := s.dec.clear } : State).failed c = s.failed c := by
  simp [State.failed, State.retried, State.exhausted, Decoder.clear, State.requestFrame]

/-- Clearing the decoder first makes no difference to the end of an exchange. -/
@[simp] theorem State.ended_clear (s : State) (r : Result) : ({ s with dec := s.dec.clear } : State).ended r = s.ended r := by
  simp [State.ended, Decoder.clear]

/-- A silent decoder step leaves the engine as it is. -/
@[simp] theorem State.react_none (s : State) : s.react .none = s := rfl

/-- What a raw-byte row answers when it has a step. -/
theorem rawRow_eq {s : State} {ctx : Bool} (r : Except Fault (Decoder × DecOut)) (h : s.estate = .awaitingResponse)
    (hc : ctx = true) : rawRow ctx r s = s.receive r := by
  simp [rawRow, h, hc]

/-- The engine step on a decoder result that is no fault. -/
theorem State.receive_ok (s : State) (d : Decoder) (out : DecOut) :
    s.receive (.ok (d, out)) = .next ({ s with dec := d }.react out) := rfl

/-- A silent decoder step. -/
@[simp] theorem State.receive_none (s : State) (d : Decoder) : s.receive (.ok (d, .none)) = .next { s with dec := d } := rfl

/-- A framing error of the decoder (45_engine.md R246). -/
@[simp] theorem State.receive_framing (s : State) (sub : FramingSub) :
    s.receive (.ok (s.dec.clear, .error (.framing sub))) = .next (s.failed (.framing sub)) := by
  simp only [State.receive_ok, State.react, State.failAttempt_eq_failed, State.failed_clear]

/-- A checksum error of the decoder (45_engine.md R246). -/
@[simp] theorem State.receive_checksum (s : State) :
    s.receive (.ok (s.dec.clear, .error .checksum)) = .next (s.failed .checksum) := by
  simp only [State.receive_ok, State.react, State.failAttempt_eq_failed, State.failed_clear]

/-- A length above `CAP` (45_engine.md R254). -/
@[simp] theorem State.receive_overflow (s : State) (d : Decoder) (len : Byte) :
    s.receive (.ok (d, .error (.overflow len))) = .next ({ s with dec := d }.ended (.err (.bufferOverflow len))) := rfl

/-- A frame of the decoder (45_engine.md R248). -/
@[simp] theorem State.receive_frame (s : State) (addr cmd len : Byte) (q : List Byte) :
    s.receive (.ok (s.dec.clear, .frame addr cmd len q)) =
      .next (match catCheck s.par s.reqOp s.reqFmt addr cmd len.toNat with
        | none => s.ended (.ok s.reqOp len q)
        | some sub => s.failed (.shape sub)) := by
  simp only [State.receive_ok, State.react, State.validate_eq, State.failed_clear, State.ended_clear]

end Sys2Proof.Machine
end

