-- ==== Sys2Proof/Laws/Bytes.lean ====
section
/-! SUPPORT. Byte order, the reserved bytes of a valid parameter set, and the 8-bit sum. -/

namespace Sys2Proof

/-- `be32` as a number (00_scope.md R10). -/
theorem toNat_be32 (a b c d : Byte) :
    (be32 a b c d).toNat = a.toNat * 2 ^ 24 + b.toNat * 2 ^ 16 + c.toNat * 2 ^ 8 + d.toNat := by
  have hb := b.isLt
  have hc := c.isLt
  have hd := d.isLt
  unfold be32
  simp only [BitVec.toNat_append]
  rw [← Nat.shiftLeft_add_eq_or_of_lt hb, ← Nat.shiftLeft_add_eq_or_of_lt hc, ← Nat.shiftLeft_add_eq_or_of_lt hd]
  simp only [Nat.shiftLeft_eq]
  omega

/-- `be16` as a number (00_scope.md R10). -/
theorem toNat_be16 (a b : Byte) : (be16 a b).toNat = a.toNat * 2 ^ 8 + b.toNat := by
  have hb := b.isLt
  unfold be16
  rw [BitVec.toNat_append, ← Nat.shiftLeft_add_eq_or_of_lt hb, Nat.shiftLeft_eq]

/-- The four bytes of a word give the word back. -/
@[simp] theorem be32_extract (v : Word32) :
    be32 (v.extractLsb' 24 8) (v.extractLsb' 16 8) (v.extractLsb' 8 8) (v.extractLsb' 0 8) = v := by
  apply BitVec.eq_of_toNat_eq
  have := v.isLt
  simp only [toNat_be32, BitVec.extractLsb'_toNat, Nat.shiftRight_eq_div_pow]
  omega

/-- The word of four bytes has those bytes. -/
@[simp] theorem bytes32_be32 (a b c d : Byte) : bytes32 (be32 a b c d) = [a, b, c, d] := by
  have ha := a.isLt
  have hb := b.isLt
  have hc := c.isLt
  have hd := d.isLt
  have h := toNat_be32 a b c d
  simp only [bytes32, List.cons.injEq, and_true]
  refine ⟨?_, ?_, ?_, ?_⟩ <;> apply BitVec.eq_of_toNat_eq <;>
    simp only [BitVec.extractLsb'_toNat, Nat.shiftRight_eq_div_pow, h] <;> omega

/-- `isReserved` is membership in `RESERVED`. -/
theorem Params.isReserved_iff (p : Params) (b : Byte) : p.isReserved b = true ↔ b ∈ p.reserved := by
  simp [Params.isReserved, Params.reserved, or_assoc]

/-- What a byte that is not reserved is not. -/
theorem Params.isReserved_eq_false_iff (p : Params) (b : Byte) :
    p.isReserved b = false ↔ b ≠ p.delim ∧ b ≠ p.esc ∧ b ≠ p.fc1 ∧ b ≠ p.fc2 := by
  simp [Params.isReserved, and_assoc]

/-- R8(a), pair by pair. -/
theorem Params.Valid.distinct {p : Params} (h : p.Valid) :
    p.delim ≠ p.esc ∧ p.delim ≠ p.fc1 ∧ p.delim ≠ p.fc2 ∧ p.esc ≠ p.fc1 ∧ p.esc ≠ p.fc2 ∧ p.fc1 ≠ p.fc2 := by
  have := h.reserved_distinct
  simp only [Params.reserved, List.nodup_cons, List.mem_cons, List.not_mem_nil, or_false, not_or] at this
  tauto

/-- R8(c) for a byte known to be reserved. -/
theorem Params.Valid.xf_not_reserved {p : Params} (h : p.Valid) {r : Byte} (hr : p.isReserved r = true) :
    p.xf r ≠ p.delim ∧ p.xf r ≠ p.esc ∧ p.xf r ≠ p.fc1 ∧ p.xf r ≠ p.fc2 :=
  (p.isReserved_eq_false_iff _).mp (h.xf_reserved r ((p.isReserved_iff r).mp hr))

/-- The defaults satisfy R8(a) to (h). -/
theorem Params.default_valid : Params.default.Valid where
  reserved_distinct := by decide
  xf_total := by simp [Params.default, defaultXfTable]
  unxf_total := by simp [Params.default, defaultXfTable]
  unxf_xf := by decide
  xf_unxf := by decide
  xf_reserved := by decide
  cap_ge := by decide
  cap_le := by decide
  opcodes_distinct := by decide
  fmt_distinct := by decide
  status_fits := by decide
  fwver_fits := by decide
  devinfo_fits := by decide
  bits_distinct := by decide
  bits_range := by decide

namespace Machine

/-- The accumulator after a list is the sum modulo 256, whatever it started from (40_checksum.md R131). -/
theorem toNat_foldl_add (bytes : List Byte) (a : Byte) :
    (bytes.foldl (· + ·) a).toNat = (a.toNat + (bytes.map BitVec.toNat).sum) % 256 := by
  induction bytes generalizing a with
  | nil => have := a.isLt; simp; omega
  | cons b bs ih =>
    simp only [List.foldl_cons, ih, List.map_cons, List.sum_cons, BitVec.toNat_add]
    omega

/-- The 8-bit sum is the sum modulo 256 (R130). -/
theorem toNat_sum8 (bytes : List Byte) : (sum8 bytes).toNat = (bytes.map BitVec.toNat).sum % 256 := by
  simp [sum8, toNat_foldl_add]

end Machine

end Sys2Proof
end

