-- ==== Sys2Proof/Laws/Decoder.lean ====
section
/-! SUPPORT. The decoder's register updates and its step, said once: what each field byte does, the frame completion, and the
cases of `decStep` in the priority order of 43_frame_decode.md R171. -/

namespace Sys2Proof.Machine

/-- A length above `CAP` (R177). -/
theorem Decoder.storeLen_overflow {p : Params} {v : Byte} (d : Decoder) (h : p.cap < v.toNat) :
    d.storeLen p v = ({ d with rxLen := v, dstate := .awaitingStart, esc := false, remaining := 0#8 }, .error (.overflow v)) := by
  simp [Decoder.storeLen, h, Decoder.resync, Decoder.clear]

/-- An empty payload (R177). -/
theorem Decoder.storeLen_zero (p : Params) (d : Decoder) :
    d.storeLen p 0#8 = ({ d with rxLen := 0#8, remaining := 0#8, dstate := .readingChecksum, esc := false }, .none) := by
  simp [Decoder.storeLen]

/-- A length of at least one payload byte (R177). -/
theorem Decoder.storeLen_pos {p : Params} {v : Byte} (d : Decoder) (h : v.toNat ≤ p.cap) (hz : v ≠ 0#8) :
    d.storeLen p v = ({ d with rxLen := v, remaining := v, dstate := .readingPayload, esc := false }, .none) := by
  have : ¬ p.cap < v.toNat := by omega
  simp [Decoder.storeLen, this, hz]

/-- The payload store where its index exists (R178, R179). -/
theorem Decoder.storePayload_eq {p : Params} {d : Decoder} (v : Byte) (hd : d.dstate = .readingPayload)
    (h1 : 1 ≤ d.remaining.toNat) (h2 : d.remaining.toNat ≤ d.rxLen.toNat) (h3 : d.rxLen.toNat ≤ p.cap) :
    d.storePayload p v =
      .ok ({ d with
        buf := Memory.write d.buf d.payloadIndex v
        remaining := d.remaining - 1#8
        dstate := if d.remaining = 1#8 then .readingChecksum else .readingPayload
        esc := false }, .none) := by
  have hne : d.remaining ≠ 0#8 := by intro h; simp [h] at h1
  have hi : ¬ (d.rxLen.toNat < d.remaining.toNat ∨ p.cap ≤ d.payloadIndex) := by
    unfold Decoder.payloadIndex; omega
  unfold Decoder.storePayload
  rw [if_neg (by tauto)]
  split <;> simp_all

/-- The payload store faults in exactly the states that violate R179. -/
theorem Decoder.storePayload_fault {p : Params} {d : Decoder} {v : Byte} {f : Fault} (h : d.storePayload p v = .error f) :
    f = .bufferIndex ∧
      (d.remaining = 0#8 ∨ d.rxLen.toNat < d.remaining.toNat ∨ p.cap ≤ d.payloadIndex) := by
  unfold Decoder.storePayload at h
  split at h
  · rename_i hc; cases h; exact ⟨rfl, hc⟩
  · split at h <;> cases h

/-- The frame completion over a readable payload (R183). -/
theorem Decoder.complete_eq {d : Decoder} {q : List Byte} (h : Memory.readN d.buf 0 d.rxLen.toNat = some q) :
    d.complete =
      .ok (d.clear,
        if chkCompute ([d.rxAddr, d.rxCmd, d.rxLen] ++ q) = d.rxChk then .frame d.rxAddr d.rxCmd d.rxLen q
        else .error .checksum) := by
  unfold Decoder.complete
  simp only [h]
  split <;> rfl

/-- A field byte clears the pending escape, whether it was set or not (R173, R175 to R180). -/
theorem Decoder.fieldByte_esc (p : Params) {d : Decoder} (h : d.dstate.inField = true) (e : Bool) (v : Byte) :
    ({ d with esc := e } : Decoder).fieldByte p v = d.fieldByte p v := by
  obtain ⟨ds, _, _, _, _, _, _, _⟩ := d
  cases ds <;> first | rfl | cases h

/-! ### The decoder step -/

/-- Outside a frame (R170). -/
theorem decStep_start {p : Params} {d : Decoder} (b : Byte) (h : d.dstate = .awaitingStart) :
    decStep p d b = .ok (if b = p.delim then d.openFrame else d, .none) := by
  simp only [decStep, h, if_true]
  split <;> rfl

/-- The closing delimiter (R183). -/
theorem decStep_close {p : Params} {d : Decoder} (h : d.dstate = .awaitingStop) : decStep p d p.delim = d.complete := by
  simp [decStep, h]

/-- A byte where the closing delimiter is expected (R182). -/
theorem decStep_stop {p : Params} {d : Decoder} {b : Byte} (h : d.dstate = .awaitingStop) (hb : b ≠ p.delim) :
    decStep p d b = .ok (d.clear, .error (.framing .unexpectedByte)) := by
  simp [decStep, h, hb, Decoder.resync]

/-- A delimiter in a frame (R181). -/
theorem decStep_delim {p : Params} {d : Decoder} (h : d.dstate.inField = true) :
    decStep p d p.delim = .ok (d.clear, .error (.framing .delimMidFrame)) := by
  cases hd : d.dstate <;> simp_all [DState.inField, decStep, Decoder.resync]

/-- Any other byte where a field byte is expected goes through the destuffer (R172 to R174). -/
theorem decStep_field {p : Params} {d : Decoder} {b : Byte} (h : d.dstate.inField = true) (hb : b ≠ p.delim) :
    decStep p d b =
      match destuffStep p d.esc b with
      | (e, .none) => .ok ({ d with esc := e }, .none)
      | (_, .byte v) => d.fieldByte p v
      | (_, .error sub) => .ok (d.clear, .error (.framing sub)) := by
  have h1 : d.dstate ≠ .awaitingStart := by intro e; simp [e, DState.inField] at h
  have h2 : d.dstate ≠ .awaitingStop := by intro e; simp [e, DState.inField] at h
  simp only [decStep, if_neg h1, if_neg h2, if_neg hb, Decoder.resync]
  obtain ⟨e, out⟩ := destuffStep p d.esc b
  cases out with
  | none => rfl
  | byte v => exact Decoder.fieldByte_esc p h e v
  | error sub => rfl

/-- The three situations a decoder can be in. -/
theorem dstate_cases (ds : DState) : ds = .awaitingStart ∨ ds = .awaitingStop ∨ ds.inField = true := by
  cases ds <;> simp [DState.inField]

/-- What the destuffer answers (41_stuffing.md R144). -/
theorem destuffStep_cases (p : Params) (e : Bool) (b : Byte) :
    (e = true ∧ p.isReserved (p.unxf b) = true ∧ destuffStep p e b = (false, .byte (p.unxf b))) ∨
    (e = true ∧ p.isReserved (p.unxf b) = false ∧ destuffStep p e b = (false, .error .malformedEscape)) ∨
    (e = false ∧ b = p.esc ∧ destuffStep p e b = (true, .none)) ∨
    (e = false ∧ b ≠ p.esc ∧ (b = p.fc1 ∨ b = p.fc2) ∧ destuffStep p e b = (false, .error .unexpectedByte)) ∨
    (e = false ∧ b ≠ p.esc ∧ b ≠ p.fc1 ∧ b ≠ p.fc2 ∧ destuffStep p e b = (false, .byte b)) := by
  unfold destuffStep
  cases e with
  | true => by_cases h : p.isReserved (p.unxf b) = true <;> simp [h]
  | false =>
    by_cases h1 : b = p.esc
    · simp [h1]
    · by_cases h2 : b = p.fc1 ∨ b = p.fc2
      · simp [h1, h2]
      · simp only [not_or] at h2
        simp [h1, h2]

/-- A step that reports anything leaves the scanning state (R184). -/
theorem decStep_output_dstate {p : Params} {d d' : Decoder} {b : Byte} {out : DecOut}
    (h : decStep p d b = .ok (d', out)) (ho : out ≠ .none) : d'.dstate = .awaitingStart := by
  rcases dstate_cases d.dstate with hd | hd | hd
  · rw [decStep_start _ hd] at h; cases h; exact absurd rfl ho
  · by_cases hb : b = p.delim
    · subst hb
      rw [decStep_close hd] at h
      unfold Decoder.complete at h
      split at h
      · cases h
      · split at h <;> cases h <;> rfl
    · rw [decStep_stop hd hb] at h; cases h; rfl
  · by_cases hb : b = p.delim
    · subst hb; rw [decStep_delim hd] at h; cases h; rfl
    · rw [decStep_field hd hb] at h
      rcases destuffStep_cases p d.esc b with ⟨h1, h2, h3⟩ | ⟨h1, h2, h3⟩ | ⟨h1, h2, h3⟩ | ⟨h1, h2, h4, h3⟩ |
        ⟨h1, h2, h4, h5, h3⟩ <;> rw [h3] at h <;> simp only at h
      case inr.inl => cases h; rfl
      case inr.inr.inl => cases h; exact absurd rfl ho
      case inr.inr.inr.inl => cases h; rfl
      all_goals
        unfold Decoder.fieldByte at h
        cases hds : d.dstate <;> simp only [hds] at h
        case readingLength =>
          unfold Decoder.storeLen at h
          split_ifs at h <;> cases h
          · rfl
          all_goals exact absurd rfl ho
        case readingPayload => unfold Decoder.storePayload at h; split_ifs at h <;> cases h <;> exact absurd rfl ho
        all_goals cases h; exact absurd rfl ho

/-- A run over no bytes. -/
@[simp] theorem decRun_nil (p : Params) (d : Decoder) : decRun p d [] = .ok ([], d) := rfl

/-- A run that starts with a silent step. -/
theorem decRun_cons_none {p : Params} {d d' : Decoder} {b : Byte} (h : decStep p d b = .ok (d', .none)) (bs : List Byte) :
    decRun p d (b :: bs) = decRun p d' bs := by
  simp only [decRun, h]
  cases decRun p d' bs with
  | error f => rfl
  | ok r => obtain ⟨outs, d''⟩ := r; simp

/-- A run that starts with an output. -/
theorem decRun_cons_some {p : Params} {d d' : Decoder} {b : Byte} {out : DecOut} (h : decStep p d b = .ok (d', out))
    (ho : out ≠ .none) {bs : List Byte} {outs : List DecOut} {d'' : Decoder} (hr : decRun p d' bs = .ok (outs, d'')) :
    decRun p d (b :: bs) = .ok (out :: outs, d'') := by
  simp [decRun, h, ho, hr]

end Sys2Proof.Machine
end

