-- ==== Sys2Proof/Laws/Codec.lean ====
section
/-! SUPPORT. The frame codec both ways: what a stuffed field byte does to the decoder and to the destuffer, what a run over stuffed
field bytes leaves, and what the decoder has consumed when it stands at a state inside a frame. -/

namespace Sys2Proof.Machine

/-! ### Stuffed bytes -/

theorem stuff_nil (p : Params) : stuff p [] = [] := rfl

theorem stuff_cons (p : Params) (b : Byte) (bs : List Byte) : stuff p (b :: bs) = stuffByte p b ++ stuff p bs := by
  simp [stuff]

theorem stuff_append (p : Params) (as bs : List Byte) : stuff p (as ++ bs) = stuff p as ++ stuff p bs := by
  simp [stuff]

/-- The two forms of a stuffed byte (41_stuffing.md R141). -/
theorem stuffByte_cases (p : Params) (b : Byte) :
    (p.isReserved b = true ∧ stuffByte p b = [p.esc, p.xf b]) ∨ (p.isReserved b = false ∧ stuffByte p b = [b]) := by
  cases h : p.isReserved b <;> simp [stuffByte, h]

/-- A stuffed byte is one or two raw bytes (R141). -/
theorem length_stuffByte (p : Params) (b : Byte) : (stuffByte p b).length = 1 + if p.isReserved b then 1 else 0 := by
  cases h : p.isReserved b <;> simp [stuffByte, h]

/-- The length of stuffed bytes: one more for each reserved byte (R142). -/
theorem length_stuff (p : Params) (bs : List Byte) :
    (stuff p bs).length = bs.length + bs.countP (fun b => p.isReserved b) := by
  induction bs with
  | nil => rfl
  | cons b bs ih =>
    rw [stuff_cons, List.length_append, length_stuffByte, ih, List.length_cons, List.countP_cons]
    omega

/-- No delimiter and no flow-control byte in stuffed bytes (R143). -/
theorem not_mem_stuff {p : Params} (hp : p.Valid) (bs : List Byte) :
    p.delim ∉ stuff p bs ∧ p.fc1 ∉ stuff p bs ∧ p.fc2 ∉ stuff p bs := by
  obtain ⟨n1, n2, n3, n4, n5, n6⟩ := hp.distinct
  induction bs with
  | nil => simp [stuff]
  | cons b bs ih =>
    obtain ⟨i1, i2, i3⟩ := ih
    rw [stuff_cons]
    rcases stuffByte_cases p b with ⟨h, e⟩ | ⟨h, e⟩
    · obtain ⟨x1, x2, x3, x4⟩ := hp.xf_not_reserved h
      simp [e, i1, i2, i3, n1, n4.symm, n5.symm, Ne.symm x1, Ne.symm x3, Ne.symm x4]
    · obtain ⟨x1, x2, x3, x4⟩ := (p.isReserved_eq_false_iff b).mp h
      simp [e, i1, i2, i3, Ne.symm x1, Ne.symm x3, Ne.symm x4]

/-- The destuffer gives a stuffed byte back (R149). -/
theorem destuffFrom_stuffByte {p : Params} (hp : p.Valid) (b : Byte) (rest : List Byte) :
    destuffFrom p false (stuffByte p b ++ rest) = (destuffFrom p false rest).cons b := by
  rcases stuffByte_cases p b with ⟨h, e⟩ | ⟨h, e⟩ <;> rw [e]
  · simp [destuffFrom, destuffStep, hp.unxf_xf, h]
  · obtain ⟨x1, x2, x3, x4⟩ := (p.isReserved_eq_false_iff b).mp h
    simp [destuffFrom, destuffStep, x2, x3, x4]

/-- What the destuffer has read when it answers a list (R149). -/
theorem destuffFrom_ok {p : Params} (hp : p.Valid) {e : Bool} {raw bs : List Byte} (hd : p.delim ∉ raw)
    (h : destuffFrom p e raw = .ok bs) : (if e then [p.esc] else []) ++ raw = stuff p bs := by
  induction raw generalizing e bs with
  | nil => cases e <;> simp [destuffFrom] at h; subst h; rfl
  | cons b raw ih =>
    simp only [List.mem_cons, not_or] at hd
    have cons_ok : ∀ {v : Byte} {r : DestuffResult}, r.cons v = .ok bs → ∃ cs, r = .ok cs ∧ bs = v :: cs := by
      intro v r hr
      cases r <;> simp [DestuffResult.cons] at hr
      exact ⟨_, rfl, hr.symm⟩
    rcases destuffStep_cases p e b with ⟨h1, h2, h3⟩ | ⟨h1, h2, h3⟩ | ⟨h1, h2, h3⟩ | ⟨h1, h2, h4, h3⟩ | ⟨h1, h2, h4, h5, h3⟩ <;>
      simp only [destuffFrom, h3] at h
    · obtain ⟨cs, hc, rfl⟩ := cons_ok h
      have := ih hd.2 hc
      simp only [Bool.false_eq_true, if_false, List.nil_append] at this
      simp [h1, stuff_cons, stuffByte, h2, hp.xf_unxf, this]
    · cases h
    · have := ih hd.2 h
      simpa [h1, h2] using this
    · cases h
    · obtain ⟨cs, hc, rfl⟩ := cons_ok h
      have := ih hd.2 hc
      simp only [Bool.false_eq_true, if_false, List.nil_append] at this
      have hr := (p.isReserved_eq_false_iff b).mpr ⟨Ne.symm hd.1, h2, h4, h5⟩
      simp [h1, stuff_cons, stuffByte, hr, this]

/-! ### Runs of the decoder over stuffed field bytes -/

/-- A stuffed field byte, whole, is the field byte (43_frame_decode.md R172 to R180). -/
theorem decRun_stuffByte {p : Params} (hp : p.Valid) {d d' : Decoder} {v : Byte} (hf : d.dstate.inField = true)
    (he : d.esc = false) (h : d.fieldByte p v = .ok (d', .none)) (rest : List Byte) :
    decRun p d (stuffByte p v ++ rest) = decRun p d' rest := by
  obtain ⟨n1, n2, n3, n4, n5, n6⟩ := hp.distinct
  rcases stuffByte_cases p v with ⟨hr, e⟩ | ⟨hr, e⟩ <;> rw [e]
  · obtain ⟨x1, x2, x3, x4⟩ := hp.xf_not_reserved hr
    have s1 : decStep p d p.esc = .ok ({ d with esc := true }, .none) := by
      rw [decStep_field hf n1.symm]; simp [destuffStep, he]
    have s2 : decStep p { d with esc := true } (p.xf v) = .ok (d', .none) := by
      rw [decStep_field (by exact hf) x1]
      simp only [destuffStep, if_true, hp.unxf_xf, hr]
      rw [Decoder.fieldByte_esc p hf, h]
    rw [List.cons_append, decRun_cons_none s1, List.cons_append, decRun_cons_none s2, List.nil_append]
  · obtain ⟨x1, x2, x3, x4⟩ := (p.isReserved_eq_false_iff v).mp hr
    have s1 : decStep p d v = .ok (d', .none) := by
      rw [decStep_field hf x1]; simp [destuffStep, he, x2, x3, x4, h]
    rw [List.cons_append, decRun_cons_none s1, List.nil_append]

/-- The payload of a frame: its bytes are stored in order and nothing above them is touched (R178). -/
theorem decRun_payload {p : Params} (hp : p.Valid) (q : List Byte) {d : Decoder} (hd : d.dstate = .readingPayload)
    (he : d.esc = false) (hr : d.remaining.toNat = q.length) (hq : 1 ≤ q.length) (hl : q.length ≤ d.rxLen.toNat)
    (hc : d.rxLen.toNat ≤ p.cap) :
    ∃ buf : Memory,
      (∀ rest, decRun p d (stuff p q ++ rest) =
        decRun p { d with buf := buf, remaining := 0#8, dstate := .readingChecksum, esc := false } rest) ∧
      ∀ k, buf.read k =
        if d.rxLen.toNat - q.length ≤ k ∧ k < d.rxLen.toNat then q[k - (d.rxLen.toNat - q.length)]? else d.buf.read k := by
  induction q generalizing d with
  | nil => simp at hq
  | cons v q ih =>
    simp only [List.length_cons] at hr hq hl
    have hs := Decoder.storePayload_eq v hd (by omega) (by omega) hc
    have hfb : d.fieldByte p v = d.storePayload p v := by simp [Decoder.fieldByte, hd]
    rw [← hfb] at hs
    have hpi : d.payloadIndex = d.rxLen.toNat - (q.length + 1) := by simp [Decoder.payloadIndex, hr]
    have step1 := fun rest => decRun_stuffByte hp (by rw [hd]; rfl) he hs rest
    cases q with
    | nil =>
      have h1 : d.remaining = 1#8 := by apply BitVec.eq_of_toNat_eq; simp [hr]
      refine ⟨Memory.write d.buf d.payloadIndex v, fun rest => by simp [stuff_cons, step1, h1, stuff_nil], fun k => ?_⟩
      simp only [List.length_nil, Nat.zero_add] at hpi hl
      rw [Memory.read_write, hpi]
      by_cases hk : k = d.rxLen.toNat - 1
      · have : d.rxLen.toNat - 1 ≤ k ∧ k < d.rxLen.toNat := by omega
        simp [hk]; omega
      · have : ¬ (d.rxLen.toNat - 1 ≤ k ∧ k < d.rxLen.toNat) := by omega
        simp only [List.length_cons, List.length_nil, Nat.zero_add]
        rw [if_neg hk, if_neg this]
    | cons w q =>
      simp only [List.length_cons] at hr hq hl hpi
      have h1 : d.remaining ≠ 1#8 := by intro h; simp [h] at hr
      have hsub : (d.remaining - 1#8).toNat = q.length + 1 := by
        have := d.remaining.isLt
        rw [BitVec.toNat_sub]; simp only [BitVec.toNat_ofNat]; omega
      obtain ⟨buf, hrun, hread⟩ := ih (d := { d with
          buf := Memory.write d.buf d.payloadIndex v
          remaining := d.remaining - 1#8
          dstate := if d.remaining = 1#8 then .readingChecksum else .readingPayload
          esc := false }) (by simp [h1]) rfl (by simpa using hsub) (by simp) (by simp; omega) hc
      refine ⟨buf, fun rest => by rw [stuff_cons, List.append_assoc, step1, hrun], fun k => ?_⟩
      rw [hread k, Memory.read_write, hpi]
      simp only [List.length_cons]
      by_cases hk : k = d.rxLen.toNat - (q.length + 1 + 1)
      · have h2 : ¬ (d.rxLen.toNat - (q.length + 1) ≤ k ∧ k < d.rxLen.toNat) := by omega
        have h3 : d.rxLen.toNat - (q.length + 1 + 1) ≤ k ∧ k < d.rxLen.toNat := by omega
        have h4 : k - (d.rxLen.toNat - (q.length + 1 + 1)) = 0 := by omega
        rw [if_neg h2, if_pos hk, if_pos h3, h4]; rfl
      · by_cases h2 : d.rxLen.toNat - (q.length + 1) ≤ k ∧ k < d.rxLen.toNat
        · have h3 : d.rxLen.toNat - (q.length + 1 + 1) ≤ k ∧ k < d.rxLen.toNat := by omega
          have h4 : k - (d.rxLen.toNat - (q.length + 1 + 1)) = (k - (d.rxLen.toNat - (q.length + 1))) + 1 := by omega
          rw [if_pos h2, if_pos h3, h4, List.getElem?_cons_succ]
        · have h3 : ¬ (d.rxLen.toNat - (q.length + 1 + 1) ≤ k ∧ k < d.rxLen.toNat) := by omega
          rw [if_neg h2, if_neg hk, if_neg h3]

/-- A run over a whole frame body up to its closing delimiter: the header registers, the checksum register and the buffer hold the
frame, and the decoder awaits the delimiter (43_frame_decode.md R185). -/
theorem decRun_body {p : Params} (hp : p.Valid) {d : Decoder} (hd : d.dstate = .awaitingStart) (addr cmd chk : Byte)
    {q : List Byte} (hq : q.length ≤ p.cap) :
    ∃ buf : Memory,
      (∀ rest, decRun p d ([p.delim] ++ stuff p (frameBody addr cmd q ++ [chk]) ++ rest) =
        decRun p ⟨.awaitingStop, false, 0#8, addr, cmd, BitVec.ofNat 8 q.length, chk, buf⟩ rest) ∧
      ∀ k, buf.read k = if k < q.length then q[k]? else d.buf.read k := by
  have hcap := hp.cap_le
  have hn : (BitVec.ofNat 8 q.length).toNat = q.length := by simp; omega
  have s0 : decStep p d p.delim = .ok (d.openFrame, .none) := by rw [decStep_start _ hd]; simp
  simp only [frameBody, List.cons_append, List.nil_append, stuff_cons, stuff_append, stuff_nil, List.append_nil,
    List.append_assoc]
  have head : ∀ rest, decRun p d (p.delim :: (stuffByte p addr ++ (stuffByte p cmd ++ rest))) =
      decRun p ((d.openFrame.storeAddr addr).storeCmd cmd) rest := by
    intro rest
    rw [decRun_cons_none s0, decRun_stuffByte hp rfl rfl (d' := d.openFrame.storeAddr addr) rfl,
      decRun_stuffByte hp rfl rfl (d' := (d.openFrame.storeAddr addr).storeCmd cmd) rfl]
  by_cases hz : q = []
  · subst hz
    have e : (((d.openFrame.storeAddr addr).storeCmd cmd).fieldByte p (BitVec.ofNat 8 0)) =
        .ok ({ (d.openFrame.storeAddr addr).storeCmd cmd with
          rxLen := 0#8, remaining := 0#8, dstate := .readingChecksum, esc := false }, .none) := by
      show Except.ok (Decoder.storeLen p 0#8 _) = _
      rw [Decoder.storeLen_zero]
    refine ⟨d.buf, fun rest => ?_, by simp⟩
    rw [head, List.length_nil, decRun_stuffByte hp rfl rfl e, stuff_nil, List.nil_append, decRun_stuffByte hp rfl rfl rfl]
    rfl
  · have hpos : 1 ≤ q.length := List.length_pos_iff.mpr hz
    have hne : BitVec.ofNat 8 q.length ≠ 0#8 := by
      intro h; have := congrArg BitVec.toNat h; rw [hn] at this; simp at this; exact hz this
    have e : (((d.openFrame.storeAddr addr).storeCmd cmd).fieldByte p (BitVec.ofNat 8 q.length)) =
        .ok ({ (d.openFrame.storeAddr addr).storeCmd cmd with
          rxLen := BitVec.ofNat 8 q.length, remaining := BitVec.ofNat 8 q.length, dstate := .readingPayload,
          esc := false }, .none) := by
      show Except.ok (Decoder.storeLen p (BitVec.ofNat 8 q.length) _) = _
      rw [Decoder.storeLen_pos _ (by omega) hne]
    obtain ⟨buf, hrun, hread⟩ := decRun_payload hp q (d := { (d.openFrame.storeAddr addr).storeCmd cmd with
      rxLen := BitVec.ofNat 8 q.length, remaining := BitVec.ofNat 8 q.length, dstate := .readingPayload,
      esc := false }) rfl rfl hn hpos (by show _ ≤ (BitVec.ofNat 8 q.length).toNat; omega) (by show (BitVec.ofNat 8 q.length).toNat ≤ _; omega)
    refine ⟨buf, fun rest => ?_, fun k => ?_⟩
    · rw [head, decRun_stuffByte hp rfl rfl e, hrun, decRun_stuffByte hp rfl rfl rfl]; rfl
    · rw [hread k]
      show (if (BitVec.ofNat 8 q.length).toNat - q.length ≤ k ∧ k < (BitVec.ofNat 8 q.length).toNat then _ else d.buf.read k) = _
      simp [hn]

/-! ### What the decoder has consumed -/

/-- `w` is what the decoder has consumed since the last opening delimiter, when it stands at `d` inside a frame. -/
def Decoder.reads (p : Params) (d : Decoder) (w : List Byte) : Prop :=
  ∃ fs : List Byte, w = p.delim :: stuff p fs ++ (if d.esc then [p.esc] else []) ∧
    match d.dstate with
    | .awaitingStart => False
    | .readingAddress => fs = []
    | .readingCommand => fs = [d.rxAddr]
    | .readingLength => fs = [d.rxAddr, d.rxCmd]
    | .readingPayload =>
      ∃ q : List Byte, fs = [d.rxAddr, d.rxCmd, d.rxLen] ++ q ∧ q.length + d.remaining.toNat = d.rxLen.toNat ∧
        1 ≤ d.remaining.toNat ∧ d.rxLen.toNat ≤ p.cap ∧ ∀ k, k < q.length → d.buf.read k = q[k]?
    | .readingChecksum =>
      ∃ q : List Byte, fs = [d.rxAddr, d.rxCmd, d.rxLen] ++ q ∧ q.length = d.rxLen.toNat ∧ q.length ≤ p.cap ∧
        ∀ k, k < q.length → d.buf.read k = q[k]?
    | .awaitingStop =>
      d.esc = false ∧
      ∃ q : List Byte, fs = [d.rxAddr, d.rxCmd, d.rxLen] ++ q ++ [d.rxChk] ∧ q.length = d.rxLen.toNat ∧ q.length ≤ p.cap ∧
        ∀ k, k < q.length → d.buf.read k = q[k]?

/-- The opening delimiter begins it. -/
theorem Decoder.reads_open (p : Params) (d : Decoder) : d.openFrame.reads p [p.delim] :=
  ⟨[], by simp [stuff_nil], rfl⟩

/-- A silent field byte inside a frame extends what has been consumed. -/
theorem Decoder.reads_fieldByte {p : Params} {d d' : Decoder} {w : List Byte} {v : Byte} (h : d.reads p w)
    (hf : d.dstate.inField = true) (hs : d.fieldByte p v = .ok (d', .none)) :
    ∃ fs : List Byte, w = p.delim :: stuff p fs ++ (if d.esc then [p.esc] else []) ∧
      d'.reads p (p.delim :: stuff p (fs ++ [v])) := by
  obtain ⟨fs, hw, hm⟩ := h
  refine ⟨fs, hw, fs ++ [v], ?_⟩
  unfold Decoder.fieldByte at hs
  cases hd : d.dstate <;> simp only [hd] at hs hm hf
  case awaitingStop => simp [DState.inField] at hf
  case readingAddress => cases hs; subst hm; simp
  case readingCommand => cases hs; subst hm; simp
  case readingLength =>
    subst hm
    by_cases h1 : p.cap < v.toNat
    · rw [Decoder.storeLen_overflow _ h1] at hs; cases hs
    · by_cases h2 : v = 0#8
      · subst h2
        rw [Decoder.storeLen_zero] at hs; cases hs
        exact ⟨by simp, [], by simp⟩
      · rw [Decoder.storeLen_pos _ (by omega) h2] at hs; cases hs
        have : 1 ≤ v.toNat := by
          rcases Nat.eq_zero_or_pos v.toNat with h | h
          · exact absurd (BitVec.eq_of_toNat_eq (by simpa using h)) h2
          · exact h
        exact ⟨by simp, [], by simp, by simp, this, by simp; omega, by simp⟩
  case readingPayload =>
    obtain ⟨q, rfl, h1, h2, h3, h4⟩ := hm
    rw [Decoder.storePayload_eq v hd h2 (by omega) h3] at hs
    cases hs
    have hpi : d.payloadIndex = q.length := by simp [Decoder.payloadIndex]; omega
    have hbuf : ∀ k, k < (q ++ [v]).length → (Memory.write d.buf d.payloadIndex v).read k = (q ++ [v])[k]? := by
      intro k hk
      rw [Memory.read_write, hpi]
      simp only [List.length_append, List.length_cons, List.length_nil] at hk
      by_cases e : k = q.length
      · simp [e]
      · rw [if_neg e, h4 k (by omega), List.getElem?_append_left (by omega)]
    by_cases h5 : d.remaining = 1#8
    · simp only [h5, if_true]
      refine ⟨by simp, q ++ [v], by simp, ?_, ?_, hbuf⟩
      · simp [h5] at h1; simp; omega
      · simp [h5] at h1; simp; omega
    · simp only [if_neg h5]
      have : d.remaining.toNat ≠ 1 := fun e => h5 (BitVec.eq_of_toNat_eq (by simpa using e))
      have hsub : (d.remaining - 1#8).toNat = d.remaining.toNat - 1 := by
        have := d.remaining.isLt
        rw [BitVec.toNat_sub]; simp only [BitVec.toNat_ofNat]; omega
      refine ⟨by simp, q ++ [v], by simp, ?_, ?_, h3, hbuf⟩
      · simp only [List.length_append, List.length_cons, List.length_nil, hsub]; omega
      · simp only [hsub]; omega
  case readingChecksum =>
    obtain ⟨q, rfl, h1, h2, h3⟩ := hm
    cases hs
    exact ⟨by simp, rfl, q, by simp, h1, h2, h3⟩

/-- A silent step inside a frame extends what has been consumed. -/
theorem Decoder.reads_step {p : Params} (hp : p.Valid) {d d' : Decoder} {w : List Byte} {b : Byte} (h : d.reads p w)
    (hs : decStep p d b = .ok (d', .none)) : d'.reads p (w ++ [b]) := by
  rcases dstate_cases d.dstate with hd | hd | hd
  · obtain ⟨fs, -, hm⟩ := h; simp only [hd] at hm
  · by_cases hb : b = p.delim
    · subst hb
      rw [decStep_close hd] at hs
      unfold Decoder.complete at hs
      split at hs
      · cases hs
      · split at hs <;> cases hs
    · rw [decStep_stop hd hb] at hs; cases hs
  · by_cases hb : b = p.delim
    · subst hb; rw [decStep_delim hd] at hs; cases hs
    · rw [decStep_field hd hb] at hs
      rcases destuffStep_cases p d.esc b with ⟨h1, h2, h3⟩ | ⟨h1, h2, h3⟩ | ⟨h1, h2, h3⟩ | ⟨h1, h2, h4, h3⟩ |
        ⟨h1, h2, h4, h5, h3⟩ <;> rw [h3] at hs <;> simp only at hs
      · obtain ⟨fs, rfl, hr⟩ := Decoder.reads_fieldByte h hd hs
        have hx := hp.xf_unxf b
        have : stuffByte p (p.unxf b) = [p.esc, b] := by simp [stuffByte, h2, hx]
        rw [stuff_append, stuff_cons, this] at hr
        simpa [h1, stuff_nil] using hr
      · cases hs
      · cases hs
        obtain ⟨fs, rfl, hm⟩ := h
        refine ⟨fs, by simp [h1, h2], ?_⟩
        cases hds : d.dstate <;> simp only [hds] at hm hd ⊢ <;> first | exact hm | cases hd
      · cases hs
      · obtain ⟨fs, rfl, hr⟩ := Decoder.reads_fieldByte h hd hs
        have : stuffByte p b = [b] := by
          simp [stuffByte, (p.isReserved_eq_false_iff b).mpr ⟨hb, h2, h4, h5⟩]
        rw [stuff_append, stuff_cons, this] at hr
        simpa [h1, stuff_nil] using hr

/-- A frame is reported only at its closing delimiter (43_frame_decode.md R183). -/
theorem decStep_frame {p : Params} {d d' : Decoder} {b addr cmd len : Byte} {q : List Byte}
    (h : decStep p d b = .ok (d', .frame addr cmd len q)) :
    d.dstate = .awaitingStop ∧ b = p.delim ∧ d' = d.clear ∧ Memory.readN d.buf 0 d.rxLen.toNat = some q ∧
      addr = d.rxAddr ∧ cmd = d.rxCmd ∧ len = d.rxLen ∧ chkCompute ([d.rxAddr, d.rxCmd, d.rxLen] ++ q) = d.rxChk := by
  rcases dstate_cases d.dstate with hd | hd | hd
  · rw [decStep_start _ hd] at h; cases h
  · by_cases hb : b = p.delim
    · subst hb
      rw [decStep_close hd] at h
      unfold Decoder.complete at h
      split at h
      · cases h
      · rename_i q' hq
        split at h
        · rename_i hc; cases h; exact ⟨hd, rfl, rfl, hq, rfl, rfl, rfl, hc⟩
        · cases h
    · rw [decStep_stop hd hb] at h; cases h
  · by_cases hb : b = p.delim
    · subst hb; rw [decStep_delim hd] at h; cases h
    · rw [decStep_field hd hb] at h
      rcases destuffStep_cases p d.esc b with ⟨h1, h2, h3⟩ | ⟨h1, h2, h3⟩ | ⟨h1, h2, h3⟩ | ⟨h1, h2, h4, h3⟩ |
        ⟨h1, h2, h4, h5, h3⟩ <;> rw [h3] at h <;> simp only at h
      case inr.inl => cases h
      case inr.inr.inl => cases h
      case inr.inr.inr.inl => cases h
      all_goals
        unfold Decoder.fieldByte at h
        cases hds : d.dstate <;> simp only [hds] at h
        case readingLength => unfold Decoder.storeLen at h; split_ifs at h <;> cases h
        case readingPayload => unfold Decoder.storePayload at h; split_ifs at h <;> cases h
        all_goals cases h

/-- What has been consumed when a frame is reported is exactly that frame's encoding (43_frame_decode.md R190). -/
theorem Decoder.reads_frame {p : Params} {d d' : Decoder} {w : List Byte} {b addr cmd len : Byte} {q : List Byte}
    (h : d.reads p w) (hs : decStep p d b = .ok (d', .frame addr cmd len q)) :
    w ++ [b] = frameBytes p addr cmd q ∧ len.toNat = q.length ∧ q.length ≤ p.cap := by
  obtain ⟨hd, rfl, -, hq, rfl, rfl, rfl, hc⟩ := decStep_frame hs
  obtain ⟨fs, rfl, hm⟩ := h
  simp only [hd] at hm
  obtain ⟨he, q', rfl, h1, h2, h3⟩ := hm
  have : some q' = some q := by
    rw [← hq]
    exact ((Memory.readN_eq_some_iff _ _ _ _).mpr ⟨h1, fun k hk => by simpa using h3 k (by omega)⟩).symm
  cases this
  have hlen : BitVec.ofNat 8 q.length = d.rxLen := BitVec.eq_of_toNat_eq (by have := d.rxLen.isLt; simp; omega)
  refine ⟨?_, h1.symm, h2⟩
  simp [frameBytes, fieldBytes, frameBody, he, hlen, ← hc]

/-- Every frame a run reports stands, encoded, in what the run consumed (43_frame_decode.md R190). -/
theorem decRun_frame_infix {p : Params} (hp : p.Valid) {addr cmd len : Byte} {q : List Byte} (bytes : List Byte) :
    ∀ {d d' : Decoder} {outs : List DecOut} (w : List Byte), (d.dstate = .awaitingStart ∧ w = [] ∨ d.reads p w) →
      decRun p d bytes = .ok (outs, d') → .frame addr cmd len q ∈ outs →
      len.toNat = q.length ∧ q.length ≤ p.cap ∧ frameBytes p addr cmd q <:+: w ++ bytes := by
  induction bytes with
  | nil => intro d d' outs w _ h hm; cases h; cases hm
  | cons b bs ih =>
    intro d d' outs w hw h hm
    simp only [decRun] at h
    cases hst : decStep p d b with
    | error f => simp [hst] at h
    | ok r =>
      obtain ⟨d₁, out⟩ := r
      simp only [hst] at h
      cases hr : decRun p d₁ bs with
      | error f => simp [hr] at h
      | ok r =>
        obtain ⟨outs₁, d₂⟩ := r
        simp only [hr, Except.ok.injEq, Prod.mk.injEq] at h
        obtain ⟨ho, rfl⟩ := h
        -- the rest of the run, from what the first step leaves
        have rest : ∀ w₁, (d₁.dstate = .awaitingStart ∧ w₁ = [] ∨ d₁.reads p w₁) → (∃ pre, w ++ [b] = pre ++ w₁) →
            .frame addr cmd len q ∈ outs₁ →
            len.toNat = q.length ∧ q.length ≤ p.cap ∧ frameBytes p addr cmd q <:+: w ++ b :: bs := by
          intro w₁ h₁ hpre hm₁
          obtain ⟨pre, hpre⟩ := hpre
          obtain ⟨r1, r2, r3⟩ := ih w₁ h₁ hr hm₁
          refine ⟨r1, r2, r3.trans ?_⟩
          have : w ++ b :: bs = pre ++ (w₁ ++ bs) := by
            rw [← List.append_assoc, ← hpre]; simp
          rw [this]
          exact (List.suffix_append _ _).isInfix
        by_cases hn : out = .none
        · subst hn
          simp only [if_true] at ho
          subst ho
          rcases hw with ⟨hd, rfl⟩ | hw
          · rw [decStep_start _ hd] at hst
            by_cases hb : b = p.delim
            · subst hb
              simp only [if_true, Except.ok.injEq, Prod.mk.injEq, and_true] at hst
              subst hst
              exact rest [p.delim] (.inr (d.reads_open p)) ⟨[], rfl⟩ hm
            · simp only [if_neg hb, Except.ok.injEq, Prod.mk.injEq, and_true] at hst
              subst hst
              exact rest [] (.inl ⟨hd, rfl⟩) ⟨[b], rfl⟩ hm
          · exact rest (w ++ [b]) (.inr (Decoder.reads_step hp hw hst)) ⟨[], rfl⟩ hm
        · simp only [if_neg hn] at ho
          subst ho
          have hcl : d₁.dstate = .awaitingStart := by
            rcases hw with ⟨hd, -⟩ | hw
            · rw [decStep_start _ hd] at hst; cases hst; exact absurd rfl hn
            · exact decStep_output_dstate hst hn
          rcases List.mem_cons.mp hm with hm | hm
          · subst hm
            rcases hw with ⟨hd, -⟩ | hw
            · rw [decStep_start _ hd] at hst; cases hst
            · obtain ⟨r1, r2, r3⟩ := Decoder.reads_frame hw hst
              refine ⟨r2, r3, ?_⟩
              rw [← r1, show w ++ b :: bs = w ++ [b] ++ bs by simp]
              exact (List.prefix_append _ _).isInfix
          · exact rest [] (.inl ⟨hcl, rfl⟩) ⟨w ++ [b], by simp⟩ hm

end Sys2Proof.Machine
end

