-- ==== Sys2Proof/Laws/Step.lean ====
section
/-! SUPPORT. What `step` is, one lemma per kind of input event; what a chunk does to a machine that still awaits a response. -/

namespace Sys2Proof.Machine

variable {s : State} {rest : List Input}

theorem step_nil (h : s.inputs = []) : step s = .refused .noInput := by simp [step, h]

theorem step_start {sel : BitVec 4} {a : StartArgs} (h : s.inputs = .start sel a :: rest) :
    step s = exec (decodeStart sel a) { s with inputs := rest } := by simp [step, h, runInput]

theorem step_cancel (h : s.inputs = .cancel :: rest) : step s = exec .hostCancel { s with inputs := rest } := by
  simp [step, h, runInput]

theorem step_txDone (h : s.inputs = .txDone :: rest) : step s = onTxDone { s with inputs := rest } := by
  simp [step, h, runInput]

theorem step_txError {e : TransportErr} (h : s.inputs = .txError e :: rest) :
    step s = onTxError e { s with inputs := rest } := by simp [step, h, runInput]

theorem step_rxError {e : TransportErr} (h : s.inputs = .rxError e :: rest) :
    step s = onRxError e { s with inputs := rest } := by simp [step, h, runInput]

theorem step_tick (h : s.inputs = .tick :: rest) : step s = onTick { s with inputs := rest } := by
  simp [step, h, runInput]

theorem step_reset (h : s.inputs = .reset :: rest) : step s = onReset { s with inputs := rest } := by
  simp [step, h, runInput]

/-- A chunk while a read is armed. -/
theorem step_rxChunk {bytes : List Byte} (h : s.inputs = .rxChunk bytes :: rest) (he : s.estate = .awaitingResponse) :
    step s = feed bytes { s with inputs := rest } := by
  simp only [step, h, runInput, onRxChunk]
  exact if_pos he

/-- A chunk while no read is armed. -/
theorem step_rxChunk_stray {bytes : List Byte} (h : s.inputs = .rxChunk bytes :: rest) (he : s.estate ≠ .awaitingResponse) :
    step s = .refused .readNotArmed := by
  simp only [step, h, runInput, onRxChunk]
  exact if_neg he

/-- The selector of a command selects it (30_encoding.md R120). -/
theorem opOfSel_opSel (op : Op) : opOfSel (opSel op) = some op := by cases op <;> rfl

/-- The row of a legal selector is the shared meaning of `START` (45_engine.md R241, R242). -/
theorem exec_startInstr (op : Op) (a : StartArgs) (s : State) : exec (startInstr op a) s = startRow op a s := by
  cases op <;> rfl

/-- The row of a latched request is the shared meaning of a request. -/
theorem exec_requestInstr (op : Op) (fmt : Fmt) (arg : Word32) (s : State) :
    exec (requestInstr op fmt arg) s = requestRow (requestInstr op fmt arg) s := by
  cases op <;> rfl

/-- Every selector is a legal one or one of the four reserved rows (30_encoding.md R120). -/
theorem exec_decodeStart (sel : BitVec 4) (a : StartArgs) (s : State) :
    (∃ op, sel = opSel op ∧ exec (decodeStart sel a) s = startRow op a s) ∨
    exec (decodeStart sel a) s = reservedRow s := by
  cases h : opOfSel sel with
  | some op =>
    refine .inl ⟨op, ?_, by simp [decodeStart, h, exec_startInstr]⟩
    have : ∀ sel : BitVec 4, ∀ op, opOfSel sel = some op → sel = opSel op := by decide
    exact this sel op h
  | none =>
    right
    simp only [decodeStart, h]
    split_ifs <;> rfl

/-- `START`, in its three outcomes (45_engine.md R241, R242). -/
theorem startRow_cases (op : Op) (a : StartArgs) (s : State) :
    (s.estate ≠ .idle ∧ startRow op a s = .refused .startBusy) ∨
    (s.estate = .idle ∧ argsValid op a = true ∧ startRow op a s = .next (s.latch op a).send) ∨
    (s.estate = .idle ∧ argsValid op a = false ∧ startRow op a s = .next s.refuseStart) := by
  by_cases he : s.estate = .idle
  · cases ha : argsValid op a <;> simp [startRow, he, ha]
  · simp [startRow, he]

/-! ### What a step can do -/

/-- What a decoder output says of the decoder it leaves: an overflow names a length above `CAP` (43_frame_decode.md R177), a frame
is what the field registers and the buffer hold (R183). -/
def DecOut.sound (p : Params) (d : Decoder) : DecOut → Prop
  | .none => True
  | .frame addr cmd len q => addr = d.rxAddr ∧ cmd = d.rxCmd ∧ len = d.rxLen ∧ Memory.readN d.buf 0 len.toNat = some q
  | .error (.overflow n) => p.cap < n.toNat
  | .error (.framing _) => True
  | .error .checksum => True

/-- A decoder result whose output is sound. -/
def soundResult (p : Params) (r : Except Fault (Decoder × DecOut)) : Prop := ∀ d out, r = .ok (d, out) → out.sound p d

theorem soundResult_storeLen (p : Params) (v : Byte) (d : Decoder) : soundResult p (.ok (d.storeLen p v)) := by
  intro d' out h
  unfold Decoder.storeLen at h
  split_ifs at h <;> cases h <;> trivial

theorem soundResult_storePayload (p : Params) (v : Byte) (d : Decoder) : soundResult p (d.storePayload p v) := by
  intro d' out h
  unfold Decoder.storePayload at h
  split_ifs at h <;> cases h <;> trivial

theorem soundResult_fieldByte (p : Params) (v : Byte) (d : Decoder) : soundResult p (d.fieldByte p v) := by
  intro d' out h
  unfold Decoder.fieldByte at h
  split at h
  case h_4 => exact soundResult_storeLen p v d d' out h
  case h_5 => exact soundResult_storePayload p v d d' out h
  all_goals cases h; trivial

theorem soundResult_complete (p : Params) (d : Decoder) : soundResult p d.complete := by
  intro d' out h
  unfold Decoder.complete at h
  split at h
  · cases h
  · rename_i q hq
    split at h <;> cases h
    · exact ⟨rfl, rfl, rfl, hq⟩
    · trivial

/-- What a raw-byte row that has a step has done. -/
theorem rawRow_next {ctx : Bool} {r : Except Fault (Decoder × DecOut)} {t : State} (hr : soundResult s.par r)
    (h : rawRow ctx r s = .next t) :
    s.estate = .awaitingResponse ∧ ∃ d out, out.sound s.par d ∧ t = { s with dec := d }.react out := by
  unfold rawRow at h
  split at h
  · rename_i he
    split at h
    · refine ⟨he, ?_⟩
      match r, hr, h with
      | .ok (d, out), hr, h => cases h; exact ⟨d, out, hr d out rfl, rfl⟩
    · cases h
  · cases h

/-- What a raw byte that has a step has done. -/
theorem exec_raw_next {i : Instr} {b : Byte} {t : State} (hi : rawByte s.par i = some b) (h : exec i s = .next t) :
    s.estate = .awaitingResponse ∧ ∃ d out, out.sound s.par d ∧ t = { s with dec := d }.react out := by
  have silent : ∀ d : Decoder, soundResult s.par (.ok (d, .none)) := by intro d d' out h; cases h; trivial
  have framing : ∀ (d : Decoder) sub, soundResult s.par (.ok (d.resync (.framing sub))) := by
    intro d sub d' out h; cases h; trivial
  cases i <;> simp only [rawByte, reduceCtorEq] at hi
  case rawDelimOpen => exact rawRow_next (silent _) h
  case rawOtherIdle => exact rawRow_next (silent _) h
  case rawDelimMidframe => exact rawRow_next (framing _ _) h
  case rawDelimClose => exact rawRow_next (soundResult_complete _ _) h
  case rawOtherStop => exact rawRow_next (framing _ _) h
  case rawEsc => exact rawRow_next (silent _) h
  case escapedDelim => exact rawRow_next (soundResult_fieldByte _ _ _) h
  case escapedEsc => exact rawRow_next (soundResult_fieldByte _ _ _) h
  case escapedFc1 => exact rawRow_next (soundResult_fieldByte _ _ _) h
  case escapedFc2 => exact rawRow_next (soundResult_fieldByte _ _ _) h
  case escapedIllegal => exact rawRow_next (framing _ _) h
  case rawFc1 => exact rawRow_next (framing _ _) h
  case rawFc2 => exact rawRow_next (framing _ _) h
  case rawDataAddr => exact rawRow_next (silent _) h
  case rawDataCmd => exact rawRow_next (silent _) h
  case rawDataLen => exact rawRow_next (soundResult_storeLen _ _ _) h
  case rawDataPayload => exact rawRow_next (soundResult_storePayload _ _ _) h
  case rawDataChk => exact rawRow_next (silent _) h

/-- The row of a raw byte is a raw-byte row, whatever the parameters. -/
theorem rawByte_decodeRaw (p : Params) (ds : DState) (esc : Bool) (b : Byte) : ∃ b', rawByte p (decodeRaw p ds esc b) = some b' := by
  cases ds <;> simp only [decodeRaw, decodeField, decodeEscaped] <;> split_ifs <;> exact ⟨_, rfl⟩

/-- What a chunk that has a step has done: its bytes were consumed silently, or up to the one that reported something. -/
theorem feed_next (bytes : List Byte) {t : State} (he : s.estate = .awaitingResponse) (h : feed bytes s = .next t) :
    (∃ d, t = { s with dec := d }) ∨
    ∃ d out, out ≠ .none ∧ out.sound s.par d ∧ t = { s with dec := d }.react out := by
  induction bytes generalizing s with
  | nil => cases h; exact .inl ⟨t.dec, rfl⟩
  | cons b bs ih =>
    simp only [feed] at h
    cases hx : exec (s.rawInstr b) s with
    | fault f => simp [hx] at h
    | refused r => simp [hx] at h
    | next u =>
      obtain ⟨b', hb⟩ := rawByte_decodeRaw s.par s.dec.dstate s.dec.esc b
      obtain ⟨-, d, out, ho, rfl⟩ := exec_raw_next hb hx
      simp only [hx] at h
      by_cases hn : out = .none
      · subst hn
        rw [State.react_none, if_pos (by exact he)] at h
        exact ih (s := { s with dec := d }) he h
      · rw [if_neg (fun hc => hn ((State.react_estate _ out (by exact he)).mp hc))] at h
        cases h
        exact .inr ⟨d, out, hn, ho, rfl⟩

/-- Everything a step can do when it answers a next state. -/
theorem step_next_cases {t : State} (h : step s = .next t) :
    ∃ e rest, s.inputs = e :: rest ∧
      let s₀ := { s with inputs := rest }
      match e with
      | .start sel a =>
        s.estate = .idle ∧ ((∃ op, sel = opSel op ∧ argsValid op a = true ∧ t = (s₀.latch op a).send) ∨ t = s₀.refuseStart)
      | .cancel => (s.estate = .idle ∧ t = s₀) ∨ (s.estate ≠ .idle ∧ t = { s₀.decClear with estate := .idle })
      | .txDone => s.estate = .sending ∧ t = { s₀ with deadline := s.cfgTimeout, estate := .awaitingResponse }
      | .txError e => s.estate = .sending ∧ t = s₀.ended (.err (.transportError e))
      | .rxChunk _ =>
        s.estate = .awaitingResponse ∧
        ((∃ d, t = { s₀ with dec := d }) ∨
          ∃ d out, out ≠ .none ∧ out.sound s.par d ∧ t = { s₀ with dec := d }.react out)
      | .rxError e => s.estate = .awaitingResponse ∧ t = s₀.ended (.err (.transportError e))
      | .tick =>
        (s.estate = .awaitingResponse ∧ s.deadline = 1#32 ∧ t = s₀.failed .timeout) ∨
        (s.estate = .awaitingResponse ∧ s.deadline ≠ 1#32 ∧ t = { s₀ with deadline := s.deadline - 1#32 }) ∨
        (s.estate ≠ .awaitingResponse ∧ t = s₀)
      | .reset => t = { s₀.decClear with estate := .idle, attempt := 0#8, lastCause := none } := by
  cases hi : s.inputs with
  | nil => rw [step_nil hi] at h; cases h
  | cons e rest =>
    refine ⟨e, rest, rfl, ?_⟩
    cases e with
    | start sel a =>
      rw [step_start hi] at h
      rcases exec_decodeStart sel a { s with inputs := rest } with ⟨op, ho, h1⟩ | h1 <;> rw [h1] at h
      · rcases startRow_cases op a { s with inputs := rest } with ⟨-, h2⟩ | ⟨he, ha, h2⟩ | ⟨he, -, h2⟩ <;> rw [h2] at h <;> cases h
        · exact ⟨he, .inl ⟨op, ho, ha, rfl⟩⟩
        · exact ⟨he, .inr rfl⟩
      · unfold reservedRow at h
        split at h <;> cases h
        rename_i he
        exact ⟨he, .inr rfl⟩
    | cancel =>
      rw [step_cancel hi] at h
      simp only [exec, execHostCancel] at h
      split at h <;> cases h
      · rename_i he; exact .inl ⟨he, rfl⟩
      · rename_i he; exact .inr ⟨he, rfl⟩
    | txDone =>
      rw [step_txDone hi] at h
      unfold onTxDone at h
      split at h <;> cases h
      rename_i he; exact ⟨he, rfl⟩
    | txError e =>
      rw [step_txError hi] at h
      unfold onTxError at h
      split at h <;> cases h
      rename_i he; exact ⟨he, rfl⟩
    | rxError e =>
      rw [step_rxError hi] at h
      unfold onRxError at h
      split at h <;> cases h
      rename_i he; exact ⟨he, rfl⟩
    | rxChunk bytes =>
      by_cases he : s.estate = .awaitingResponse
      · rw [step_rxChunk hi he] at h
        exact ⟨he, feed_next bytes (by exact he) h⟩
      · rw [step_rxChunk_stray hi he] at h; cases h
    | reset => rw [step_reset hi] at h; cases h; rfl
    | tick =>
      rw [step_tick hi] at h
      unfold onTick at h
      split at h
      · rename_i he
        split at h
        · rename_i hd; cases h; exact .inl ⟨he, hd, State.failAttempt_eq_failed _ _⟩
        · rename_i hd; cases h; exact .inr (.inl ⟨he, hd, rfl⟩)
      · rename_i he; cases h; exact .inr (.inr ⟨he, rfl⟩)

end Sys2Proof.Machine
end

