-- ==== Sys2Proof/Laws/Invariant.lean ====
section
/-! SUPPORT. The decoder's invariant through one decoder step, and the machine's invariant through the engine's updates. -/

namespace Sys2Proof.Machine

/-- A cleared decoder keeps the invariant: only its buffer matters. -/
theorem Decoder.Inv.of_scanning {p : Params} {d d' : Decoder} (h : d.Inv p) (hb : d'.buf = d.buf)
    (hd : d'.dstate = .awaitingStart) (he : d'.esc = false) (hr : d'.remaining = 0#8) : d'.Inv p where
  buf_wf := hb ▸ h.buf_wf
  buf_bound := hb ▸ h.buf_bound
  esc_field := by simp [he]
  remaining_zero := fun _ => hr
  payload_count := by simp [hd]
  payload_stored := by simp [hd]
  frame_stored := by simp [hd]

theorem Decoder.Inv.clear {p : Params} {d : Decoder} (h : d.Inv p) : d.clear.Inv p := h.of_scanning rfl rfl rfl rfl

/-- The invariant of a field byte (43_frame_decode.md R175 to R180): it never faults, and what it leaves keeps the invariant. -/
theorem Decoder.Inv.fieldByte {p : Params} {d : Decoder} (h : d.Inv p) (hf : d.dstate.inField = true) (v : Byte) :
    ∃ d' out, d.fieldByte p v = .ok (d', out) ∧ d'.Inv p ∧ (out ≠ .none → d'.cleared) := by
  obtain ⟨wf, bound, -, rz, pc, ps, fs⟩ := h
  unfold Decoder.fieldByte
  cases hd : d.dstate <;> simp only
  case awaitingStart => simp [hd, DState.inField] at hf
  case awaitingStop => simp [hd, DState.inField] at hf
  case readingAddress =>
    exact ⟨_, _, rfl, ⟨wf, bound, by simp, fun _ => rz (by simp [hd]), by simp, by simp, by simp⟩, by simp⟩
  case readingCommand =>
    exact ⟨_, _, rfl, ⟨wf, bound, by simp, fun _ => rz (by simp [hd]), by simp, by simp, by simp⟩, by simp⟩
  case readingLength =>
    by_cases h1 : p.cap < v.toNat
    · rw [Decoder.storeLen_overflow _ h1]
      exact ⟨_, _, rfl, ⟨wf, bound, by simp, by simp, by simp, by simp, by simp⟩, fun _ => ⟨rfl, rfl, rfl⟩⟩
    · by_cases h2 : v = 0#8
      · subst h2
        rw [Decoder.storeLen_zero]
        exact ⟨_, _, rfl, ⟨wf, bound, by simp, by simp, by simp, by simp, fun _ => ⟨by simp, fun i hi => by simp at hi⟩⟩,
          by simp⟩
      · rw [Decoder.storeLen_pos _ (by omega) h2]
        have : 1 ≤ v.toNat := by
          rcases Nat.eq_zero_or_pos v.toNat with h | h
          · exact absurd (BitVec.eq_of_toNat_eq (by simpa using h)) h2
          · exact h
        refine ⟨_, _, rfl, ⟨wf, bound, by simp, by simp, fun _ => ⟨this, le_refl _, Nat.le_of_not_lt h1⟩, fun _ i hi => ?_, by simp⟩,
          by simp⟩
        simp [Decoder.payloadIndex] at hi
  case readingPayload =>
    obtain ⟨h1, h2, h3⟩ := pc hd
    have hpi : d.payloadIndex < p.cap := by unfold Decoder.payloadIndex; omega
    rw [Decoder.storePayload_eq v hd h1 h2 h3]
    refine ⟨_, _, rfl, ⟨Memory.write_wf wf _ _, Memory.write_bound bound hpi, by simp, ?_, ?_, ?_, ?_⟩, by simp⟩
    · intro hne
      by_cases h5 : d.remaining = 1#8
      · simp [h5]
      · simp [h5] at hne
    · intro he
      have h5 : d.remaining ≠ 1#8 := fun h5 => by simp [h5] at he
      have : d.remaining.toNat ≠ 1 := fun e => h5 (BitVec.eq_of_toNat_eq (by simpa using e))
      have := d.remaining.isLt
      simp only [BitVec.toNat_sub, BitVec.toNat_ofNat]
      omega
    · intro he
      have h5 : d.remaining ≠ 1#8 := fun h5 => by simp [h5] at he
      have h6 : d.remaining.toNat ≠ 1 := fun e => h5 (BitVec.eq_of_toNat_eq (by simpa using e))
      have := Memory.filled_write (ps hd) v
      have e : d.rxLen.toNat - (d.remaining - 1#8).toNat = d.payloadIndex + 1 := by
        have := d.remaining.isLt
        simp only [BitVec.toNat_sub, BitVec.toNat_ofNat, Decoder.payloadIndex]
        omega
      exact fun i hi => this i (e ▸ hi)
    · intro he
      have h5 : d.remaining = 1#8 := by
        by_contra h5
        simp [h5] at he
      refine ⟨h3, ?_⟩
      have := Memory.filled_write (ps hd) v
      have e : d.rxLen.toNat = d.payloadIndex + 1 := by
        simp only [h5] at h2
        simp [Decoder.payloadIndex, h5] at h2 ⊢
        omega
      exact fun i hi => this i (e ▸ hi)
  case readingChecksum =>
    exact ⟨_, _, rfl, ⟨wf, bound, by simp, fun _ => rz (by simp [hd]), by simp, by simp, fun _ => fs (.inl hd)⟩, by simp⟩

/-- The frame completion never faults under the invariant (43_frame_decode.md R187). -/
theorem Decoder.Inv.complete {p : Params} {d : Decoder} (h : d.Inv p) (hd : d.dstate = .awaitingStop) :
    ∃ out, d.complete = .ok (d.clear, out) := by
  obtain ⟨q, hq, -⟩ := Memory.readN_of_filled (h.frame_stored (.inr hd)).2
  exact ⟨_, Decoder.complete_eq hq⟩

/-- One decoder step under the invariant: no fault, the invariant again, and a cleared decoder whenever something is reported. -/
theorem Decoder.Inv.step {p : Params} {d : Decoder} (h : d.Inv p) (b : Byte) :
    ∃ d' out, decStep p d b = .ok (d', out) ∧ d'.Inv p ∧ (out ≠ .none → d'.cleared) := by
  rcases dstate_cases d.dstate with hd | hd | hd
  · rw [decStep_start _ hd]
    have he : d.esc = false := by
      cases he : d.esc with
      | false => rfl
      | true => have := h.esc_field he; simp [hd, DState.inField] at this
    refine ⟨_, _, rfl, ?_, by simp⟩
    split
    · exact ⟨h.buf_wf, h.buf_bound, by simp, fun _ => h.remaining_zero (by simp [hd]), by simp, by simp, by simp⟩
    · exact h
  · by_cases hb : b = p.delim
    · subst hb
      rw [decStep_close hd]
      obtain ⟨out, hc⟩ := h.complete hd
      exact ⟨_, _, hc, h.clear, fun _ => d.clear_cleared⟩
    · rw [decStep_stop hd hb]
      exact ⟨_, _, rfl, h.clear, fun _ => d.clear_cleared⟩
  · by_cases hb : b = p.delim
    · subst hb
      rw [decStep_delim hd]
      exact ⟨_, _, rfl, h.clear, fun _ => d.clear_cleared⟩
    · rw [decStep_field hd hb]
      rcases destuffStep_cases p d.esc b with ⟨-, -, h3⟩ | ⟨-, -, h3⟩ | ⟨-, -, h3⟩ | ⟨-, -, -, h3⟩ | ⟨-, -, -, -, h3⟩ <;>
        rw [h3]
      · exact h.fieldByte hd _
      · exact ⟨_, _, rfl, h.clear, fun _ => d.clear_cleared⟩
      · exact ⟨_, _, rfl, ⟨h.buf_wf, h.buf_bound, fun _ => hd, h.remaining_zero, h.payload_count, h.payload_stored,
          h.frame_stored⟩, by simp⟩
      · exact ⟨_, _, rfl, h.clear, fun _ => d.clear_cleared⟩
      · exact h.fieldByte hd _

/-! ### The machine's invariant -/

/-- Adding an event to the history, or taking one off the input stream, keeps the invariant. -/
theorem State.Inv.streams {s : State} (h : s.Inv) (inputs : List Input) (outputs : List Output) :
    ({ s with inputs := inputs, outputs := outputs } : State).Inv :=
  ⟨h.par_valid, h.dec_inv, h.resting, h.dec_cleared, h.attempt_le, h.attempt_lt, h.latched_valid, h.cause_iff, h.deadline_range⟩

/-- A decoder that keeps its invariant, while a response is awaited. -/
theorem State.Inv.decoder {s : State} (h : s.Inv) (he : s.estate = .awaitingResponse) {d : Decoder} (hd : d.Inv s.par) :
    ({ s with dec := d } : State).Inv :=
  ⟨h.par_valid, hd, h.resting, fun hn => absurd he hn, h.attempt_le, h.attempt_lt, h.latched_valid, h.cause_iff, h.deadline_range⟩

/-- The end of an exchange keeps the invariant. -/
theorem State.Inv.ended {s : State} (h : s.Inv) (r : Result) : (s.ended r).Inv where
  par_valid := h.par_valid
  dec_inv := h.dec_inv.clear
  resting := .inl rfl
  dec_cleared := fun _ => s.dec.clear_cleared
  attempt_le := h.attempt_le
  attempt_lt := by simp
  latched_valid := by simp
  cause_iff := by simp
  deadline_range := by simp

/-- `attempt + 1` does not wrap while an exchange is in flight. -/
theorem State.Inv.toNat_attempt_succ {s : State} (h : s.Inv) (he : s.estate ≠ .idle) :
    (s.attempt + 1#8).toNat = s.attempt.toNat + 1 := by
  have := h.attempt_lt he
  have := s.cfgMaxAttempts.isLt
  simp only [BitVec.toNat_add, BitVec.toNat_ofNat]
  omega

/-- A failed attempt keeps the invariant. -/
theorem State.Inv.failed {s : State} (h : s.Inv) (he : s.estate ≠ .idle) (c : ErrorRecord) : (s.failed c).Inv := by
  have hlt := h.attempt_lt he
  have hsucc := h.toNat_attempt_succ he
  have hne : s.attempt + 1#8 ≠ 0#8 := by
    intro e
    have := congrArg BitVec.toNat e
    rw [hsucc] at this
    simp at this
  unfold State.failed
  split
  · rename_i hr
    exact ⟨h.par_valid, h.dec_inv.clear, .inr (.inl rfl), fun _ => s.dec.clear_cleared,
      by show (s.attempt + 1#8).toNat ≤ _; rw [hsucc]; exact le_of_lt hr,
      fun _ => by show (s.attempt + 1#8).toNat < _; rw [hsucc]; exact hr,
      fun _ => h.latched_valid he,
      fun _ => by simp [State.retried, hne], by simp [State.retried]⟩
  · exact ⟨h.par_valid, h.dec_inv.clear, .inl rfl, fun _ => s.dec.clear_cleared,
      by show (s.attempt + 1#8).toNat ≤ _; rw [hsucc]; exact hlt,
      by simp [State.exhausted], by simp [State.exhausted], by simp [State.exhausted], by simp [State.exhausted]⟩

/-- The engine's reaction to a decoder output keeps the invariant. -/
theorem State.Inv.react {s : State} (h : s.Inv) (he : s.estate = .awaitingResponse) (out : DecOut) : (s.react out).Inv := by
  have hne : s.estate ≠ .idle := by simp [he]
  rcases s.react_cases out with ⟨-, hr⟩ | ⟨_, _, _, _, -, -, hr⟩ | ⟨_, _, _, _, _, -, -, hr⟩ | ⟨_, -, hr⟩ | ⟨-, hr⟩ |
    ⟨_, -, hr⟩ <;> rw [hr]
  · exact h
  · exact h.ended _
  · exact h.failed hne _
  · exact h.failed hne _
  · exact h.failed hne _
  · exact h.ended _

/-- An accepted `START` establishes the invariant of an exchange (45_engine.md R242, R243). -/
theorem State.Inv.start {s : State} (h : s.Inv) {op : Op} {a : StartArgs} (ha : argsValid op a = true) :
    ((s.latch op a).send).Inv := by
  have hm : 0 < a.maxAttempts.toNat := by
    have : a.maxAttempts ≠ 0#8 := by
      intro e
      simp [argsValid, e] at ha
    rcases Nat.eq_zero_or_pos a.maxAttempts.toNat with e | e
    · exact absurd (BitVec.eq_of_toNat_eq (by simpa using e)) this
    · exact e
  refine ⟨h.par_valid, h.dec_inv.clear, .inr (.inl rfl), fun _ => s.dec.clear_cleared, ?_, fun _ => ?_, fun _ => ha,
    fun _ => by simp [State.send, State.latch, State.emit], by simp [State.send]⟩
  · show (0#8 : Byte).toNat ≤ a.maxAttempts.toNat; simp
  · show (0#8 : Byte).toNat < a.maxAttempts.toNat; simpa using hm

end Sys2Proof.Machine
end

