-- ==== Sys2Proof/Laws/PerInstr.lean ====
section
/-! SUPPORT. The family `TableWord`: the encoding of each instruction under the parameter defaults is the row of
spec/opcode_table.json. `tableRow` is that table, transcribed; each lemma compares the encoder with its row. -/

namespace Sys2Proof.Laws.TableWord

/-- A row: its mnemonic, `match` and `mask` over the header word of a frame, over a raw byte, or over `op_sel`. A row with the
pattern `vvvvvvvv` or `xxxx` fixes no bit. -/
structure Row where
  mnemonic : String
  width : Nat
  mask : Nat
  pattern : Nat
  deriving DecidableEq, Repr

/-- The table, one line per row. -/
def tableRow : Instr → Row
  | .startMeas _ => ⟨"START_MEAS", 24, 0xFFFFFF, 0x000001⟩
  | .stopMeas => ⟨"STOP_MEAS", 24, 0xFFFFFF, 0x000100⟩
  | .readMeas => ⟨"READ_MEAS", 24, 0xFFFFFF, 0x000300⟩
  | .sleep => ⟨"SLEEP", 24, 0xFFFFFF, 0x001000⟩
  | .wakeUp => ⟨"WAKE_UP", 24, 0xFFFFFF, 0x001100⟩
  | .fanClean => ⟨"FAN_CLEAN", 24, 0xFFFFFF, 0x005600⟩
  | .readInterval => ⟨"READ_INTERVAL", 24, 0xFFFFFF, 0x008000⟩
  | .writeInterval _ => ⟨"WRITE_INTERVAL", 24, 0xFFFFFF, 0x008004⟩
  | .devInfo _ => ⟨"DEV_INFO", 24, 0xFFFFFF, 0x00D001⟩
  | .readVersion => ⟨"READ_VERSION", 24, 0xFFFFFF, 0x00D100⟩
  | .readStatus _ => ⟨"READ_STATUS", 24, 0xFFFFFF, 0x00D201⟩
  | .reset => ⟨"RESET", 24, 0xFFFFFF, 0x00D300⟩
  | .rspStartMeas => ⟨"RSP.START_MEAS", 24, 0xFFFFFF, 0x000000⟩
  | .rspStopMeas => ⟨"RSP.STOP_MEAS", 24, 0xFFFFFF, 0x000100⟩
  | .rspReadMeasFloat _ => ⟨"RSP.READ_MEAS.FLOAT", 24, 0xFFFFFF, 0x000328⟩
  | .rspReadMeasFixed _ => ⟨"RSP.READ_MEAS.FIXED", 24, 0xFFFFFF, 0x000314⟩
  | .rspSleep => ⟨"RSP.SLEEP", 24, 0xFFFFFF, 0x001000⟩
  | .rspWakeUp => ⟨"RSP.WAKE_UP", 24, 0xFFFFFF, 0x001100⟩
  | .rspFanClean => ⟨"RSP.FAN_CLEAN", 24, 0xFFFFFF, 0x005600⟩
  | .rspReadInterval _ => ⟨"RSP.READ_INTERVAL", 24, 0xFFFFFF, 0x008004⟩
  | .rspWriteInterval _ => ⟨"RSP.WRITE_INTERVAL", 24, 0xFFFFFF, 0x008004⟩
  | .rspDevInfo _ => ⟨"RSP.DEV_INFO", 24, 0xFFFF00, 0x00D000⟩
  | .rspReadVersion _ => ⟨"RSP.READ_VERSION", 24, 0xFFFFFF, 0x00D107⟩
  | .rspReadStatus _ => ⟨"RSP.READ_STATUS", 24, 0xFFFFFF, 0x00D205⟩
  | .rspReset => ⟨"RSP.RESET", 24, 0xFFFFFF, 0x00D300⟩
  | .rawDelimOpen => ⟨"RAW.DELIM.OPEN", 8, 0xFF, 0x7E⟩
  | .rawOtherIdle _ => ⟨"RAW.OTHER.IDLE", 8, 0x00, 0x00⟩
  | .rawDelimMidframe => ⟨"RAW.DELIM.MIDFRAME", 8, 0xFF, 0x7E⟩
  | .rawDelimClose => ⟨"RAW.DELIM.CLOSE", 8, 0xFF, 0x7E⟩
  | .rawOtherStop _ => ⟨"RAW.OTHER.STOP", 8, 0x00, 0x00⟩
  | .rawEsc => ⟨"RAW.ESC", 8, 0xFF, 0x7D⟩
  | .escapedDelim => ⟨"ESCAPED.DELIM", 8, 0xFF, 0x5E⟩
  | .escapedEsc => ⟨"ESCAPED.ESC", 8, 0xFF, 0x5D⟩
  | .escapedFc1 => ⟨"ESCAPED.FC1", 8, 0xFF, 0x31⟩
  | .escapedFc2 => ⟨"ESCAPED.FC2", 8, 0xFF, 0x33⟩
  | .escapedIllegal _ => ⟨"ESCAPED.ILLEGAL", 8, 0x00, 0x00⟩
  | .rawFc1 => ⟨"RAW.FC1", 8, 0xFF, 0x11⟩
  | .rawFc2 => ⟨"RAW.FC2", 8, 0xFF, 0x13⟩
  | .rawDataAddr _ => ⟨"RAW.DATA.ADDR", 8, 0x00, 0x00⟩
  | .rawDataCmd _ => ⟨"RAW.DATA.CMD", 8, 0x00, 0x00⟩
  | .rawDataLen _ => ⟨"RAW.DATA.LEN", 8, 0x00, 0x00⟩
  | .rawDataPayload _ => ⟨"RAW.DATA.PAYLOAD", 8, 0x00, 0x00⟩
  | .rawDataChk _ => ⟨"RAW.DATA.CHK", 8, 0x00, 0x00⟩
  | .hostStartStartMeas _ => ⟨"HOST.START.START_MEAS", 4, 0xF, 0x0⟩
  | .hostStartStopMeas _ => ⟨"HOST.START.STOP_MEAS", 4, 0xF, 0x1⟩
  | .hostStartReadMeas _ => ⟨"HOST.START.READ_MEAS", 4, 0xF, 0x2⟩
  | .hostStartSleep _ => ⟨"HOST.START.SLEEP", 4, 0xF, 0x3⟩
  | .hostStartWakeUp _ => ⟨"HOST.START.WAKE_UP", 4, 0xF, 0x4⟩
  | .hostStartFanClean _ => ⟨"HOST.START.FAN_CLEAN", 4, 0xF, 0x5⟩
  | .hostStartReadInterval _ => ⟨"HOST.START.READ_INTERVAL", 4, 0xF, 0x6⟩
  | .hostStartWriteInterval _ => ⟨"HOST.START.WRITE_INTERVAL", 4, 0xF, 0x7⟩
  | .hostStartDevInfo _ => ⟨"HOST.START.DEV_INFO", 4, 0xF, 0x8⟩
  | .hostStartReadVersion _ => ⟨"HOST.START.READ_VERSION", 4, 0xF, 0x9⟩
  | .hostStartReadStatus _ => ⟨"HOST.START.READ_STATUS", 4, 0xF, 0xA⟩
  | .hostStartReset _ => ⟨"HOST.START.RESET", 4, 0xF, 0xB⟩
  | .hostStartReserved12 _ => ⟨"HOST.START.RESERVED12", 4, 0xF, 0xC⟩
  | .hostStartReserved13 _ => ⟨"HOST.START.RESERVED13", 4, 0xF, 0xD⟩
  | .hostStartReserved14 _ => ⟨"HOST.START.RESERVED14", 4, 0xF, 0xE⟩
  | .hostStartReserved15 _ => ⟨"HOST.START.RESERVED15", 4, 0xF, 0xF⟩
  | .hostCancel => ⟨"HOST.CANCEL", 4, 0x0, 0x0⟩

/-- The word of an encoding: its header word, raw byte or selector, with its width. -/
def codeWord : Code → Option (Nat × Nat)
  | .request body => (bodyHeader body).map fun h => (24, h.toNat)
  | .response _ _ body => (bodyHeader body).map fun h => (24, h.toNat)
  | .raw _ _ b => some (8, b.toNat)
  | .start sel _ => some (4, sel.toNat)
  | .cancel => some (4, 0)

/-- A well-formed instruction is encoded by a word of its row (30_encoding.md R101, R102). -/
def Statement (i : Instr) : Prop :=
  i.wellFormed Params.default = true →
    ∃ w, codeWord (encode Params.default i) = some ((tableRow i).width, w) ∧
      w &&& (tableRow i).mask = (tableRow i).pattern

/-- The header word of a frame body, as a number. -/
theorem headerWord_toNat (addr cmd len : Byte) :
    (headerWord addr cmd len).toNat = addr.toNat * 2 ^ 16 + cmd.toNat * 2 ^ 8 + len.toNat := by
  have hc := cmd.isLt
  have hl := len.isLt
  unfold headerWord
  simp only [BitVec.toNat_append]
  rw [← Nat.shiftLeft_add_eq_or_of_lt hc, ← Nat.shiftLeft_add_eq_or_of_lt hl]
  simp only [Nat.shiftLeft_eq]
  omega

/-- The statement of a response row whose payload length is fixed. -/
theorem of_length {i : Instr} {op : Op} {fmt : Fmt} {q : List Byte} {n : Nat}
    (he : encode Params.default i = responseBody Params.default op fmt q) (hw : (tableRow i).width = 24) (hq : q.length = n)
    (hv : (headerWord Params.default.addr0 (cmdOf Params.default op) (BitVec.ofNat 8 n)).toNat &&& (tableRow i).mask =
      (tableRow i).pattern) :
    Statement i := by
  intro _
  refine ⟨_, ?_, hv⟩
  rw [he, hw, ← hq]
  rfl

theorem startMeas (x : Fmt) : Statement (.startMeas x) := fun _ => ⟨_, rfl, by cases x <;> decide⟩

theorem stopMeas : Statement .stopMeas := fun _ => ⟨_, rfl, by decide⟩

theorem readMeas : Statement .readMeas := fun _ => ⟨_, rfl, by decide⟩

theorem sleep : Statement .sleep := fun _ => ⟨_, rfl, by decide⟩

theorem wakeUp : Statement .wakeUp := fun _ => ⟨_, rfl, by decide⟩

theorem fanClean : Statement .fanClean := fun _ => ⟨_, rfl, by decide⟩

theorem readInterval : Statement .readInterval := fun _ => ⟨_, rfl, by decide⟩

theorem writeInterval (x : Word32) : Statement (.writeInterval x) := by
  have h : (headerWord 0x00#8 0x80#8 4#8).toNat &&& 0xFFFFFF = 0x008004 := by decide
  exact fun _ => ⟨_, rfl, h⟩

theorem devInfo (x : Byte) : Statement (.devInfo x) := by
  have h : (headerWord 0x00#8 0xD0#8 1#8).toNat &&& 0xFFFFFF = 0x00D001 := by decide
  exact fun _ => ⟨_, rfl, h⟩

theorem readVersion : Statement .readVersion := fun _ => ⟨_, rfl, by decide⟩

theorem readStatus (x : Bool) : Statement (.readStatus x) := fun _ => ⟨_, rfl, by cases x <;> decide⟩

theorem reset : Statement .reset := fun _ => ⟨_, rfl, by decide⟩

theorem rspStartMeas : Statement .rspStartMeas := fun _ => ⟨_, rfl, by decide⟩

theorem rspStopMeas : Statement .rspStopMeas := fun _ => ⟨_, rfl, by decide⟩

theorem rspReadMeasFloat (q : List Byte) : Statement (.rspReadMeasFloat q) := by
  have h : (headerWord 0x00#8 0x03#8 40#8).toNat &&& 0xFFFFFF = 0x000328 := by decide
  intro hw
  exact of_length (n := 40) rfl rfl (by simpa [Instr.wellFormed, Params.default] using hw) h hw

theorem rspReadMeasFixed (q : List Byte) : Statement (.rspReadMeasFixed q) := by
  have h : (headerWord 0x00#8 0x03#8 20#8).toNat &&& 0xFFFFFF = 0x000314 := by decide
  intro hw
  exact of_length (n := 20) rfl rfl (by simpa [Instr.wellFormed, Params.default] using hw) h hw

theorem rspSleep : Statement .rspSleep := fun _ => ⟨_, rfl, by decide⟩

theorem rspWakeUp : Statement .rspWakeUp := fun _ => ⟨_, rfl, by decide⟩

theorem rspFanClean : Statement .rspFanClean := fun _ => ⟨_, rfl, by decide⟩

theorem rspReadInterval (q : List Byte) : Statement (.rspReadInterval q) := by
  have h : (headerWord 0x00#8 0x80#8 4#8).toNat &&& 0xFFFFFF = 0x008004 := by decide
  intro hw
  exact of_length (n := 4) rfl rfl (by simpa [Instr.wellFormed, Params.default] using hw) h hw

theorem rspWriteInterval (q : List Byte) : Statement (.rspWriteInterval q) := by
  have h : (headerWord 0x00#8 0x80#8 4#8).toNat &&& 0xFFFFFF = 0x008004 := by decide
  intro hw
  exact of_length (n := 4) rfl rfl (by simpa [Instr.wellFormed, Params.default] using hw) h hw

theorem rspDevInfo (q : List Byte) : Statement (.rspDevInfo q) := by
  intro _
  refine ⟨_, rfl, ?_⟩
  have key : ∀ len : Byte, (headerWord 0x00#8 0xD0#8 len).toNat &&& 0xFFFF00 = 0x00D000 := by decide
  exact key _

theorem rspReadVersion (q : List Byte) : Statement (.rspReadVersion q) := by
  have h : (headerWord 0x00#8 0xD1#8 7#8).toNat &&& 0xFFFFFF = 0x00D107 := by decide
  intro hw
  exact of_length (n := 7) rfl rfl (by simpa [Instr.wellFormed, Params.default] using hw) h hw

theorem rspReadStatus (q : List Byte) : Statement (.rspReadStatus q) := by
  have h : (headerWord 0x00#8 0xD2#8 5#8).toNat &&& 0xFFFFFF = 0x00D205 := by decide
  intro hw
  exact of_length (n := 5) rfl rfl (by simpa [Instr.wellFormed, Params.default] using hw) h hw

theorem rspReset : Statement .rspReset := fun _ => ⟨_, rfl, by decide⟩

theorem rawDelimOpen : Statement .rawDelimOpen := fun _ => ⟨_, rfl, by decide⟩

theorem rawOtherIdle (x : Byte) : Statement (.rawOtherIdle x) := fun _ => ⟨_, rfl, Nat.and_zero _⟩

theorem rawDelimMidframe : Statement .rawDelimMidframe := fun _ => ⟨_, rfl, by decide⟩

theorem rawDelimClose : Statement .rawDelimClose := fun _ => ⟨_, rfl, by decide⟩

theorem rawOtherStop (x : Byte) : Statement (.rawOtherStop x) := fun _ => ⟨_, rfl, Nat.and_zero _⟩

theorem rawEsc : Statement .rawEsc := fun _ => ⟨_, rfl, by decide⟩

theorem escapedDelim : Statement .escapedDelim := fun _ => ⟨_, rfl, by decide⟩

theorem escapedEsc : Statement .escapedEsc := fun _ => ⟨_, rfl, by decide⟩

theorem escapedFc1 : Statement .escapedFc1 := fun _ => ⟨_, rfl, by decide⟩

theorem escapedFc2 : Statement .escapedFc2 := fun _ => ⟨_, rfl, by decide⟩

theorem escapedIllegal (x : Byte) : Statement (.escapedIllegal x) := fun _ => ⟨_, rfl, Nat.and_zero _⟩

theorem rawFc1 : Statement .rawFc1 := fun _ => ⟨_, rfl, by decide⟩

theorem rawFc2 : Statement .rawFc2 := fun _ => ⟨_, rfl, by decide⟩

theorem rawDataAddr (x : Byte) : Statement (.rawDataAddr x) := fun _ => ⟨_, rfl, Nat.and_zero _⟩

theorem rawDataCmd (x : Byte) : Statement (.rawDataCmd x) := fun _ => ⟨_, rfl, Nat.and_zero _⟩

theorem rawDataLen (x : Byte) : Statement (.rawDataLen x) := fun _ => ⟨_, rfl, Nat.and_zero _⟩

theorem rawDataPayload (x : Byte) : Statement (.rawDataPayload x) := fun _ => ⟨_, rfl, Nat.and_zero _⟩

theorem rawDataChk (x : Byte) : Statement (.rawDataChk x) := fun _ => ⟨_, rfl, Nat.and_zero _⟩

theorem hostStartStartMeas (x : StartArgs) : Statement (.hostStartStartMeas x) := by
  have h : (0#4 : BitVec 4).toNat &&& 0xF = 0x0 := by decide
  exact fun _ => ⟨_, rfl, h⟩

theorem hostStartStopMeas (x : StartArgs) : Statement (.hostStartStopMeas x) := by
  have h : (1#4 : BitVec 4).toNat &&& 0xF = 0x1 := by decide
  exact fun _ => ⟨_, rfl, h⟩

theorem hostStartReadMeas (x : StartArgs) : Statement (.hostStartReadMeas x) := by
  have h : (2#4 : BitVec 4).toNat &&& 0xF = 0x2 := by decide
  exact fun _ => ⟨_, rfl, h⟩

theorem hostStartSleep (x : StartArgs) : Statement (.hostStartSleep x) := by
  have h : (3#4 : BitVec 4).toNat &&& 0xF = 0x3 := by decide
  exact fun _ => ⟨_, rfl, h⟩

theorem hostStartWakeUp (x : StartArgs) : Statement (.hostStartWakeUp x) := by
  have h : (4#4 : BitVec 4).toNat &&& 0xF = 0x4 := by decide
  exact fun _ => ⟨_, rfl, h⟩

theorem hostStartFanClean (x : StartArgs) : Statement (.hostStartFanClean x) := by
  have h : (5#4 : BitVec 4).toNat &&& 0xF = 0x5 := by decide
  exact fun _ => ⟨_, rfl, h⟩

theorem hostStartReadInterval (x : StartArgs) : Statement (.hostStartReadInterval x) := by
  have h : (6#4 : BitVec 4).toNat &&& 0xF = 0x6 := by decide
  exact fun _ => ⟨_, rfl, h⟩

theorem hostStartWriteInterval (x : StartArgs) : Statement (.hostStartWriteInterval x) := by
  have h : (7#4 : BitVec 4).toNat &&& 0xF = 0x7 := by decide
  exact fun _ => ⟨_, rfl, h⟩

theorem hostStartDevInfo (x : StartArgs) : Statement (.hostStartDevInfo x) := by
  have h : (8#4 : BitVec 4).toNat &&& 0xF = 0x8 := by decide
  exact fun _ => ⟨_, rfl, h⟩

theorem hostStartReadVersion (x : StartArgs) : Statement (.hostStartReadVersion x) := by
  have h : (9#4 : BitVec 4).toNat &&& 0xF = 0x9 := by decide
  exact fun _ => ⟨_, rfl, h⟩

theorem hostStartReadStatus (x : StartArgs) : Statement (.hostStartReadStatus x) := by
  have h : (10#4 : BitVec 4).toNat &&& 0xF = 0xA := by decide
  exact fun _ => ⟨_, rfl, h⟩

theorem hostStartReset (x : StartArgs) : Statement (.hostStartReset x) := by
  have h : (11#4 : BitVec 4).toNat &&& 0xF = 0xB := by decide
  exact fun _ => ⟨_, rfl, h⟩

theorem hostStartReserved12 (x : StartArgs) : Statement (.hostStartReserved12 x) := by
  have h : (12#4 : BitVec 4).toNat &&& 0xF = 0xC := by decide
  exact fun _ => ⟨_, rfl, h⟩

theorem hostStartReserved13 (x : StartArgs) : Statement (.hostStartReserved13 x) := by
  have h : (13#4 : BitVec 4).toNat &&& 0xF = 0xD := by decide
  exact fun _ => ⟨_, rfl, h⟩

theorem hostStartReserved14 (x : StartArgs) : Statement (.hostStartReserved14 x) := by
  have h : (14#4 : BitVec 4).toNat &&& 0xF = 0xE := by decide
  exact fun _ => ⟨_, rfl, h⟩

theorem hostStartReserved15 (x : StartArgs) : Statement (.hostStartReserved15 x) := by
  have h : (15#4 : BitVec 4).toNat &&& 0xF = 0xF := by decide
  exact fun _ => ⟨_, rfl, h⟩

theorem hostCancel : Statement .hostCancel := fun _ => ⟨_, rfl, by decide⟩

end Sys2Proof.Laws.TableWord
end

