-- ==== Sys2Proof/Tests/Slice0.lean ====
section
/-! SUPPORT. Tests. Expected values are those of spec/95_test_vectors.md (named V-…), of the encoding tables of
30_encoding.md, or worked out by hand from the rule named. The second part gives, for every obligation with hypotheses, values
that meet them all. -/

namespace Sys2Proof.Tests

open Sys2Proof.Machine

/-! ### Helpers -/

/-- The defaults of 00_scope.md R7 with `CAP = 40`. -/
abbrev P : Params := Params.default

/-- One field of the next state. -/
def field {α : Type} (f : State → α) : Answer → Option α
  | .next t => some (f t)
  | .fault _ => none
  | .refused _ => none

/-- The reason of a refusal. -/
def refusal : Answer → Option Refusal
  | .next _ => none
  | .fault _ => none
  | .refused r => some r

/-- An engine that awaits the response to `op`, on the first of two attempts, one tick before its deadline. -/
def awaiting (op : Op) (fmt : Fmt) : State :=
  { State.reset with
    estate := .awaitingResponse
    reqOp := op
    reqFmt := fmt
    cfgMaxAttempts := 2#8
    cfgTimeout := 3#32
    deadline := 1#32 }

/-- The same with the decoder in a given state. -/
def inState (ds : DState) (esc : Bool) (rem len : Byte) : State :=
  { awaiting .readInterval .float with
    dec := { Decoder.reset with dstate := ds, esc := esc, remaining := rem, rxLen := len, buf := [(0, 0x00#8), (1, 0x09#8)] } }

/-- The same with one event offered. -/
def given (s : State) (e : Input) : State := { s with inputs := [e] }

/-! ### Well-formedness: each check refuses an ill-formed term -/

theorem test_wellFormed_response_lengths :
    (Instr.rspReadMeasFloat (List.replicate 39 0#8)).wellFormed P = false ∧
    (Instr.rspReadMeasFixed (List.replicate 40 0#8)).wellFormed P = false ∧
    (Instr.rspReadInterval [1#8]).wellFormed P = false ∧ (Instr.rspWriteInterval []).wellFormed P = false ∧
    (Instr.rspDevInfo (List.replicate 41 0#8)).wellFormed P = false ∧
    (Instr.rspReadVersion (List.replicate 8 0#8)).wellFormed P = false ∧
    (Instr.rspReadStatus (List.replicate 4 0#8)).wellFormed P = false := by decide

theorem test_wellFormed_raw_bytes :
    (Instr.rawOtherIdle 0x7E#8).wellFormed P = false ∧ (Instr.rawOtherStop 0x7E#8).wellFormed P = false ∧
    (Instr.escapedIllegal 0x7E#8).wellFormed P = false ∧ (Instr.escapedIllegal 0x5E#8).wellFormed P = false ∧
    (Instr.rawDataAddr 0x7E#8).wellFormed P = false ∧ (Instr.rawDataCmd 0x7D#8).wellFormed P = false ∧
    (Instr.rawDataLen 0x11#8).wellFormed P = false ∧ (Instr.rawDataPayload 0x13#8).wellFormed P = false ∧
    (Instr.rawDataChk 0x7D#8).wellFormed P = false := by decide

/-! ### Decoding: every constructor by a word written out from its encoding -/

/-- The bodies of V-ENC-1 to V-ENC-17, unstuffed and without their checksum. -/
theorem test_decode_requests :
    decode P (.request [0x00#8, 0x00#8, 0x01#8, 0x03#8]) = .ok (.startMeas .float) ∧
    decode P (.request [0x00#8, 0x00#8, 0x01#8, 0x05#8]) = .ok (.startMeas .fixed) ∧
    decode P (.request [0x00#8, 0x01#8, 0x00#8]) = .ok .stopMeas ∧
    decode P (.request [0x00#8, 0x03#8, 0x00#8]) = .ok .readMeas ∧
    decode P (.request [0x00#8, 0x10#8, 0x00#8]) = .ok .sleep ∧
    decode P (.request [0x00#8, 0x11#8, 0x00#8]) = .ok .wakeUp ∧
    decode P (.request [0x00#8, 0x56#8, 0x00#8]) = .ok .fanClean ∧
    decode P (.request [0x00#8, 0x80#8, 0x00#8]) = .ok .readInterval ∧
    decode P (.request [0x00#8, 0x80#8, 0x04#8, 0x00#8, 0x09#8, 0x3A#8, 0x80#8]) = .ok (.writeInterval 604800#32) ∧
    decode P (.request [0x00#8, 0xD0#8, 0x01#8, 0x03#8]) = .ok (.devInfo 3#8) ∧
    decode P (.request [0x00#8, 0xD1#8, 0x00#8]) = .ok .readVersion ∧
    decode P (.request [0x00#8, 0xD2#8, 0x01#8, 0x00#8]) = .ok (.readStatus false) ∧
    decode P (.request [0x00#8, 0xD2#8, 0x01#8, 0x01#8]) = .ok (.readStatus true) ∧
    decode P (.request [0x00#8, 0xD3#8, 0x00#8]) = .ok .reset := by decide

/-- Bodies of the responses of 30_encoding.md R100, under the request that selects each. -/
theorem test_decode_responses :
    decode P (.response .startMeas .fixed [0x00#8, 0x00#8, 0x00#8]) = .ok .rspStartMeas ∧
    decode P (.response .stopMeas .float [0x00#8, 0x01#8, 0x00#8]) = .ok .rspStopMeas ∧
    decode P (.response .readMeas .float ([0x00#8, 0x03#8, 0x28#8] ++ List.replicate 40 0x3F#8)) =
      .ok (.rspReadMeasFloat (List.replicate 40 0x3F#8)) ∧
    decode P (.response .readMeas .fixed ([0x00#8, 0x03#8, 0x14#8] ++ List.replicate 20 0x01#8)) =
      .ok (.rspReadMeasFixed (List.replicate 20 0x01#8)) ∧
    decode P (.response .sleep .float [0x00#8, 0x10#8, 0x00#8]) = .ok .rspSleep ∧
    decode P (.response .wakeUp .float [0x00#8, 0x11#8, 0x00#8]) = .ok .rspWakeUp ∧
    decode P (.response .fanClean .float [0x00#8, 0x56#8, 0x00#8]) = .ok .rspFanClean ∧
    decode P (.response .readInterval .float [0x00#8, 0x80#8, 0x04#8, 0x00#8, 0x09#8, 0x3A#8, 0x80#8]) =
      .ok (.rspReadInterval [0x00#8, 0x09#8, 0x3A#8, 0x80#8]) ∧
    decode P (.response .writeInterval .float [0x00#8, 0x80#8, 0x04#8, 0x00#8, 0x09#8, 0x3A#8, 0x80#8]) =
      .ok (.rspWriteInterval [0x00#8, 0x09#8, 0x3A#8, 0x80#8]) ∧
    decode P (.response .devInfo .float [0x00#8, 0xD0#8, 0x02#8, 0x30#8, 0x00#8]) = .ok (.rspDevInfo [0x30#8, 0x00#8]) ∧
    decode P (.response .readVersion .float [0x00#8, 0xD1#8, 0x07#8, 2#8, 2#8, 0#8, 7#8, 0#8, 2#8, 0#8]) =
      .ok (.rspReadVersion [2#8, 2#8, 0#8, 7#8, 0#8, 2#8, 0#8]) ∧
    decode P (.response .readStatus .float [0x00#8, 0xD2#8, 0x05#8, 0x00#8, 0x20#8, 0x00#8, 0x30#8, 0x00#8]) =
      .ok (.rspReadStatus [0x00#8, 0x20#8, 0x00#8, 0x30#8, 0x00#8]) ∧
    decode P (.response .reset .float [0x00#8, 0xD3#8, 0x00#8]) = .ok .rspReset := by decide

/-- The byte classes of 30_encoding.md R93 in the contexts of the opcode table. -/
theorem test_decode_raw_bytes :
    decodeRaw P .awaitingStart false 0x7E#8 = .rawDelimOpen ∧
    decodeRaw P .awaitingStart false 0x7D#8 = .rawOtherIdle 0x7D#8 ∧
    decodeRaw P .readingCommand true 0x7E#8 = .rawDelimMidframe ∧
    decodeRaw P .awaitingStop false 0x7E#8 = .rawDelimClose ∧
    decodeRaw P .awaitingStop false 0x7D#8 = .rawOtherStop 0x7D#8 ∧
    decodeRaw P .readingLength false 0x7D#8 = .rawEsc ∧
    decodeRaw P .readingLength true 0x5E#8 = .escapedDelim ∧ decodeRaw P .readingLength true 0x5D#8 = .escapedEsc ∧
    decodeRaw P .readingLength true 0x31#8 = .escapedFc1 ∧ decodeRaw P .readingLength true 0x33#8 = .escapedFc2 ∧
    decodeRaw P .readingLength true 0x41#8 = .escapedIllegal 0x41#8 ∧
    decodeRaw P .readingLength true 0x11#8 = .escapedIllegal 0x11#8 ∧
    decodeRaw P .readingPayload false 0x11#8 = .rawFc1 ∧ decodeRaw P .readingPayload false 0x13#8 = .rawFc2 ∧
    decodeRaw P .readingAddress false 0x5E#8 = .rawDataAddr 0x5E#8 ∧
    decodeRaw P .readingCommand false 0x31#8 = .rawDataCmd 0x31#8 ∧
    decodeRaw P .readingLength false 0x00#8 = .rawDataLen 0x00#8 ∧
    decodeRaw P .readingPayload false 0xFF#8 = .rawDataPayload 0xFF#8 ∧
    decodeRaw P .readingChecksum false 0xFE#8 = .rawDataChk 0xFE#8 := by decide

/-- The selectors of 30_encoding.md R120. -/
theorem test_decode_selectors :
    decodeStart 0b0000#4 zeroArgs = .hostStartStartMeas zeroArgs ∧ decodeStart 0b0001#4 zeroArgs = .hostStartStopMeas zeroArgs ∧
    decodeStart 0b0010#4 zeroArgs = .hostStartReadMeas zeroArgs ∧ decodeStart 0b0011#4 zeroArgs = .hostStartSleep zeroArgs ∧
    decodeStart 0b0100#4 zeroArgs = .hostStartWakeUp zeroArgs ∧ decodeStart 0b0101#4 zeroArgs = .hostStartFanClean zeroArgs ∧
    decodeStart 0b0110#4 zeroArgs = .hostStartReadInterval zeroArgs ∧
    decodeStart 0b0111#4 zeroArgs = .hostStartWriteInterval zeroArgs ∧
    decodeStart 0b1000#4 zeroArgs = .hostStartDevInfo zeroArgs ∧
    decodeStart 0b1001#4 zeroArgs = .hostStartReadVersion zeroArgs ∧
    decodeStart 0b1010#4 zeroArgs = .hostStartReadStatus zeroArgs ∧ decodeStart 0b1011#4 zeroArgs = .hostStartReset zeroArgs ∧
    decodeStart 0b1100#4 zeroArgs = .hostStartReserved12 zeroArgs ∧
    decodeStart 0b1101#4 zeroArgs = .hostStartReserved13 zeroArgs ∧
    decodeStart 0b1110#4 zeroArgs = .hostStartReserved14 zeroArgs ∧
    decodeStart 0b1111#4 zeroArgs = .hostStartReserved15 zeroArgs ∧ decode P .cancel = .ok .hostCancel := by decide

/-- What is no row is rejected by name (30_encoding.md R111, R112). -/
theorem test_decode_rejects :
    decode P (.request [0x00#8, 0x01#8]) = .error .shortBody ∧
    decode P (.request [0x00#8, 0x01#8, 0x01#8]) = .error .lengthField ∧
    decode P (.request [0x01#8, 0x01#8, 0x00#8]) = .error .address ∧
    decode P (.request [0x00#8, 0x02#8, 0x00#8]) = .error .opcode ∧
    decode P (.request [0x00#8, 0x01#8, 0x01#8, 0x00#8]) = .error .payloadShape ∧
    decode P (.request [0x00#8, 0x00#8, 0x01#8, 0x04#8]) = .error .formatSelector ∧
    decode P (.request [0x00#8, 0xD2#8, 0x01#8, 0x02#8]) = .error .clearFlag ∧
    decode P (.response .stopMeas .float [0x00#8, 0x01#8, 0x01#8, 0x00#8]) = .error .responseLength := by decide

/-! ### The checksum, the stuffer, the encoder -/

/-- V-CHK-1 to V-CHK-5. -/
theorem test_checksum :
    chkCompute [0x00#8, 0x01#8, 0x02#8] = 0xFC#8 ∧ chkCompute [] = 0xFF#8 ∧ chkCompute [0xFF#8] = 0x00#8 ∧
    chkCompute [0xFF#8, 0x01#8] = 0xFF#8 ∧ chkCompute [0x80#8, 0x80#8] = 0xFF#8 := by decide

/-- The verifications below V-CHK-7. -/
theorem test_checksum_verify :
    chkVerify [0x00#8, 0x01#8, 0x00#8] 0xFE#8 = true ∧ chkVerify [0x00#8, 0x01#8, 0x00#8] 0xFF#8 = false ∧
    chkVerify [0x00#8, 0x02#8, 0x00#8] 0xFE#8 = false ∧ chkVerify [0x01#8, 0x00#8, 0x00#8] 0xFE#8 = true := by decide

/-- V-STUFF-5 to V-STUFF-13. -/
theorem test_stuffing :
    stuff P [0x7E#8, 0x7D#8, 0x11#8, 0x13#8] = [0x7D#8, 0x5E#8, 0x7D#8, 0x5D#8, 0x7D#8, 0x31#8, 0x7D#8, 0x33#8] ∧
    stuff P [0x5E#8, 0x5D#8, 0x31#8, 0x33#8, 0x20#8] = [0x5E#8, 0x5D#8, 0x31#8, 0x33#8, 0x20#8] ∧
    destuff P [0x7D#8, 0x5E#8, 0x7D#8, 0x5D#8, 0x7D#8, 0x31#8, 0x7D#8, 0x33#8] = .ok [0x7E#8, 0x7D#8, 0x11#8, 0x13#8] ∧
    destuff P [0x00#8, 0x7D#8] = .pending ∧ destuff P [0x7D#8, 0x7D#8] = .error .malformedEscape ∧
    destuff P [0x7D#8, 0x41#8] = .error .malformedEscape ∧ destuff P [0x7D#8, 0x11#8] = .error .malformedEscape ∧
    destuff P [0x00#8, 0x11#8] = .error .unexpectedByte ∧ destuff P [0x00#8, 0x13#8] = .error .unexpectedByte := by decide

/-- V-ENC-6, V-ENC-9, V-ENC-10, V-ENC-11: the frame of the latched request. -/
theorem test_request_frames :
    { State.reset with reqOp := .wakeUp }.requestFrame = [0x7E#8, 0x00#8, 0x7D#8, 0x31#8, 0x00#8, 0xEE#8, 0x7E#8] ∧
    { State.reset with reqOp := .writeInterval, reqArg := 604800#32 }.requestFrame =
      [0x7E#8, 0x00#8, 0x80#8, 0x04#8, 0x00#8, 0x09#8, 0x3A#8, 0x80#8, 0xB8#8, 0x7E#8] ∧
    { State.reset with reqOp := .writeInterval, reqArg := 17#32 }.requestFrame =
      [0x7E#8, 0x00#8, 0x80#8, 0x04#8, 0x00#8, 0x00#8, 0x00#8, 0x7D#8, 0x31#8, 0x6A#8, 0x7E#8] ∧
    { State.reset with reqOp := .writeInterval, reqArg := 253#32 }.requestFrame =
      [0x7E#8, 0x00#8, 0x80#8, 0x04#8, 0x00#8, 0x00#8, 0x00#8, 0xFD#8, 0x7D#8, 0x5E#8, 0x7E#8] := by decide

/-- V-ENC-18 and V-ENC-20; a payload of 256 bytes is refused (42_frame_encode.md R155). -/
theorem test_frame_encode :
    frameEncode P 0x7E#8 0x7D#8 [0x11#8, 0x13#8] =
      some [0x7E#8, 0x7D#8, 0x5E#8, 0x7D#8, 0x5D#8, 0x02#8, 0x7D#8, 0x31#8, 0x7D#8, 0x33#8, 0xDE#8, 0x7E#8] ∧
    frameEncode P 0x00#8 0x01#8 [0x80#8] = some [0x7E#8, 0x00#8, 0x01#8, 0x01#8, 0x80#8, 0x7D#8, 0x5D#8, 0x7E#8] := by decide

theorem test_frame_encode_refuses : frameEncode P 0x00#8 0x01#8 (List.replicate 256 0#8) = none := by
  unfold frameEncode
  rw [if_neg]
  rw [List.length_replicate]
  omega

/-! ### The decoder -/

/-- The outputs and the state, `esc`, `remaining` after a run. -/
structure Ran where
  outs : List DecOut
  dstate : DState
  esc : Bool
  remaining : Byte
  deriving DecidableEq, Repr

/-- A run from the scanning state. -/
def outsOf (bytes : List Byte) : Option Ran :=
  match decRun P Decoder.reset bytes with
  | .ok (outs, d) => some ⟨outs, d.dstate, d.esc, d.remaining⟩
  | .error _ => none

/-- V-DEC-1, V-DEC-2, V-DEC-13, V-DEC-15. -/
theorem test_decoder_frames :
    outsOf [0x7E#8, 0x00#8, 0x01#8, 0x00#8, 0xFE#8, 0x7E#8] = some ⟨[.frame 0x00#8 0x01#8 0#8 []], .awaitingStart, false, 0#8⟩ ∧
    outsOf [0x55#8, 0xAA#8, 0x00#8, 0x7E#8, 0x00#8, 0x01#8, 0x00#8, 0xFE#8, 0x7E#8] =
      some ⟨[.frame 0x00#8 0x01#8 0#8 []], .awaitingStart, false, 0#8⟩ ∧
    outsOf [0x7E#8, 0x00#8, 0x7D#8, 0x31#8, 0x00#8, 0xEE#8, 0x7E#8] =
      some ⟨[.frame 0x00#8 0x11#8 0#8 []], .awaitingStart, false, 0#8⟩ ∧
    outsOf [0x7E#8, 0x00#8, 0x80#8, 0x04#8, 0x00#8, 0x09#8, 0x3A#8, 0x80#8, 0xB8#8, 0x7E#8] =
      some ⟨[.frame 0x00#8 0x80#8 4#8 [0x00#8, 0x09#8, 0x3A#8, 0x80#8]], .awaitingStart, false, 0#8⟩ := by decide

/-- V-DEC-3, V-DEC-5, V-DEC-7, V-DEC-8, V-DEC-9, V-DEC-10. -/
theorem test_decoder_errors :
    outsOf [0x7E#8, 0x00#8, 0x01#8, 0x7E#8, 0x00#8, 0x01#8, 0x00#8, 0xFE#8, 0x7E#8] =
      some ⟨[.error (.framing .delimMidFrame)], .readingAddress, false, 0#8⟩ ∧
    outsOf [0x7E#8, 0x00#8, 0x7D#8, 0x7D#8] = some ⟨[.error (.framing .malformedEscape)], .awaitingStart, false, 0#8⟩ ∧
    outsOf [0x7E#8, 0x00#8, 0x7D#8, 0x7E#8] = some ⟨[.error (.framing .delimMidFrame)], .awaitingStart, false, 0#8⟩ ∧
    outsOf [0x7E#8, 0x00#8, 0x13#8] = some ⟨[.error (.framing .unexpectedByte)], .awaitingStart, false, 0#8⟩ ∧
    outsOf [0x7E#8, 0x00#8, 0x01#8, 0x00#8, 0xFF#8, 0x7E#8] = some ⟨[.error .checksum], .awaitingStart, false, 0#8⟩ ∧
    outsOf [0x7E#8, 0x00#8, 0x01#8, 0x00#8, 0xFE#8, 0x00#8, 0x7E#8] =
      some ⟨[.error (.framing .unexpectedByte)], .readingAddress, false, 0#8⟩ := by decide

/-- V-DEC-11: the capacity boundary. -/
theorem test_decoder_capacity :
    outsOf [0x7E#8, 0x00#8, 0x03#8, 0x29#8] = some ⟨[.error (.overflow 41#8)], .awaitingStart, false, 0#8⟩ ∧
    outsOf [0x7E#8, 0x00#8, 0x03#8, 0x28#8] = some ⟨[], .readingPayload, false, 40#8⟩ := by decide

/-! ### The response shape check and the payload decoders -/

/-- V-CAT-1 to V-CAT-5, V-CAT-11, V-CAT-14. -/
theorem test_shape_check :
    catCheck P .stopMeas .float 0x00#8 0x01#8 0 = none ∧
    catCheck P .stopMeas .float 0x01#8 0x01#8 0 = some .addrMismatch ∧
    catCheck P .stopMeas .float 0x00#8 0x03#8 40 = some .opcodeMismatch ∧
    catCheck P .stopMeas .float 0x00#8 0x01#8 40 = some .lengthMismatch ∧
    catCheck P .stopMeas .float 0x01#8 0x03#8 40 = some .addrMismatch ∧
    catCheck P .writeInterval .float 0x00#8 0x80#8 0 = some .lengthMismatch ∧
    catCheck P .readStatus .float 0x00#8 0xD2#8 5 = none ∧
    catCheck P .readStatus .float 0x00#8 0xD2#8 4 = some .lengthMismatch := by decide

/-- V-PAY-1 (its first and last words), V-PAY-2, V-PAY-4. -/
theorem test_payloads :
    (measDecodeFloat ([0x3F#8, 0x80#8, 0x00#8, 0x00#8] ++ List.replicate 32 0#8 ++ [0x3F#8, 0x40#8, 0x00#8, 0x00#8])).map
      (fun w => (w[0]?, w[9]?)) = some (some 0x3F800000#32, some 0x3F400000#32) ∧
    measDecodeFixed [0#8, 1#8, 0#8, 2#8, 0#8, 3#8, 0#8, 4#8, 0#8, 5#8, 0#8, 6#8, 0#8, 7#8, 0#8, 8#8, 0x00#8, 0x7E#8, 0x13#8,
      0x11#8] = some [1#16, 2#16, 3#16, 4#16, 5#16, 6#16, 7#16, 8#16, 126#16, 4881#16] ∧
    intervalDecode [0x00#8, 0x09#8, 0x3A#8, 0x80#8] = some 604800#32 := by decide

/-- V-PAY-3. -/
theorem test_status :
    statusDecode P [0x00#8, 0x20#8, 0x00#8, 0x30#8, 0x00#8] = some ⟨0x00200030#32, true, true, true⟩ ∧
    statusDecode P [0x00#8, 0x00#8, 0x00#8, 0x10#8, 0x00#8] = some ⟨0x00000010#32, false, false, true⟩ ∧
    statusDecode P [0xFF#8, 0xDF#8, 0xFF#8, 0xCF#8, 0xFF#8] = some ⟨0xFFDFFFCF#32, false, false, false⟩ := by decide

/-! ### Single steps of the engine -/

/-- V-ENG-1: refused starts. -/
theorem test_start_refused :
    field State.outputs (exec (.hostStartDevInfo ⟨.float, 256#32, 1#8, 1#32⟩) State.reset) = some [.result (.err .invalidRequest)] ∧
    field State.outputs (exec (.hostStartStopMeas ⟨.float, 0#32, 0#8, 1#32⟩) State.reset) = some [.result (.err .invalidRequest)] ∧
    field State.outputs (exec (.hostStartStopMeas ⟨.float, 0#32, 1#8, 0#32⟩) State.reset) = some [.result (.err .invalidRequest)] ∧
    field State.outputs (exec (.hostStartReadStatus ⟨.float, 2#32, 1#8, 1#32⟩) State.reset) =
      some [.result (.err .invalidRequest)] := by decide

/-- The first events of P1. -/
theorem test_start_accepted :
    field (fun t => (t.outputs, t.estate, t.cfgMaxAttempts, t.cfgTimeout))
      (step (given State.reset (.start 1#4 ⟨.float, 0#32, 3#8, 5#32⟩))) =
      some ([.txWrite [0x7E#8, 0x00#8, 0x01#8, 0x00#8, 0xFE#8, 0x7E#8]], .sending, 3#8, 5#32) := by decide

/-- V-ENG-6: a whole response in one chunk. -/
theorem test_response_chunk :
    field (fun t => (t.outputs, t.estate))
      (step (given (awaiting .stopMeas .float) (.rxChunk [0x7E#8, 0x00#8, 0x01#8, 0x00#8, 0xFE#8, 0x7E#8]))) =
      some ([.result (.ok .stopMeas 0#8 [])], .idle) := by decide

/-- V-ENG-3: a foreign address costs an attempt. -/
theorem test_foreign_address :
    field (fun t => (t.outputs, t.estate, t.attempt, t.lastCause))
      (step (given (awaiting .reset .float) (.rxChunk [0x7E#8, 0x01#8, 0xD3#8, 0x00#8, 0x2B#8, 0x7E#8]))) =
      some ([.trace 0#8 (.shape .addrMismatch), .txWrite [0x7E#8, 0x00#8, 0xD3#8, 0x00#8, 0x2C#8, 0x7E#8]], .sending, 1#8,
        some (.shape .addrMismatch)) := by decide

/-- V-ENG-5: the last tick of an attempt, with a partial frame. -/
theorem test_timeout_discards_partial_frame :
    field (fun t => (t.outputs, t.attempt, t.dec.dstate, t.dec.esc))
      (step (given (inState .readingCommand true 0#8 0#8) .tick)) =
      some ([.trace 0#8 .timeout, .txWrite [0x7E#8, 0x00#8, 0x80#8, 0x00#8, 0x7F#8, 0x7E#8]], 1#8, .awaitingStart, false) := by decide

/-- P5: an overflow ends the exchange although attempts are left; the rest of the chunk is dropped. -/
theorem test_overflow_ends_exchange :
    field (fun t => (t.outputs, t.estate, t.attempt, t.dec.rxLen, t.dec.dstate))
      (step (given (awaiting .readMeas .float) (.rxChunk [0x7E#8, 0x00#8, 0x03#8, 0x29#8, 0x7E#8, 0x00#8]))) =
      some ([.result (.err (.bufferOverflow 41#8))], .idle, 0#8, 41#8, .awaitingStart) := by decide

/-- P6(a), on the last attempt: the trace precedes the result. -/
theorem test_exhausted_retries :
    field (fun t => (t.outputs, t.estate, t.attempt))
      (exec (.rspReadMeasFixed (List.replicate 20 0#8)) { awaiting .stopMeas .float with cfgMaxAttempts := 1#8 }) =
      some ([.trace 0#8 (.shape .opcodeMismatch), .result (.err (.exhaustedRetries (.shape .opcodeMismatch)))], .idle, 1#8) := by
  decide

/-- V-DEC-15: the payload byte `09` of index 1 is stored beside index 0. -/
theorem test_payload_store :
    field (fun t => (t.dec.buf, t.dec.remaining, t.dec.dstate))
      (exec (.rawDataPayload 0x3A#8) (inState .readingPayload false 2#8 4#8)) =
      some ([(0, 0x00#8), (1, 0x09#8), (2, 0x3A#8)], 1#8, .readingPayload) := by decide

/-- An event with no operation outstanding has no step (10_state.md R45). -/
theorem test_stray_events :
    refusal (step (given State.reset .txDone)) = some .writeNotOutstanding ∧
    refusal (step (given State.reset (.rxChunk []))) = some .readNotArmed ∧
    refusal (step (given (awaiting .sleep .float) (.start 3#4 zeroArgs))) = some .startBusy ∧
    refusal (step State.reset) = some .noInput := by decide

/-- The codes of 60_exceptions.md R302 and of the state registers (10_state.md R21, R22). -/
theorem test_codes :
    (ErrorRecord.framing .delimMidFrame).code = 2 ∧ (ErrorRecord.framing .delimMidFrame).subCode = some 3 ∧
    (CallerError.exhaustedRetries .checksum).code = 6 ∧ CallerError.invalidRequest.code = 9 ∧
    dstateCode .awaitingStop = 6 ∧ estateCode .failed = 4 ∧ (awaiting .sleep .float).busy = true := by decide

/-- Table words run as the next step from reset: a request row, a response row, a raw byte, a selector (assumption 9). -/
theorem test_withFetchWord :
    field State.outputs (step (State.reset.withFetchWord 24 0x001100)) =
      some [.txWrite [0x7E#8, 0x00#8, 0x7D#8, 0x31#8, 0x00#8, 0xEE#8, 0x7E#8]] ∧
    field State.outputs (step (State.reset.withFetchWord 24 0x00D107)) =
      some [.result (.ok .readVersion 7#8 [0#8, 0#8, 0#8, 0#8, 0#8, 0#8, 0#8])] ∧
    field (fun t => t.dec.esc) (step (State.reset.withFetchWord 8 0x7D)) = some true ∧
    field State.outputs (step (State.reset.withFetchWord 8 0x0C)) = some [.result (.err .invalidRequest)] := by decide

/-! ### Values that meet the hypotheses of the statements, clause by clause -/

/-- The response frame of `STOP_MEAS`, with a byte of the environment's after it. -/
def stopFrame : List Byte := [0x7E#8, 0x00#8, 0x01#8, 0x00#8, 0xFE#8, 0x7E#8]

/-- A decoder that has received the header and payload `[0x09]` of a frame and its checksum field. -/
def stopDecoder (addr cmd chk : Byte) : Decoder :=
  { Decoder.reset with dstate := .awaitingStop, rxAddr := addr, rxCmd := cmd, rxLen := 1#8, rxChk := chk, buf := [(0, 0x09#8)] }

/-- An engine that awaits the version response of one byte with that decoder (`FWVER_LEN` = 1). -/
def stopState (addr cmd chk : Byte) : State :=
  { awaiting .devInfo .float with dec := stopDecoder addr cmd chk }

/-- A parameter set in which 0 is a reserved byte. -/
def zeroDelim : Params := { P with delim := 0x00#8 }

theorem witness_DecodeEncodeRoundTrip :
    P.Valid ∧ (Instr.writeInterval 0xFFFFFFFF#32).wellFormed P = true ∧
    (Instr.rspReadMeasFloat (List.replicate 40 0#8)).wellFormed P = true ∧
    (Instr.rspReadMeasFixed (List.replicate 20 0#8)).wellFormed P = true ∧
    (Instr.rspReadInterval [1#8, 2#8, 3#8, 4#8]).wellFormed P = true ∧
    (Instr.rspWriteInterval [1#8, 2#8, 3#8, 4#8]).wellFormed P = true ∧ (Instr.rspDevInfo []).wellFormed P = true ∧
    (Instr.rspDevInfo (List.replicate 40 0#8)).wellFormed P = true ∧
    (Instr.rspReadVersion (List.replicate 7 0#8)).wellFormed P = true ∧
    (Instr.rspReadStatus (List.replicate 5 0#8)).wellFormed P = true ∧ (Instr.rawOtherIdle 0x7F#8).wellFormed P = true ∧
    (Instr.rawOtherStop 0x00#8).wellFormed P = true ∧ (Instr.escapedIllegal 0x7D#8).wellFormed P = true ∧
    (Instr.rawDataLen 0xFF#8).wellFormed P = true ∧ (Instr.hostStartReserved15 zeroArgs).wellFormed P = true :=
  ⟨Params.default_valid, by decide⟩

theorem witness_RawByteRowsPartitionTheContexts :
    P.Valid ∧
    ((Instr.rawDataChk 0xFF#8).wellFormed P = true ∧ rawByte P (.rawDataChk 0xFF#8) = some 0xFF#8 ∧
      rawContext (.rawDataChk 0xFF#8) .readingChecksum false = true) ∧
    ((Instr.escapedFc2).wellFormed P = true ∧ rawByte P .escapedFc2 = some 0x33#8 ∧
      rawContext .escapedFc2 .readingPayload true = true) ∧
    (Instr.rawDelimClose.wellFormed P = true ∧ rawByte P .rawDelimClose = some 0x7E#8 ∧
      rawContext .rawDelimClose .awaitingStop false = true) := ⟨Params.default_valid, by decide⟩

/-- Latches that hold a request. -/
def latched (op : Op) (fmt : Fmt) (arg : Word32) : State := { State.reset with reqOp := op, reqFmt := fmt, reqArg := arg }

theorem witness_RequestRowsSendTheirFrame :
    (∀ op fmt arg, (latched op fmt arg).estate ≠ .sending ∧ (latched op fmt arg).reqOp = op ∧
      (latched op fmt arg).reqFmt = fmt ∧ (latched op fmt arg).reqArg = arg) ∧
    (latched .writeInterval .float 0xFFFFFFFF#32).reqArg = be32 0xFF#8 0xFF#8 0xFF#8 0xFF#8 ∧
    (latched .devInfo .float 255#32).reqArg = (0xFF#8).setWidth 32 ∧
    (latched .readStatus .float 0#32).reqArg = 0#32 ∧ (latched .readStatus .float 1#32).reqArg = 1#32 :=
  ⟨fun _ _ _ => ⟨nofun, rfl, rfl, rfl⟩, by decide⟩

theorem witness_AcceptedStartLatchesAndSends :
    State.reset.estate = .idle ∧ (1#8 : Byte) ≠ 0#8 ∧ (1#32 : Word32) ≠ 0#32 ∧
    (255#32 : Word32).extractLsb' 8 24 = 0#24 ∧ (1#32 : Word32).extractLsb' 1 31 = 0#31 ∧
    (awaiting .sleep .float).estate ≠ .idle := by decide

theorem witness_RefusedStartChangesNothing :
    State.reset.estate = .idle ∧ (⟨.float, 0#32, 0#8, 1#32⟩ : StartArgs).maxAttempts = 0#8 ∧
    (⟨.float, 0#32, 1#8, 0#32⟩ : StartArgs).timeout = 0#32 ∧
    (⟨.float, 256#32, 1#8, 1#32⟩ : StartArgs).arg.extractLsb' 8 24 ≠ 0#24 ∧
    (⟨.float, 2#32, 1#8, 1#32⟩ : StartArgs).arg.extractLsb' 1 31 ≠ 0#31 := by decide

theorem witness_CancelClearsAndReturnsToIdle :
    State.reset.estate = .idle ∧ (inState .readingCommand true 0#8 0#8).estate ≠ .idle := by decide

theorem witness_RowsOutsideTheirConditionHaveNoStep :
    (encode P (.hostStartReserved12 zeroArgs) = .start 12#4 zeroArgs ∧ (awaiting .sleep .float).estate ≠ .idle) ∧
    (encode P .sleep = .request [0x00#8, 0x10#8, 0x00#8] ∧
      { latched .sleep .float 0#32 with estate := .sending }.estate = .sending ∧
      State.reset.estate ≠ .sending ∧ State.reset.request ≠ .sleep) ∧
    (encode P .rspSleep = .response .sleep .float [0x00#8, 0x10#8, 0x00#8] ∧ State.reset.estate ≠ .awaitingResponse) ∧
    (encode P (.rspDevInfo (List.replicate 256 0#8)) = .response .devInfo .float ([0x00#8, 0xD0#8, 0x00#8] ++ List.replicate 256 0#8) ∧
      255 + 3 < ([0x00#8, 0xD0#8, 0x00#8] ++ List.replicate 256 0#8 : List Byte).length ∧
      (awaiting .devInfo .float).estate = .awaitingResponse) ∧
    (rawByte P .rawEsc = some 0x7D#8 ∧ State.reset.estate ≠ .awaitingResponse ∧
      (awaiting .sleep .float).estate = .awaitingResponse ∧
      rawContext .rawEsc (awaiting .sleep .float).dec.dstate (awaiting .sleep .float).dec.esc = false ∧
      (Instr.rawDataLen 0x11#8).wellFormed P = false) := by
  refine ⟨by decide, by decide, by decide, ⟨?_, ?_, rfl⟩, by decide⟩
  · simp only [encode, responseBody, frameBody, List.length_replicate]
    rfl
  · rw [List.length_append, List.length_replicate]
    decide

theorem witness_ResponseRowsCompleteTheExchange :
    (∀ op fmt, (awaiting op fmt).par.Valid ∧ (awaiting op fmt).estate = .awaitingResponse ∧ (awaiting op fmt).reqOp = op ∧
      (awaiting op fmt).reqFmt = fmt) ∧
    (List.replicate 40 0#8).length = (awaiting .devInfo .float).par.devinfoMax ∧
    (List.replicate 7 0#8).length = (awaiting .readVersion .float).par.fwverLen ∧
    (List.replicate 5 0#8).length = 4 + (awaiting .readStatus .float).par.statusRsvdLen :=
  ⟨fun _ _ => ⟨Params.default_valid, rfl, rfl, rfl⟩, by decide⟩

theorem witness_ForeignResponseRowsFailTheAttempt :
    (awaiting .stopMeas .float).par.Valid ∧ (awaiting .stopMeas .float).estate = .awaitingResponse ∧
    (rspLenOk P .readMeas .fixed (List.replicate 20 0#8).length = true ∧
      cmdOf P .readMeas ≠ cmdOf P (awaiting .stopMeas .float).reqOp) ∧
    (rspLenOk P .readMeas .fixed (List.replicate 20 0#8).length = true ∧
      cmdOf P .readMeas = cmdOf P (awaiting .readMeas .float).reqOp ∧ rspLenOk P .readMeas .float 20 = false) :=
  ⟨Params.default_valid, rfl, by decide⟩

theorem witness_BytesOutsideAFrame :
    (awaiting .sleep .float).estate = .awaitingResponse ∧ (awaiting .sleep .float).dec.dstate = .awaitingStart ∧
    (0x7F#8 : Byte) ≠ (awaiting .sleep .float).par.delim := by decide

/-- A decoder in each field state, with and without a pending escape, meets the hypotheses of `EscapeMarkerSetsEsc`,
`HeaderAndChecksumBytesAreStored`, `LengthByteFixesTheCount`, `PayloadByteIsStoredAtItsIndex` and
`EscapedBytesAreFieldBytes`; `ds` and `esc` are free. -/
theorem witness_fields (ds : DState) (esc : Bool) (rem len : Byte) :
    (inState ds esc rem len).estate = .awaitingResponse ∧ (inState ds esc rem len).dec.dstate = ds ∧
    (inState ds esc rem len).dec.esc = esc ∧ (inState ds esc rem len).dec.remaining = rem ∧
    (inState ds esc rem len).dec.rxLen = len ∧ (inState ds esc rem len).par = P := ⟨rfl, rfl, rfl, rfl, rfl, rfl⟩

theorem witness_EscapeMarkerSetsEsc :
    (inState .readingAddress false 0#8 0#8).estate = .awaitingResponse ∧
    (inState .readingAddress false 0#8 0#8).dec.dstate.inField = true ∧ (inState .readingAddress false 0#8 0#8).dec.esc = false ∧
    (inState .readingChecksum false 0#8 0#8).dec.dstate.inField = true := by decide

theorem witness_HeaderAndChecksumBytesAreStored :
    (∀ ds, (inState ds false 0#8 0#8).estate = .awaitingResponse ∧ (inState ds false 0#8 0#8).dec.esc = false ∧
      (inState ds false 0#8 0#8).dec.dstate = ds) ∧
    P.isReserved 0x00#8 = false ∧ P.isReserved 0x7F#8 = false ∧ P.isReserved 0xFF#8 = false :=
  ⟨fun _ => ⟨rfl, rfl, rfl⟩, by decide⟩

theorem witness_LengthByteFixesTheCount :
    (inState .readingLength false 0#8 0#8).estate = .awaitingResponse ∧
    (inState .readingLength false 0#8 0#8).dec.dstate = .readingLength ∧ (inState .readingLength false 0#8 0#8).dec.esc = false ∧
    (P.isReserved 41#8 = false ∧ P.cap < (41#8 : Byte).toNat) ∧
    (P.isReserved 0#8 = false ∧ (0#8 : Byte).toNat ≤ P.cap) ∧
    (P.isReserved 40#8 = false ∧ (40#8 : Byte).toNat ≤ P.cap ∧ (40#8 : Byte) ≠ 0#8) ∧
    (P.isReserved 1#8 = false ∧ (1#8 : Byte).toNat ≤ P.cap ∧ (1#8 : Byte) ≠ 0#8) := by decide

/-- The first byte of the longest payload, and the last byte of a payload of one. -/
theorem witness_PayloadByteIsStoredAtItsIndex :
    (∀ rem len, (inState .readingPayload false rem len).estate = .awaitingResponse ∧
      (inState .readingPayload false rem len).dec.dstate = .readingPayload ∧
      (inState .readingPayload false rem len).dec.esc = false ∧ (inState .readingPayload false rem len).dec.remaining = rem ∧
      (inState .readingPayload false rem len).dec.rxLen = len) ∧
    P.isReserved 0xFF#8 = false ∧
    (1 ≤ (40#8 : Byte).toNat ∧ (40#8 : Byte).toNat ≤ (40#8 : Byte).toNat ∧ (40#8 : Byte).toNat ≤ P.cap ∧ (40#8 : Byte) ≠ 1#8) ∧
    (1 ≤ (1#8 : Byte).toNat ∧ (1#8 : Byte).toNat ≤ (1#8 : Byte).toNat ∧ (1#8 : Byte).toNat ≤ P.cap) :=
  ⟨fun _ _ => ⟨rfl, rfl, rfl, rfl, rfl⟩, by decide⟩

/-- Under the defaults `DELIM` = 126 exceeds `CAP` and `FC1` = 17 does not; with 0 as the delimiter the empty-payload clause is
met. -/
theorem witness_EscapedBytesAreFieldBytes :
    (∀ ds rem len, (inState ds true rem len).estate = .awaitingResponse ∧ (inState ds true rem len).dec.esc = true ∧
      (inState ds true rem len).dec.dstate = ds ∧ (inState ds true rem len).par = P) ∧
    (Instr.escapedDelim, P.delim) ∈
      [(Instr.escapedDelim, P.delim), (.escapedEsc, P.esc), (.escapedFc1, P.fc1), (.escapedFc2, P.fc2)] ∧
    P.cap < P.delim.toNat ∧ P.fc1.toNat ≤ P.cap ∧ P.fc1 ≠ 0#8 ∧
    zeroDelim.delim = 0#8 ∧ zeroDelim.delim.toNat ≤ zeroDelim.cap ∧
    1 ≤ (inState .readingPayload true 2#8 2#8).dec.remaining.toNat ∧
    (inState .readingPayload true 2#8 2#8).dec.remaining.toNat ≤ (inState .readingPayload true 2#8 2#8).dec.rxLen.toNat ∧
    (inState .readingPayload true 2#8 2#8).dec.rxLen.toNat ≤ P.cap :=
  ⟨fun _ _ _ => ⟨rfl, rfl, rfl, rfl⟩, by decide⟩

theorem witness_FramingErrorRowsFailTheAttempt :
    (∀ ds esc, (inState ds esc 0#8 0#8).estate = .awaitingResponse ∧ (inState ds esc 0#8 0#8).dec.dstate = ds ∧
      (inState ds esc 0#8 0#8).dec.esc = esc) ∧
    DState.inField .readingAddress = true ∧ DState.inField .readingChecksum = true ∧
    ((0x7D#8 : Byte) ≠ P.delim ∧ P.isReserved (P.unxf 0x7D#8) = false) ∧ (0x00#8 : Byte) ≠ P.delim :=
  ⟨fun _ _ => ⟨rfl, rfl, rfl⟩, by decide⟩

/-- `00 D0 01 09` has the checksum `25`; each clause with its own header. The length clause: a one-byte response to `SLEEP`. -/
theorem witness_ClosingDelimiterCompletesTheFrame :
    (∀ addr cmd chk, (stopState addr cmd chk).estate = .awaitingResponse ∧
      (stopState addr cmd chk).dec.dstate = .awaitingStop ∧ [0x09#8].length = (stopState addr cmd chk).dec.rxLen.toNat ∧
      ∀ k, k < [0x09#8].length → (stopState addr cmd chk).dec.buf.read k = [0x09#8][k]?) ∧
    chkCompute [0x00#8, 0xD0#8, 0x01#8, 0x09#8] = 0x25#8 ∧ chkCompute [0x01#8, 0xD0#8, 0x01#8, 0x09#8] = 0x24#8 ∧
    chkCompute [0x00#8, 0xD1#8, 0x01#8, 0x09#8] = 0x24#8 ∧ chkCompute [0x00#8, 0xD0#8, 0x01#8, 0x09#8] ≠ 0x24#8 ∧
    P.addr0 ≠ 0x01#8 ∧ cmdOf P .devInfo = 0xD0#8 ∧ rspLenOk P .devInfo .float 1 = true ∧
    chkCompute [0x00#8, 0x10#8, 0x01#8, 0x09#8] = 0xE5#8 ∧ cmdOf P .sleep = 0x10#8 ∧ rspLenOk P .sleep .float 1 = false :=
  ⟨fun _ _ _ => ⟨rfl, rfl, rfl, fun k hk => by
    obtain rfl : k = 0 := Nat.lt_one_iff.mp hk
    rfl⟩, by decide⟩

/-- The first of two attempts, and the last. -/
theorem witness_FailedAttemptIsTracedAndRetriedOrEnded :
    (awaiting .sleep .float).attempt.toNat + 1 < (awaiting .sleep .float).cfgMaxAttempts.toNat ∧
    { awaiting .sleep .float with attempt := 1#8 }.cfgMaxAttempts.toNat ≤
      { awaiting .sleep .float with attempt := 1#8 }.attempt.toNat + 1 := by decide

theorem witness_RawByteRowIsDecoderStepAndReaction :
    (inState .readingPayload false 2#8 4#8).par.Valid ∧ (inState .readingPayload false 2#8 4#8).estate = .awaitingResponse :=
  ⟨Params.default_valid, rfl⟩

theorem witness_DecoderTransitionTable :
    P.Valid ∧
    (∀ ds esc rem len, (inState ds esc rem len).dec.dstate = ds ∧ (inState ds esc rem len).dec.esc = esc ∧
      (inState ds esc rem len).dec.remaining = rem ∧ (inState ds esc rem len).dec.rxLen = len) ∧
    ((0x5E#8 : Byte) ≠ P.delim ∧ P.unxf 0x5E#8 = 0x7E#8 ∧ P.isReserved 0x7E#8 = true) ∧
    ((40#8 : Byte) ≠ P.delim ∧ P.isReserved 40#8 = false ∧ (40#8 : Byte).toNat ≤ P.cap) ∧
    (P.isReserved 41#8 = false ∧ P.cap < (41#8 : Byte).toNat) ∧ P.isReserved 0#8 = false ∧
    (2 ≤ (2#8 : Byte).toNat ∧ (2#8 : Byte).toNat ≤ (40#8 : Byte).toNat) ∧ 1 ≤ (1#8 : Byte).toNat ∧
    (Memory.readN (stopDecoder 0x00#8 0xD0#8 0x25#8).buf 0 (stopDecoder 0x00#8 0xD0#8 0x25#8).rxLen.toNat = some [0x09#8] ∧
      chkCompute ([0x00#8, 0xD0#8, 0x01#8] ++ [0x09#8]) = 0x25#8 ∧ chkCompute ([0x00#8, 0xD0#8, 0x01#8] ++ [0x09#8]) ≠ 0x24#8) ∧
    P.isReserved (P.unxf 0x41#8) = false :=
  ⟨Params.default_valid, fun _ _ _ _ => ⟨rfl, rfl, rfl, rfl⟩, by decide⟩

/-- A raw byte at the capacity and one above it, the escaped images of `FC1` (17) and `DELIM` (126), and 0; the first byte of the
longest payload and the last of the shortest. -/
theorem witness_FieldBytesUpdateTheRegisters :
    (∀ ds esc rem len, (inState ds esc rem len).dec.dstate = ds ∧ (inState ds esc rem len).dec.esc = esc ∧
      (inState ds esc rem len).dec.remaining = rem ∧ (inState ds esc rem len).dec.rxLen = len) ∧
    (∀ b : Byte, b = 0#8 ∨ b = 40#8 ∨ b = 41#8 → b ≠ P.delim ∧ P.isReserved b = false) ∧
    ((0x31#8 : Byte) ≠ P.delim ∧ P.unxf 0x31#8 = 17#8 ∧ P.isReserved 17#8 = true ∧ (17#8 : Byte).toNat ≤ P.cap) ∧
    ((0x5E#8 : Byte) ≠ P.delim ∧ P.unxf 0x5E#8 = 126#8 ∧ P.isReserved 126#8 = true ∧ P.cap < (126#8 : Byte).toNat) ∧
    (40#8 : Byte).toNat ≤ P.cap ∧ P.cap < (41#8 : Byte).toNat ∧
    (1 ≤ (40#8 : Byte).toNat ∧ (40#8 : Byte) ≠ 1#8) ∧ 1 ≤ (1#8 : Byte).toNat := by
  refine ⟨fun _ _ _ _ => ⟨rfl, rfl, rfl, rfl⟩, ?_, by decide⟩
  rintro b (rfl | rfl | rfl) <;> decide

theorem witness_DecoderOutputsResynchronize :
    ∃ d', decStep P (inState .readingPayload false 2#8 4#8).dec 0x7E#8 = .ok (d', .error (.framing .delimMidFrame)) :=
  ⟨_, rfl⟩

theorem witness_EncodedFrameDecodesToItself :
    P.Valid ∧ Decoder.reset.dstate = .awaitingStart ∧ (List.replicate 40 0x7E#8 : List Byte).length ≤ P.cap ∧
    (P.cap < (List.replicate 41 0x7E#8 : List Byte).length ∧ (List.replicate 41 0x7E#8 : List Byte).length ≤ 255) ∧
    (List.replicate 255 0x00#8 : List Byte).length ≤ 255 := by
  refine ⟨Params.default_valid, rfl, by decide, by decide, ?_⟩
  rw [List.length_replicate]

theorem witness_DecoderAcceptsExactlyTheEncodings :
    P.Valid ∧ Decoder.reset.dstate = .awaitingStart ∧
    P.delim :: [0x00#8, 0x01#8, 0x00#8, 0xFE#8] ++ [0x7E#8] = frameBytes P 0x00#8 0x01#8 [] ∧
    ([] : List Byte).length ≤ 255 := ⟨Params.default_valid, rfl, by decide⟩

/-- The first and the last byte of the frame, and one between. -/
theorem witness_CorruptedFrameIsNeverTheOriginal :
    P.Valid ∧ Decoder.reset.dstate = .awaitingStart ∧ ([] : List Byte).length ≤ P.cap ∧
    (∀ k, k = 0 ∨ k = 2 ∨ k = 5 → k < (frameBytes P 0x00#8 0x01#8 []).length ∧
      (frameBytes P 0x00#8 0x01#8 [])[k]? ≠ some 0x7D#8 ∧
      ∃ outs d', decRun P Decoder.reset ((frameBytes P 0x00#8 0x01#8 []).set k 0x7D#8) = .ok (outs, d')) := by
  refine ⟨Params.default_valid, rfl, by decide, ?_⟩
  rintro k (rfl | rfl | rfl) <;> exact ⟨by decide, by decide, _, _, rfl⟩

/-- The first and the last byte, and one between, which also becomes `DELIM`. -/
theorem witness_CorruptionThatSparesEscapesGivesNoFrame :
    P.Valid ∧ Decoder.reset.dstate = .awaitingStart ∧ ([] : List Byte).length ≤ P.cap ∧
    ∀ k b x, (k, b, x) ∈ [(0, 0x7E#8, 0x55#8), (2, 0x01#8, 0x02#8), (2, 0x01#8, 0x7E#8), (5, 0x7E#8, 0x55#8)] →
      (frameBytes P 0x00#8 0x01#8 [])[k]? = some b ∧ x ≠ b ∧ b ≠ P.esc ∧ x ≠ P.esc ∧
      ∃ outs d', decRun P Decoder.reset ((frameBytes P 0x00#8 0x01#8 []).set k x) = .ok (outs, d') := by
  refine ⟨Params.default_valid, rfl, by decide, ?_⟩
  intro k b x h
  simp only [List.mem_cons, List.not_mem_nil, or_false, Prod.mk.injEq] at h
  rcases h with ⟨rfl, rfl, rfl⟩ | ⟨rfl, rfl, rfl⟩ | ⟨rfl, rfl, rfl⟩ | ⟨rfl, rfl, rfl⟩ <;>
    exact ⟨by decide, by decide, by decide, by decide, _, _, rfl⟩

theorem witness_FrameAfterGarbageIsDecoded :
    P.Valid ∧ Decoder.reset.dstate = .awaitingStart ∧
    (∃ d₁, decRun P Decoder.reset [0x7E#8, 0x00#8, 0x13#8] = .ok ([.error (.framing .unexpectedByte)], d₁) ∧
      d₁.dstate = .awaitingStart ∧ ∀ a c n q, DecOut.frame a c n q ∉ [DecOut.error (.framing .unexpectedByte)]) ∧
    P.delim ∉ [0x55#8, 0xAA#8] :=
  ⟨Params.default_valid, rfl, ⟨_, rfl, rfl, by simp⟩, by decide⟩

theorem witness_ChecksumDetectsOneChangedByte :
    (chkVerify [0x00#8, 0x01#8, 0x00#8] 0xFE#8 = true ∧ 2 < [0x00#8, 0x01#8, 0x00#8].length ∧
      ([0x00#8, 0x01#8, 0x00#8] : List Byte)[2]? ≠ some 0xFF#8 ∧ (0xFF#8 : Byte) ≠ 0xFE#8) ∧
    (([0x01#8, 0xFF#8] : List Byte).map BitVec.toNat).sum % 256 = (([0x00#8] : List Byte).map BitVec.toNat).sum % 256 ∧
    List.Perm [0x00#8, 0x01#8] [0x01#8, 0x00#8] := by decide

theorem witness_StuffAndDestuffAreInverse :
    P.Valid ∧ DestuffsTo P [0x7D#8, 0x5E#8, 0x00#8] [0x7E#8, 0x00#8] := ⟨Params.default_valid, by unfold DestuffsTo; decide⟩

theorem witness_StuffedOutputHasNoBareReservedByte : P.Valid ∧ (stuff P [0x00#8, 0x7E#8])[1]? = some P.esc :=
  ⟨Params.default_valid, by decide⟩

/-- All of the longest payload reserved: the longest frame. -/
theorem witness_EncodedFrameHasTwoDelimiters :
    P.Valid ∧ ([] : List Byte).length ≤ 255 ∧ (List.replicate 255 0x7E#8 : List Byte).length ≤ 255 := by
  refine ⟨Params.default_valid, by decide, ?_⟩
  rw [List.length_replicate]

theorem witness_StepRunsTheDecodedInstruction :
    (given State.reset (.start 15#4 zeroArgs)).inputs = [.start 15#4 zeroArgs] ∧
    (given State.reset .cancel).inputs = [.cancel] ∧
    ((given (awaiting .sleep .float) (.rxChunk [0x7E#8, 0x00#8])).inputs = [.rxChunk [0x7E#8, 0x00#8]] ∧
      (given (awaiting .sleep .float) (.rxChunk [0x7E#8, 0x00#8])).estate = .awaitingResponse) ∧
    ((given State.reset (.start (opSel .reset) zeroArgs)).inputs = [.start (opSel .reset) zeroArgs] ∧
      (given State.reset (.start (opSel .reset) zeroArgs)).estate = .idle ∧ argsValid .reset zeroArgs = true) ∧
    State.reset.inputs = [] := by decide

theorem witness_FrameChunkRunsItsResponseRow :
    let s := given (awaiting .stopMeas .float) (.rxChunk stopFrame)
    s.par.Valid ∧ s.estate = .awaitingResponse ∧ s.dec.dstate = .awaitingStart ∧
      rspLenOk s.par s.reqOp s.reqFmt ([] : List Byte).length = true ∧ ([] : List Byte).length ≤ s.par.cap ∧
      s.inputs = [.rxChunk (frameBytes s.par s.par.addr0 (cmdOf s.par s.reqOp) [])] :=
  ⟨Params.default_valid, by decide⟩

theorem witness_EchoOfTheRequestIsAccepted :
    let s := given (awaiting .stopMeas .float) (.rxChunk stopFrame)
    s.par.Valid ∧ s.estate = .awaitingResponse ∧ s.dec.dstate = .awaitingStart ∧
      s.reqOp ∈ [Op.stopMeas, .sleep, .wakeUp, .fanClean, .reset, .writeInterval] ∧ s.inputs = [.rxChunk s.requestFrame] :=
  ⟨Params.default_valid, by decide⟩

/-- An engine in `Sending`, on the first of two attempts. -/
def sending (e : Input) : State := { given (awaiting .sleep .float) e with estate := .sending }

theorem witness_TxDoneArmsTheDeadline : (sending .txDone).inputs = [.txDone] ∧ (sending .txDone).estate = .sending := by decide

theorem witness_TransportErrorEndsTheExchange :
    ((sending (.txError .first)).inputs = [.txError .first] ∧ (sending (.txError .first)).estate = .sending) ∧
    ((given (awaiting .sleep .float) (.rxError .first)).inputs = [.rxError .first] ∧
      (given (awaiting .sleep .float) (.rxError .first)).estate = .awaitingResponse) := by decide

theorem witness_TickCountsTheDeadlineDown :
    let s := given (awaiting .sleep .float) .tick
    s.inputs = [.tick] ∧ (s.estate = .awaitingResponse ∧ s.deadline = 1#32) ∧
      ({ s with deadline := 2#32 }.estate = .awaitingResponse ∧ { s with deadline := 2#32 }.deadline ≠ 1#32) ∧
      (sending .tick).estate ≠ .awaitingResponse ∧ (given State.reset .tick).estate ≠ .awaitingResponse := by decide

theorem witness_ChunkIsFedToTheFirstOutput :
    (awaiting .sleep .float).par.Valid ∧ (awaiting .sleep .float).estate = .awaitingResponse ∧
    ∃ d d', decRun P (awaiting .sleep .float).dec [0x7E#8, 0x00#8] = .ok ([], d) ∧
      decStep P d 0x13#8 = .ok (d', .error (.framing .unexpectedByte)) ∧
      (given (awaiting .sleep .float) (.rxChunk [0x7E#8, 0x00#8])).inputs = [.rxChunk [0x7E#8, 0x00#8]] ∧
      (given (awaiting .sleep .float) (.rxChunk [0x7E#8, 0x00#8, 0x13#8, 0x7E#8])).inputs =
        [.rxChunk ([0x7E#8, 0x00#8] ++ 0x13#8 :: [0x7E#8])] :=
  ⟨Params.default_valid, rfl, _, _, rfl, rfl, rfl, rfl⟩

theorem witness_StrayTransportEventsHaveNoStep :
    (given State.reset .txDone).estate ≠ .sending ∧ (given State.reset .txDone).inputs = [.txDone] ∧
    (given (awaiting .sleep .float) (.txError .first)).estate ≠ .sending ∧
    (given (awaiting .sleep .float) (.txError .first)).inputs = [.txError .first] ∧
    (sending (.rxChunk [])).estate ≠ .awaitingResponse ∧ (sending (.rxChunk [])).inputs = [.rxChunk []] ∧
    (given State.reset (.rxError .first)).estate ≠ .awaitingResponse ∧ (given State.reset (.rxError .first)).inputs = [.rxError .first] := by
  decide

theorem witness_ResetInputEqualsCancelAndClear :
    (given (inState .readingCommand true 0#8 0#8) .reset).inputs = [.reset] := by decide

/-- A payload half received meets the invariant. -/
theorem inState_inv : (inState .readingPayload false 2#8 4#8).Inv where
  par_valid := Params.default_valid
  dec_inv :=
    { buf_wf := by decide
      buf_bound := by decide
      esc_field := nofun
      remaining_zero := fun h => absurd rfl h
      payload_count := fun _ => by decide
      payload_stored := fun _ => by
        rintro i hi
        have : i = 0 ∨ i = 1 := by
          have : i < 2 := hi
          omega
        obtain rfl | rfl := this <;> rfl
      frame_stored := nofun }
  resting := .inr (.inr rfl)
  dec_cleared := fun h => absurd rfl h
  attempt_le := by decide
  attempt_lt := fun _ => by decide
  latched_valid := fun _ => by decide
  cause_iff := fun _ => by decide
  deadline_range := fun _ => by decide

/-- Offering an event touches no field of the invariant. -/
theorem given_inv (e : Input) : (given (inState .readingPayload false 2#8 4#8) e).Inv :=
  ⟨inState_inv.par_valid, inState_inv.dec_inv, inState_inv.resting, inState_inv.dec_cleared, inState_inv.attempt_le,
    inState_inv.attempt_lt, inState_inv.latched_valid, inState_inv.cause_iff, inState_inv.deadline_range⟩

theorem witness_StepKeepsTheInvariant :
    let s := given (inState .readingPayload false 2#8 4#8) (.rxChunk [0x3A#8])
    s.Inv ∧ ∃ t, step s = .next t := ⟨given_inv _, _, rfl⟩

theorem witness_NoStepFaultsUnderTheInvariant : (given (inState .readingPayload false 2#8 4#8) (.rxChunk [0x3A#8])).Inv :=
  given_inv _

theorem witness_StepExtendsTheHistoryAndKeepsTheParameters :
    ∃ t, step (given (awaiting .sleep .float) .tick) = .next t := ⟨_, rfl⟩

theorem witness_OnlyStartWritesTheLatches :
    (∃ t, step (given (awaiting .sleep .float) .tick) = .next t ∧
      (given (awaiting .sleep .float) .tick).inputs.head? ≠ some .reset ∧
      (given (awaiting .sleep .float) .tick).estate ≠ .idle) ∧
    ∃ t, step (given State.reset .tick) = .next t ∧ (given State.reset .tick).inputs.head? ≠ some .reset ∧
      ∀ sel a, (given State.reset .tick).inputs.head? ≠ some (.start sel a) :=
  ⟨⟨_, rfl, nofun, nofun⟩, ⟨_, rfl, nofun, nofun⟩⟩

theorem witness_ChunkOutcomesOfTheEngine :
    ∃ t, step (given (awaiting .stopMeas .float) (.rxChunk stopFrame)) = .next t ∧
      (given (awaiting .stopMeas .float) (.rxChunk stopFrame)).inputs = [.rxChunk stopFrame] := ⟨_, rfl, rfl⟩

/-- A step that goes on, one that ends the exchange, and a cancel. -/
theorem witness_ExchangeEndsWithOneResult :
    (∀ e, (given (inState .readingPayload false 2#8 4#8) e).Inv ∧ (given (inState .readingPayload false 2#8 4#8) e).estate ≠ .idle) ∧
    (∃ t, step (given (inState .readingPayload false 2#8 4#8) (.rxChunk [])) = .next t ∧
      emitted (given (inState .readingPayload false 2#8 4#8) (.rxChunk [])) t [] ∧ t.estate ≠ .idle) ∧
    (∃ t, step (given (inState .readingPayload false 2#8 4#8) (.rxError .first)) = .next t ∧
      emitted (given (inState .readingPayload false 2#8 4#8) (.rxError .first)) t [.result (.err (.transportError .first))] ∧
      t.estate = .idle) ∧
    ∃ t, step (given (inState .readingPayload false 2#8 4#8) .cancel) = .next t ∧
      emitted (given (inState .readingPayload false 2#8 4#8) .cancel) t [] :=
  ⟨fun _ => ⟨given_inv _, nofun⟩, ⟨_, rfl, rfl, nofun⟩, ⟨_, rfl, rfl, rfl⟩, ⟨_, rfl, rfl⟩⟩

/-- The first frame of an exchange, and a re-send. -/
theorem witness_EveryWriteIsTheLatchedRequest :
    (∃ t outs bytes, step (given State.reset (.start 1#4 zeroArgs)) = .next t ∧
      emitted (given State.reset (.start 1#4 zeroArgs)) t outs ∧ Output.txWrite bytes ∈ outs) ∧
    ∃ t outs bytes, step (given (awaiting .sleep .float) .tick) = .next t ∧
      emitted (given (awaiting .sleep .float) .tick) t outs ∧ Output.txWrite bytes ∈ outs ∧
      (given (awaiting .sleep .float) .tick).estate ≠ .idle :=
  ⟨⟨_, [_], _, rfl, rfl, .head _⟩, ⟨_, [_, _], _, rfl, rfl, .tail _ (.head _), nofun⟩⟩

theorem witness_OkResultsFitTheRequest :
    ∃ t, step (given (awaiting .stopMeas .float) (.rxChunk stopFrame)) = .next t ∧
      emitted (given (awaiting .stopMeas .float) (.rxChunk stopFrame)) t [.result (.ok .stopMeas 0#8 [])] ∧
      Output.result (.ok .stopMeas 0#8 []) ∈ [Output.result (.ok .stopMeas 0#8 [])] := ⟨_, rfl, rfl, .head _⟩

/-- One attempt of one tick, and two attempts of three ticks. -/
theorem witness_SilentTransportExhaustsTheRetries :
    let s (n t : Nat) : State :=
      { awaiting .sleep .float with
        estate := .sending
        cfgMaxAttempts := BitVec.ofNat 8 (n + 1)
        cfgTimeout := BitVec.ofNat 32 (t + 1)
        inputs := (List.replicate (n + 1) (Input.txDone :: List.replicate (t + 1) .tick)).flatten ++ [] }
    ∀ n t, (n = 0 ∧ t = 0) ∨ (n = 1 ∧ t = 2) →
      (s n t).estate = .sending ∧ (s n t).attempt = 0#8 ∧ (s n t).cfgMaxAttempts.toNat = n + 1 ∧
        (s n t).cfgTimeout.toNat = t + 1 := by
  rintro s n t (⟨rfl, rfl⟩ | ⟨rfl, rfl⟩) <;> exact ⟨rfl, rfl, rfl, rfl⟩

/-- A decoder cleared after a frame, in place of one cleared by reset. -/
theorem witness_StaleReceiveContentsAreUnobservable :
    (given (awaiting .stopMeas .float) (.rxChunk stopFrame)).par.Valid ∧
    (given (awaiting .stopMeas .float) (.rxChunk stopFrame)).dec.cleared ∧ (stopDecoder 0x00#8 0xD0#8 0x25#8).clear.cleared ∧
    (stopDecoder 0x00#8 0xD0#8 0x25#8).clear ≠ Decoder.reset ∧
    ∃ t, Host.Core.run Sys2Proof.core 1 (given (awaiting .stopMeas .float) (.rxChunk stopFrame)) = .next t :=
  ⟨Params.default_valid, ⟨rfl, rfl, rfl⟩, ⟨rfl, rfl, rfl⟩, by decide, _, rfl⟩

theorem witness_FloatMeasurementIsTenBigEndianWords : (List.replicate 40 0x3F#8 : List Byte).length = 40 := by decide

theorem witness_FixedMeasurementIsTenBigEndianValues : (List.replicate 20 0x3F#8 : List Byte).length = 20 := by decide

theorem witness_StatusBitsAreDecoded : [0x00#8].length = P.statusRsvdLen := by decide

end Sys2Proof.Tests
end

section
/-! SUPPORT and the settled statements of the Checksum Unit (40_checksum.md R130, R131, R132, R134): `CHK.COMPUTE` and `CHK.VERIFY`
said once as arithmetic of the sum modulo 256, and what that sum does when one byte is replaced. -/

namespace Sys2Proof.Machine

/-- The closed form of R130: the complement of the sum modulo 256. -/
theorem toNat_chkCompute (bytes : List Byte) :
    (chkCompute bytes).toNat = 255 - (bytes.map BitVec.toNat).sum % 256 := by
  simp [chkCompute, toNat_sum8]

/-- `CHK.VERIFY` compares the claimed byte with the computed one (R132). -/
theorem chkVerify_eq_true_iff (bytes : List Byte) (claimed : Byte) :
    chkVerify bytes claimed = true ↔ chkCompute bytes = claimed := by
  simp [chkVerify]

/-- The consistency law of R131: a verified list and its claimed byte sum to 255 modulo 256. -/
theorem chkVerify_eq_true_iff_sum (bytes : List Byte) (claimed : Byte) :
    chkVerify bytes claimed = true ↔ ((bytes.map BitVec.toNat).sum + claimed.toNat) % 256 = 255 := by
  rw [chkVerify_eq_true_iff, ← BitVec.toNat_inj, toNat_chkCompute]
  have := claimed.isLt
  omega

/-- `CHK.VERIFY` sees of a list only its sum modulo 256 (R134). -/
theorem chkVerify_eq_of_sum_mod_eq {bytes bytes' : List Byte}
    (h : (bytes.map BitVec.toNat).sum % 256 = (bytes'.map BitVec.toNat).sum % 256) (claimed : Byte) :
    chkVerify bytes' claimed = chkVerify bytes claimed := by
  rw [Bool.eq_iff_iff, chkVerify_eq_true_iff_sum, chkVerify_eq_true_iff_sum]
  omega

/-- Replacing a byte moves the sum by the difference of the two bytes, written without a subtraction. -/
theorem sum_map_toNat_set_add (bytes : List Byte) {k : Nat} (hk : k < bytes.length) (x : Byte) :
    ((bytes.set k x).map BitVec.toNat).sum + bytes[k].toNat = (bytes.map BitVec.toNat).sum + x.toNat := by
  induction bytes generalizing k with
  | nil => simp at hk
  | cons b bs ih =>
    cases k with
    | zero => simp; omega
    | succ k =>
      have := ih (Nat.lt_of_succ_lt_succ hk)
      simp only [List.set_cons_succ, List.map_cons, List.sum_cons, List.getElem_cons_succ]
      omega

/-- A verified list still verifies with one byte replaced only when the new byte is the old one: a difference of two bytes is no
nonzero multiple of 256 (R134). -/
theorem chkVerify_set_eq_true_iff {bytes : List Byte} {claimed : Byte} (h : chkVerify bytes claimed = true) {k : Nat}
    (hk : k < bytes.length) (x : Byte) : chkVerify (bytes.set k x) claimed = true ↔ bytes[k] = x := by
  have hsum := sum_map_toNat_set_add bytes hk x
  have hold := bytes[k].isLt
  have hnew := x.isLt
  rw [chkVerify_eq_true_iff_sum] at h ⊢
  rw [← BitVec.toNat_inj]
  omega

/-- Settles O29, by the two closed forms of the sum modulo 256. -/
theorem checksumIsComplementOfTheSum : Obligations.ChecksumIsComplementOfTheSum :=
  fun bytes claimed => ⟨toNat_chkCompute bytes, chkVerify_eq_true_iff_sum bytes claimed⟩

/-- Settles O30: one replaced byte changes the sum modulo 256, and only that sum is seen. -/
theorem checksumDetectsOneChangedByte : Obligations.ChecksumDetectsOneChangedByte := by
  intro bytes bytes' claimed claimed' x k
  refine ⟨fun h hk hx => ?byte, fun h hne => ?claimed, fun h => chkVerify_eq_of_sum_mod_eq h claimed, fun h => ?reordered⟩
  case byte =>
    rw [← Bool.not_eq_true, chkVerify_set_eq_true_iff h hk]
    simpa [List.getElem?_eq_getElem hk] using hx
  case claimed =>
    rw [← Bool.not_eq_true, chkVerify_eq_true_iff]
    rw [chkVerify_eq_true_iff] at h
    exact fun h' => hne (h'.symm.trans h)
  case reordered =>
    have hsum := (h.map BitVec.toNat).sum_eq
    exact chkVerify_eq_of_sum_mod_eq (by rw [hsum]) claimed

end Sys2Proof.Machine
end

section
/-! SUPPORT and the settled statements of the Byte Stuffer and Destuffer (41_stuffing.md R143, R149): `DESTUFF` undoes `STUFF`, a raw
list without `DELIM` is accepted only as a stuffed one, and what follows an `ESC` in stuffed bytes. -/

namespace Sys2Proof.Machine

theorem stuff_singleton (p : Params) (b : Byte) : stuff p [b] = stuffByte p b := by
  rw [stuff_cons, stuff_nil, List.append_nil]

/-- `DESTUFF` undoes `STUFF` (R149). -/
theorem destuff_stuff {p : Params} (hp : p.Valid) (bs : List Byte) : destuff p (stuff p bs) = .ok bs := by
  unfold destuff
  induction bs with
  | nil => rfl
  | cons b bs ih => rw [stuff_cons, destuffFrom_stuffByte hp, ih]; rfl

/-- `DESTUFF` undoes `STUFF.BYTE` (R149). -/
theorem destuff_stuffByte {p : Params} (hp : p.Valid) (b : Byte) : destuff p (stuffByte p b) = .ok [b] := by
  rw [← stuff_singleton, destuff_stuff hp]

/-- The raw lists that `DESTUFF` accepts as `bs` are `STUFF(bs)` alone (R149). -/
theorem destuffsTo_iff_eq_stuff {p : Params} (hp : p.Valid) {raw bs : List Byte} :
    DestuffsTo p raw bs ↔ raw = stuff p bs := by
  constructor
  · rintro ⟨hdelim, hok⟩
    simpa using destuffFrom_ok hp hdelim hok
  · rintro rfl
    exact ⟨(not_mem_stuff hp bs).1, destuff_stuff hp bs⟩

/-- The byte after an `ESC` in stuffed bytes is the image of a reserved byte (R143). An `ESC` is never the second byte of a pair,
because that byte is not reserved (R8), and never stands for itself, because it is reserved. -/
theorem getElem?_stuff_succ_of_esc {p : Params} (hp : p.Valid) {bs : List Byte} {k : Nat}
    (h : (stuff p bs)[k]? = some p.esc) : ∃ r ∈ p.reserved, (stuff p bs)[k + 1]? = some (p.xf r) := by
  induction bs generalizing k with
  | nil => simp [stuff_nil] at h
  | cons b bs ih =>
    rw [stuff_cons] at h ⊢
    rcases stuffByte_cases p b with ⟨hr, e⟩ | ⟨hr, e⟩ <;> rw [e] at h ⊢
    case inl =>
      match k with
      | 0 => exact ⟨b, (p.isReserved_iff b).mp hr, rfl⟩
      | 1 => exact absurd (Option.some.inj h) (hp.xf_not_reserved hr).2.1
      | k + 2 => exact ih h
    case inr =>
      match k with
      | 0 => exact absurd (Option.some.inj h) ((p.isReserved_eq_false_iff b).mp hr).2.1
      | k + 1 => exact ih h

/-- Settles O31, by the two directions of the correspondence between raw and field bytes. -/
theorem stuffAndDestuffAreInverse : Obligations.StuffAndDestuffAreInverse :=
  fun _ bs _ hp => ⟨destuff_stuff hp bs, destuff_stuffByte hp, destuffsTo_iff_eq_stuff hp⟩

/-- Settles O32: neither form of a stuffed byte holds a bare reserved byte, and only a pair starts with `ESC`. -/
theorem stuffedOutputHasNoBareReservedByte : Obligations.StuffedOutputHasNoBareReservedByte := by
  intro p bs hp
  obtain ⟨hdelim, hfc1, hfc2⟩ := not_mem_stuff hp bs
  exact ⟨hdelim, hfc1, hfc2, fun _ h => getElem?_stuff_succ_of_esc hp h⟩

end Sys2Proof.Machine
end

section
/-! SUPPORT and the settled statement of the frame encoder (42_frame_encode.md R157, R158): `FRAME.ENCODE` of an admissible payload,
and the lengths of its field bytes, unstuffed and stuffed. -/

namespace Sys2Proof.Machine

/-- A payload of at most 255 bytes is encoded, not refused (R155). -/
theorem frameEncode_of_length_le {payload : List Byte} (h : payload.length ≤ 255) (p : Params) (addr cmd : Byte) :
    frameEncode p addr cmd payload = some (frameBytes p addr cmd payload) :=
  if_pos h

/-- Three header bytes and the checksum join the payload (R155). -/
@[simp] theorem length_fieldBytes (addr cmd : Byte) (payload : List Byte) :
    (fieldBytes addr cmd payload).length = payload.length + 4 := by
  simp [fieldBytes, frameBody]

/-- Stuffing at most doubles a list, when every byte is reserved (R142). -/
theorem length_stuff_le (p : Params) (bs : List Byte) : (stuff p bs).length ≤ 2 * bs.length := by
  have hcount : bs.countP (fun b => p.isReserved b) ≤ bs.length := List.countP_le_length
  rw [length_stuff]
  omega

/-- Settles O33: what stands between the two delimiters is the stuffed field bytes, so R143 says which bytes occur there, and the
length law of `STUFF` over `n + 4` field bytes gives the length and both its bounds. -/
theorem encodedFrameHasTwoDelimiters : Obligations.EncodedFrameHasTwoDelimiters := by
  intro p addr cmd payload hp hn
  obtain ⟨hdelim, hfc1, hfc2⟩ := not_mem_stuff hp (fieldBytes addr cmd payload)
  have hlen := length_stuff p (fieldBytes addr cmd payload)
  have hmax := length_stuff_le p (fieldBytes addr cmd payload)
  rw [length_fieldBytes] at hlen hmax
  exact ⟨stuff p (fieldBytes addr cmd payload), frameEncode_of_length_le hn p addr cmd, hdelim, hfc1, hfc2,
    fun _ hesc => getElem?_stuff_succ_of_esc hp hesc, by omega, by omega, by omega⟩

end Sys2Proof.Machine
end

section
/-! SUPPORT and the settled statements of one decoder step (43_frame_decode.md R172 to R185): the rows of a field byte, of the escape
marker and of the errors of the destuffer, each said once of `decStep`. -/

namespace Sys2Proof.Machine

/-- The opening delimiter (R170). -/
theorem decStep_open {p : Params} {d : Decoder} (hd : d.dstate = .awaitingStart) :
    decStep p d p.delim = .ok (d.openFrame, .none) := by
  rw [decStep_start _ hd, if_pos rfl]

/-- Outside a frame every other byte is discarded (R170). -/
theorem decStep_discard {p : Params} {d : Decoder} {b : Byte} (hd : d.dstate = .awaitingStart) (hb : b ≠ p.delim) :
    decStep p d b = .ok (d, .none) := by
  rw [decStep_start _ hd, if_neg hb]

/-- A raw byte that stands for the field byte `v`, plain or as the second byte of a pair, acts as `v` (R173, R175 to R180). -/
theorem decStep_fieldByte {p : Params} {d : Decoder} {b v : Byte} (hf : d.dstate.inField = true) (hb : b ≠ p.delim)
    (hv : (d.esc = true ∧ p.unxf b = v ∧ p.isReserved v = true) ∨ (d.esc = false ∧ b = v ∧ p.isReserved v = false)) :
    decStep p d b = d.fieldByte p v := by
  rw [decStep_field hf hb]
  rcases hv with ⟨he, rfl, hr⟩ | ⟨he, rfl, hr⟩
  · simp [destuffStep, he, hr]
  · obtain ⟨-, hesc, hfc1, hfc2⟩ := (p.isReserved_eq_false_iff b).mp hr
    simp [destuffStep, he, hesc, hfc1, hfc2]

/-- The escape marker (R172). -/
theorem decStep_esc {p : Params} (hp : p.Valid) {d : Decoder} (hf : d.dstate.inField = true) (he : d.esc = false) :
    decStep p d p.esc = .ok (d.setEsc, .none) := by
  rw [decStep_field hf hp.distinct.1.symm]
  simp [destuffStep, he, Decoder.setEsc]

/-- A byte after `ESC` that is no image of a reserved byte (R173). -/
theorem decStep_malformedEscape {p : Params} {d : Decoder} {b : Byte} (hf : d.dstate.inField = true) (hb : b ≠ p.delim)
    (he : d.esc = true) (hr : p.isReserved (p.unxf b) = false) :
    decStep p d b = .ok (d.clear, .error (.framing .malformedEscape)) := by
  rw [decStep_field hf hb]
  simp [destuffStep, he, hr]

/-- A bare flow-control byte (R174). -/
theorem decStep_flowControl {p : Params} (hp : p.Valid) {d : Decoder} {b : Byte} (hf : d.dstate.inField = true)
    (he : d.esc = false) (hb : b = p.fc1 ∨ b = p.fc2) :
    decStep p d b = .ok (d.clear, .error (.framing .unexpectedByte)) := by
  obtain ⟨-, hd1, hd2, he1, he2, -⟩ := hp.distinct
  have hdelim : b ≠ p.delim := by rcases hb with rfl | rfl <;> exact Ne.symm ‹_›
  have hesc : b ≠ p.esc := by rcases hb with rfl | rfl <;> exact Ne.symm ‹_›
  rw [decStep_field hf hdelim]
  simp [destuffStep, he, hesc, hb]

/-- Settles O22: the raw byte acts as the field byte it stands for, and each register update is that state's. -/
theorem fieldBytesUpdateTheRegisters : Obligations.FieldBytesUpdateTheRegisters := by
  intro p d b v hb hv
  have hstep : d.dstate.inField = true → decStep p d b = d.fieldByte p v := fun hf => decStep_fieldByte hf hb hv
  refine ⟨fun hd => ?address, fun hd => ?command, fun hd hc => ?overflow, fun hd _ hz => ?empty, fun hd hc hz => ?length,
    fun hd h1 h2 h3 => ?payload, fun hd => ?checksum⟩ <;> rw [hstep (by rw [hd]; rfl), Decoder.fieldByte, hd]
  case address => rfl
  case command => rfl
  case overflow => exact congrArg Except.ok (d.storeLen_overflow hc)
  case empty => subst hz; exact congrArg Except.ok (d.storeLen_zero p)
  case length => exact congrArg Except.ok (d.storeLen_pos hc hz)
  case payload =>
    refine ⟨Memory.write d.buf d.payloadIndex v, fun i => Memory.read_write _ _ _ _, fun hr => ?_, fun hr => ?_⟩ <;>
      simp [Decoder.storePayload_eq v hd h1 h2 h3, hr]
  case checksum => rfl

/-- Settles O21: the rows of a field byte are read off its register updates, and every other row is one case of the step. -/
theorem decoderTransitionTable : Obligations.DecoderTransitionTable := by
  intro p d b hp
  refine ⟨fun hd hb => ⟨_, hb ▸ decStep_open hd, rfl⟩, fun hd hb => decStep_discard hd hb, fun v ⟨hb, hv⟩ => ?field, fun hd hb q hq => ?closing,
    fun hd hb => ⟨_, decStep_stop hd hb, rfl⟩, fun hf hb => ⟨_, hb ▸ decStep_delim hf, rfl⟩,
    fun hf hb he => hb ▸ decStep_esc hp hf he, fun hf hb he hr => ⟨_, decStep_malformedEscape hf hb he hr, rfl⟩,
    fun hf he hb => ⟨_, decStep_flowControl hp hf he hb, rfl⟩⟩
  case field =>
    obtain ⟨haddr, hcmd, hover, hempty, hlen, hpay, hchk⟩ := fieldBytesUpdateTheRegisters p d b v hb hv
    refine ⟨fun hd => ⟨_, haddr hd, rfl⟩, fun hd => ⟨_, hcmd hd, rfl⟩, fun hd hz => ⟨_, hempty hd (by simp [hz]) hz, rfl⟩,
      fun hd hz hc => ⟨_, hlen hd hc hz, rfl, rfl⟩, fun hd hc => ⟨_, hover hd hc, rfl⟩, fun hd h1 h2 h3 => ?more,
      fun hd hr h1 h3 => ?last, fun hd => ⟨_, hchk hd, rfl⟩⟩
    case more =>
      obtain ⟨buf, -, -, hmore⟩ := hpay hd (by omega) h2 h3
      exact ⟨_, hmore (fun hr => by simp [hr] at h1), hd, rfl⟩
    case last =>
      obtain ⟨buf, -, hlast, -⟩ := hpay hd (by simp [hr]) (by simpa [hr] using h1) h3
      exact ⟨_, hlast hr, rfl⟩
  case closing =>
    have hstep := decStep_close (p := p) hd
    rw [← hb, Decoder.complete_eq hq] at hstep
    exact ⟨fun hc => ⟨_, by rw [hstep, if_pos hc], rfl⟩, fun hc => ⟨_, by rw [hstep, if_neg hc], rfl⟩⟩

end Sys2Proof.Machine
end

section
/-! SUPPORT and the settled statements of a decoder run (43_frame_decode.md R188 to R192): a run over two byte lists, a run outside a
frame, and the frame codec both ways: an encoded frame is decoded, and only an encoded frame is. -/

namespace Sys2Proof.Machine

/-! ### Runs -/

/-- A run over `a ++ b` is the run over `a` and then, from the state it leaves, the run over `b` (R188). -/
theorem decRun_append (p : Params) (d : Decoder) (a b : List Byte) :
    decRun p d (a ++ b) =
      (decRun p d a).bind fun r => (decRun p r.2 b).map fun r' => (r.1 ++ r'.1, r'.2) := by
  induction a generalizing d with
  | nil => simp [Except.bind, Except.map]; cases decRun p d b <;> rfl
  | cons x a ih =>
    simp only [List.cons_append, decRun]
    cases decStep p d x with
    | error f => rfl
    | ok r =>
      obtain ⟨d₁, out⟩ := r
      simp only [ih]
      cases decRun p d₁ a with
      | error f => rfl
      | ok r =>
        obtain ⟨outs, d₂⟩ := r
        simp only [Except.bind]
        cases decRun p d₂ b with
        | error f => rfl
        | ok r => simp only [Except.map]; split <;> rfl

/-- Two runs that end without a fault, one after the other (R188). -/
theorem decRun_append_ok {p : Params} {d d₁ d₂ : Decoder} {a b : List Byte} {outs outs' : List DecOut}
    (ha : decRun p d a = .ok (outs, d₁)) (hb : decRun p d₁ b = .ok (outs', d₂)) :
    decRun p d (a ++ b) = .ok (outs ++ outs', d₂) := by
  simp [decRun_append, ha, hb, Except.bind, Except.map]

/-- A run over one byte that reports something. -/
theorem decRun_singleton {p : Params} {d d' : Decoder} {b : Byte} {out : DecOut} (h : decStep p d b = .ok (d', out))
    (ho : out ≠ .none) : decRun p d [b] = .ok ([out], d') :=
  decRun_cons_some h ho (decRun_nil p d')

/-- Outside a frame bytes other than `DELIM` are discarded (R170, R192). -/
theorem decRun_of_delim_not_mem {p : Params} {d : Decoder} (hd : d.dstate = .awaitingStart) {g : List Byte}
    (hg : p.delim ∉ g) : decRun p d g = .ok ([], d) := by
  induction g with
  | nil => rfl
  | cons b g ih =>
    obtain ⟨hb, hg⟩ := not_or.mp (List.mem_cons.not.mp hg)
    rw [decRun_cons_none (decStep_discard hd (Ne.symm hb)), ih hg]

/-- The first step of a run without outputs is silent. -/
theorem decRun_cons_silent {p : Params} {d d' : Decoder} {b : Byte} {bs : List Byte} (h : decRun p d (b :: bs) = .ok ([], d')) :
    ∃ d₁, decStep p d b = .ok (d₁, .none) ∧ decRun p d₁ bs = .ok ([], d') := by
  simp only [decRun] at h
  cases hs : decStep p d b with
  | error f => simp [hs] at h
  | ok r =>
    obtain ⟨d₁, out⟩ := r
    simp only [hs] at h
    cases hr : decRun p d₁ bs with
    | error f => simp [hr] at h
    | ok r =>
      obtain ⟨outs, d₂⟩ := r
      simp only [hr, Except.ok.injEq, Prod.mk.injEq] at h
      obtain ⟨ho, rfl⟩ := h
      split at ho
      · subst ho; subst out; exact ⟨d₁, rfl, hr⟩
      · cases ho

/-- What a run without outputs consumes inside a frame is part of that frame (R190). -/
theorem Decoder.reads_run {p : Params} (hp : p.Valid) {d d' : Decoder} {w bytes : List Byte} (h : d.reads p w)
    (hr : decRun p d bytes = .ok ([], d')) : d'.reads p (w ++ bytes) := by
  induction bytes generalizing d w with
  | nil => cases hr; simpa using h
  | cons b bs ih =>
    obtain ⟨d₁, hs, hr⟩ := decRun_cons_silent hr
    simpa using ih (Decoder.reads_step hp h hs) hr

/-- Settles O24: a run is a fold over its bytes. -/
theorem decoderRunIsChunkIndependent : Obligations.DecoderRunIsChunkIndependent := by
  intro p d a b
  rw [decRun_append]
  cases decRun p d a with
  | error f => rfl
  | ok r =>
    obtain ⟨outs, d₁⟩ := r
    simp only [Except.bind]
    cases decRun p d₁ b <;> rfl

/-! ### The frame codec -/

/-- An encoded frame without its closing delimiter. -/
theorem dropLast_frameBytes (p : Params) (addr cmd : Byte) (q : List Byte) :
    (frameBytes p addr cmd q).dropLast = [p.delim] ++ stuff p (fieldBytes addr cmd q) :=
  List.dropLast_concat

/-- An encoded frame is decoded on its closing delimiter, and its other bytes are silent (R189). -/
theorem decStep_closing_frameBytes {p : Params} (hp : p.Valid) {d : Decoder} (hd : d.dstate = .awaitingStart) (addr cmd : Byte)
    {q : List Byte} (hq : q.length ≤ p.cap) :
    ∃ d₁, decRun p d (frameBytes p addr cmd q).dropLast = .ok ([], d₁) ∧
      decStep p d₁ p.delim = .ok (d₁.clear, .frame addr cmd (BitVec.ofNat 8 q.length) q) := by
  obtain ⟨buf, hrun, hread⟩ := decRun_body hp hd addr cmd (chkCompute (frameBody addr cmd q)) hq
  have hn : (BitVec.ofNat 8 q.length).toNat = q.length := by have := hp.cap_le; simp; omega
  have hpay : Memory.readN buf 0 (BitVec.ofNat 8 q.length).toNat = some q :=
    (Memory.readN_eq_some_iff _ _ _ _).mpr ⟨hn.symm, fun k hk => by simp [hread, hn ▸ hk]⟩
  refine ⟨_, by rw [dropLast_frameBytes, ← List.append_nil (_ ++ _)]; exact hrun [], ?_⟩
  rw [decStep_close rfl, Decoder.complete_eq hpay]
  simp [frameBody]

/-- An encoded frame gives the frame as its one output and leaves the decoder cleared (R189). -/
theorem decRun_frameBytes {p : Params} (hp : p.Valid) {d : Decoder} (hd : d.dstate = .awaitingStart) (addr cmd : Byte)
    {q : List Byte} (hq : q.length ≤ p.cap) :
    ∃ d₂, decRun p d (frameBytes p addr cmd q) = .ok ([.frame addr cmd (BitVec.ofNat 8 q.length) q], d₂) ∧ d₂.cleared := by
  obtain ⟨d₁, hrun, hclose⟩ := decStep_closing_frameBytes hp hd addr cmd hq
  rw [dropLast_frameBytes] at hrun
  exact ⟨d₁.clear, decRun_append_ok hrun (decRun_singleton hclose (by simp)), d₁.clear_cleared⟩

/-- A stuffed field byte that is reported on (R172 to R180). -/
theorem decRun_stuffByte_output {p : Params} (hp : p.Valid) {d d' : Decoder} {v : Byte} {out : DecOut}
    (hf : d.dstate.inField = true) (he : d.esc = false) (h : d.fieldByte p v = .ok (d', out)) (ho : out ≠ .none) :
    decRun p d (stuffByte p v) = .ok ([out], d') := by
  rcases stuffByte_cases p v with ⟨hr, e⟩ | ⟨hr, e⟩ <;> rw [e]
  case inl =>
    have hpair : decStep p d.setEsc (p.xf v) = .ok (d', out) := by
      rw [decStep_fieldByte (d := d.setEsc) hf (hp.xf_not_reserved hr).1 (.inl ⟨rfl, hp.unxf_xf v, hr⟩), ← h]
      exact Decoder.fieldByte_esc p hf true v
    rw [decRun_cons_none (decStep_esc hp hf he), decRun_singleton hpair ho]
  case inr =>
    have hplain := decStep_fieldByte hf ((p.isReserved_eq_false_iff v).mp hr).1 (.inr ⟨he, rfl, hr⟩)
    exact decRun_singleton (hplain.trans h) ho

/-- The opening delimiter and the first two field bytes of a frame (R170, R175, R176). -/
theorem decRun_header {p : Params} (hp : p.Valid) {d : Decoder} (hd : d.dstate = .awaitingStart) (addr cmd : Byte)
    (rest : List Byte) :
    decRun p d (p.delim :: (stuffByte p addr ++ (stuffByte p cmd ++ rest))) =
      decRun p ((d.openFrame.storeAddr addr).storeCmd cmd) rest := by
  rw [decRun_cons_none (decStep_open hd), decRun_stuffByte hp rfl rfl (d' := d.openFrame.storeAddr addr) rfl,
    decRun_stuffByte hp rfl rfl (d' := (d.openFrame.storeAddr addr).storeCmd cmd) rfl]

/-- Outside a frame stuffed bytes are discarded, and the delimiter after them opens a frame (R143, R170). -/
theorem decRun_stuff_delim {p : Params} (hp : p.Valid) {d : Decoder} (hd : d.dstate = .awaitingStart) (fs : List Byte) :
    decRun p d (stuff p fs ++ [p.delim]) = .ok ([], d.openFrame) :=
  decRun_append_ok (decRun_of_delim_not_mem hd (not_mem_stuff hp fs).1)
    (by rw [decRun_cons_none (decStep_open hd), decRun_nil])

/-- A frame whose length is above `CAP` is given up at its length byte; what is left of it holds one delimiter, the closing one,
which opens a frame (R160, R177). -/
theorem decRun_frameBytes_overflow {p : Params} (hp : p.Valid) {d : Decoder} (hd : d.dstate = .awaitingStart) (addr cmd : Byte)
    {q : List Byte} (hq : p.cap < q.length) (hmax : q.length ≤ 255) :
    ∃ d₂, decRun p d (frameBytes p addr cmd q) = .ok ([.error (.overflow (BitVec.ofNat 8 q.length))], d₂) ∧
      d₂.dstate = .readingAddress := by
  have hn : p.cap < (BitVec.ofNat 8 q.length).toNat := by simp; omega
  have hlen := decRun_stuffByte_output hp (d := (d.openFrame.storeAddr addr).storeCmd cmd) rfl rfl
    (congrArg Except.ok (Decoder.storeLen_overflow _ hn)) (by simp)
  have hbytes : frameBytes p addr cmd q = p.delim :: (stuffByte p addr ++ (stuffByte p cmd ++
      (stuffByte p (BitVec.ofNat 8 q.length) ++ (stuff p (q ++ [chkCompute (frameBody addr cmd q)]) ++ [p.delim])))) := by
    simp [frameBytes, fieldBytes, frameBody, stuff_cons]
  rw [hbytes, decRun_header hp hd]
  exact ⟨_, decRun_append_ok hlen (decRun_stuff_delim hp rfl _), rfl⟩

/-- Settles O25, by the run over a frame that fits and the run over one that does not. -/
theorem encodedFrameDecodesToItself : Obligations.EncodedFrameDecodesToItself := by
  intro p d addr cmd q hp hd
  refine ⟨fun hq => ?_, fun hq hmax => decRun_frameBytes_overflow hp hd addr cmd hq hmax⟩
  obtain ⟨d₁, hsilent, -⟩ := decStep_closing_frameBytes hp hd addr cmd hq
  obtain ⟨d₂, hrun, hstart, hesc, -⟩ := decRun_frameBytes hp hd addr cmd hq
  exact ⟨d₁, d₂, hsilent, hrun, hstart, hesc⟩

/-- The encoder is injective: the destuffer gives the field bytes back, and the checksum is one byte (R190). -/
theorem frameBytes_injective {p : Params} (hp : p.Valid) {a c a' c' : Byte} {q q' : List Byte}
    (h : frameBytes p a c q = frameBytes p a' c' q') : a = a' ∧ c = c' ∧ q = q' := by
  have hstuff : stuff p (fieldBytes a c q) = stuff p (fieldBytes a' c' q') := by simpa [frameBytes] using h
  have hfields : fieldBytes a c q = fieldBytes a' c' q' := by
    simpa [destuff_stuff hp] using congrArg (destuff p) hstuff
  have hbody : frameBody a c q = frameBody a' c' q' := (List.append_inj' hfields rfl).1
  simp only [frameBody, List.cons_append, List.nil_append, List.cons.injEq] at hbody
  obtain ⟨ha, hc, -, hq⟩ := hbody
  exact ⟨ha, hc, hq⟩

/-- Settles O26: a frame is reported on exactly the bytes it has read, which are its encoding, and an encoding is read so. -/
theorem decoderAcceptsExactlyTheEncodings : Obligations.DecoderAcceptsExactlyTheEncodings := by
  intro p hp
  refine ⟨fun d body last addr cmd len q hd => ⟨?decoded, ?encoded⟩, fun _ _ _ _ _ _ _ _ h => frameBytes_injective hp h⟩
  case decoded =>
    rintro ⟨d₁, d₂, hrun, hframe⟩
    rw [decRun_cons_none (decStep_open hd)] at hrun
    exact Decoder.reads_frame (Decoder.reads_run hp (d.reads_open p) hrun) hframe
  case encoded =>
    rintro ⟨hbytes, hlen, hq⟩
    obtain ⟨d₁, hrun, hclose⟩ := decStep_closing_frameBytes hp hd addr cmd hq
    obtain ⟨hbody, hlast⟩ := List.append_inj' hbytes rfl
    cases hlast
    have : BitVec.ofNat 8 q.length = len := by rw [← hlen, BitVec.ofNat_toNat, BitVec.setWidth_eq]
    rw [dropLast_frameBytes, ← hbody] at hrun
    exact ⟨d₁, d₁.clear, hrun, this ▸ hclose⟩

/-- Settles O28: the run over the garbage and the run over the frame, one after the other. -/
theorem frameAfterGarbageIsDecoded : Obligations.FrameAfterGarbageIsDecoded := by
  intro p d d₁ g outs addr cmd q hp hd hq
  refine ⟨fun hrun hd₁ _ => ?_, decRun_of_delim_not_mem hd⟩
  obtain ⟨d₂, hframe, hd₂, -⟩ := decRun_frameBytes hp hd₁ addr cmd hq
  exact ⟨d₂, decRun_append_ok hrun hframe, hd₂⟩

end Sys2Proof.Machine
end

section
/-! SUPPORT and the settled statements of the raw-byte rows that store no field byte: what stands outside a frame, the escape marker,
the framing errors and the frame completion (43_frame_decode.md R170, R172 to R174, R181 to R183). -/

namespace Sys2Proof.Machine

/-- A row whose decoder step is silent changes the decoder only. -/
theorem rawRow_silent {s : State} {ctx : Bool} {d : Decoder} (he : s.estate = .awaitingResponse) (hc : ctx = true) :
    rawRow ctx (.ok (d, .none)) s = .next { s with dec := d } := by
  rw [rawRow_eq _ he hc, State.receive_none]

/-- A row that resynchronizes with a framing error fails the attempt (R184, R246). -/
theorem rawRow_framing {s : State} {ctx : Bool} (sub : FramingSub) (he : s.estate = .awaitingResponse) (hc : ctx = true) :
    rawRow ctx (.ok (s.dec.resync (.framing sub))) s = .next (s.failed (.framing sub)) := by
  rw [rawRow_eq _ he hc]
  exact State.receive_framing s sub

/-- Settles O11: both rows are silent. -/
theorem bytesOutsideAFrame : Obligations.BytesOutsideAFrame :=
  fun _ he hd => ⟨rawRow_silent he (by simp [hd]), fun _ hv => rawRow_silent he (by simp [hd, hv])⟩

/-- Settles O12: the row is silent. -/
theorem escapeMarkerSetsEsc : Obligations.EscapeMarkerSetsEsc :=
  fun _ he hf hesc => rawRow_silent he (by simp [Decoder.plainField, hf, hesc])

/-- Settles O17: each row, in its context, resynchronizes with its sub-cause. -/
theorem framingErrorRowsFailTheAttempt : Obligations.FramingErrorRowsFailTheAttempt := by
  intro s he
  refine ⟨fun hf => rawRow_framing _ he hf, fun hf hesc => ?flowControl, fun hf hesc v hv hr => ?malformedEscape,
    fun hd v hv => ?stop⟩
  case flowControl =>
    have hc : s.dec.plainField = true := by simp [Decoder.plainField, hf, hesc]
    exact ⟨rawRow_framing _ he hc, rawRow_framing _ he hc⟩
  case malformedEscape => exact rawRow_framing _ he (by simp [Decoder.pairField, hf, hesc, hv, hr])
  case stop => exact rawRow_framing _ he (by simp [hd, hv])

/-- The closing delimiter over a payload that is stored: the attempt fails with `ChecksumError`, or the frame is validated
(R183, R248). -/
theorem exec_rawDelimClose {s : State} {q : List Byte} (he : s.estate = .awaitingResponse) (hd : s.dec.dstate = .awaitingStop)
    (hq : Memory.readN s.dec.buf 0 s.dec.rxLen.toNat = some q) :
    exec .rawDelimClose s =
      .next (if chkCompute ([s.dec.rxAddr, s.dec.rxCmd, s.dec.rxLen] ++ q) = s.dec.rxChk then
          s.validate s.dec.rxAddr s.dec.rxCmd s.dec.rxLen q
        else s.failed .checksum) := by
  have hrow : exec .rawDelimClose s = s.receive s.dec.complete := rawRow_eq _ he (by simp [hd])
  rw [hrow, Decoder.complete_eq hq]
  split
  · rw [State.receive_frame, State.validate_eq]
  · exact State.receive_checksum s

/-- `VALIDATE` of a frame that passes `CAT.CHECK` (R249). -/
theorem State.validate_of_catCheck_none {s : State} {addr cmd len : Byte} (q : List Byte)
    (h : catCheck s.par s.reqOp s.reqFmt addr cmd len.toNat = none) :
    s.validate addr cmd len q = s.ended (.ok s.reqOp len q) := by
  rw [State.validate_eq, h]

/-- `VALIDATE` of a frame that fails `CAT.CHECK` (R249). -/
theorem State.validate_of_catCheck_some {s : State} {addr cmd len : Byte} {sub : ShapeSub} (q : List Byte)
    (h : catCheck s.par s.reqOp s.reqFmt addr cmd len.toNat = some sub) :
    s.validate addr cmd len q = s.failed (.shape sub) := by
  rw [State.validate_eq, h]

/-- Settles O18: the checksum decides first, and then `CAT.CHECK` by its three conditions in order. -/
theorem closingDelimiterCompletesTheFrame : Obligations.ClosingDelimiterCompletesTheFrame := by
  intro s q he hd hlen hbuf good lengthOk
  have hq : Memory.readN s.dec.buf 0 s.dec.rxLen.toNat = some q :=
    (Memory.readN_eq_some_iff _ _ _ _).mpr ⟨hlen, fun k hk => by simpa using hbuf k (hlen ▸ hk)⟩
  refine ⟨fun hg => ?checksum, fun hg ha => ?address, fun hg ha hc => ?opcode, fun hg ha hc hl => ?length,
    fun hg ha hc hl => ?accepted⟩ <;> rw [exec_rawDelimClose he hd hq]
  case checksum => rw [if_neg hg]
  case address => rw [if_pos hg, State.validate_of_catCheck_some q (if_pos ha)]
  case opcode =>
    rw [if_pos hg, State.validate_of_catCheck_some q ((if_neg (not_not.mpr ha)).trans (if_pos hc))]
  case length =>
    have hcheck : catCheck s.par s.reqOp s.reqFmt s.dec.rxAddr s.dec.rxCmd s.dec.rxLen.toNat = some .lengthMismatch := by
      rw [catCheck, if_neg (not_not.mpr ha), if_neg (not_not.mpr hc), if_pos (hlen ▸ hl)]
    rw [if_pos hg, State.validate_of_catCheck_some q hcheck]
  case accepted =>
    rw [if_pos hg, State.validate_of_catCheck_none q ((catCheck_eq_none_iff _ _ _ _ _ _).mpr ⟨ha, hc, hlen ▸ hl⟩)]

end Sys2Proof.Machine
end

section
/-! SUPPORT. One raw byte: executing the row it is decoded to is one decoder step, followed by the engine's reaction
(43_frame_decode.md R165, R171, 45_engine.md R246). -/

namespace Sys2Proof.Machine

/-- A row in its context. -/
theorem rawRow_of_context {ctx : Bool} (hc : ctx = true) (r : Except Fault (Decoder × DecOut)) (s : State) :
    rawRow ctx r s = rawRow true r s := by
  rw [hc]

/-- The row of an escape pair's second byte for a reserved value (R173). -/
theorem exec_decodeEscaped {s : State} {b : Byte} (hr : s.par.isReserved (s.par.unxf b) = true) :
    exec (decodeEscaped s.par b) s = rawRow s.dec.pairField (s.dec.fieldByte s.par (s.par.unxf b)) s := by
  unfold decodeEscaped
  split_ifs with hdelim hesc hfc1 hfc2
  · rw [hdelim]; rfl
  · rw [hesc]; rfl
  · rw [hfc1]; rfl
  · rw [hfc2]; rfl
  · exact absurd ((s.par.isReserved_eq_false_iff _).mpr ⟨hdelim, hesc, hfc1, hfc2⟩) (by simp [hr])

/-- The row of a malformed escape (R173). -/
theorem decodeEscaped_illegal {p : Params} {b : Byte} (hr : p.isReserved (p.unxf b) = false) :
    decodeEscaped p b = .escapedIllegal b := by
  obtain ⟨hdelim, hesc, hfc1, hfc2⟩ := (p.isReserved_eq_false_iff _).mp hr
  simp [decodeEscaped, hdelim, hesc, hfc1, hfc2]

/-- The rows where a field byte is expected, given that the state's own data row stores it (R172 to R181). -/
theorem exec_decodeField {s : State} {b : Byte} {data : Instr} (hf : s.dec.dstate.inField = true)
    (hdata : s.dec.esc = false → s.par.isReserved b = false → exec data s = rawRow true (s.dec.fieldByte s.par b) s) :
    exec (decodeField s.par s.dec.esc b data) s = rawRow true (decStep s.par s.dec b) s := by
  unfold decodeField
  by_cases hb : b = s.par.delim
  · rw [if_pos hb, hb, decStep_delim hf]
    exact rawRow_of_context hf _ s
  rw [if_neg hb, decStep_field hf hb]
  rcases destuffStep_cases s.par s.dec.esc b with ⟨he, hr, h⟩ | ⟨he, hr, h⟩ | ⟨he, hesc, h⟩ | ⟨he, hesc, hfc, h⟩ |
    ⟨he, hesc, hfc1, hfc2, h⟩ <;> rw [h, he]
  · rw [if_pos rfl, exec_decodeEscaped hr]
    exact rawRow_of_context (by simp [Decoder.pairField, hf, he]) _ s
  · rw [if_pos rfl, decodeEscaped_illegal hr]
    exact rawRow_of_context (by simp [Decoder.pairField, hf, he, hb, hr]) _ s
  · rw [if_neg (by simp), if_pos hesc]
    exact rawRow_of_context (by simp [Decoder.plainField, hf, he]) _ s
  · have hc : s.dec.plainField = true := by simp [Decoder.plainField, hf, he]
    rw [if_neg (by simp), if_neg hesc]
    split_ifs with hfc1 hfc2
    · exact rawRow_of_context hc _ s
    · exact rawRow_of_context hc _ s
    · exact absurd hfc (not_or.mpr ⟨hfc1, hfc2⟩)
  · rw [if_neg (by simp), if_neg hesc, if_neg hfc1, if_neg hfc2]
    exact hdata he ((s.par.isReserved_eq_false_iff b).mpr ⟨hb, hesc, hfc1, hfc2⟩)

/-- Executing the row of a raw byte is one decoder step, while a read is armed (R165, R171, R246). -/
theorem exec_rawInstr (s : State) (b : Byte) : exec (s.rawInstr b) s = rawRow true (decStep s.par s.dec b) s := by
  have hcontext : ∀ ds, s.dec.dstate = ds → s.dec.esc = false → s.par.isReserved b = false → s.dataContext ds b = true :=
    fun ds hd he hr => by simp [State.dataContext, hd, he, hr]
  unfold State.rawInstr decodeRaw
  cases hd : s.dec.dstate <;> simp only
  case awaitingStart =>
    by_cases hb : b = s.par.delim
    · rw [if_pos hb, hb, decStep_open hd]
      exact rawRow_of_context (by simp [hd]) _ s
    · rw [if_neg hb, decStep_discard hd hb]
      exact rawRow_of_context (by simp [hd, hb]) _ s
  case awaitingStop =>
    by_cases hb : b = s.par.delim
    · rw [if_pos hb, hb, decStep_close hd]
      exact rawRow_of_context (by simp [hd]) _ s
    · rw [if_neg hb, decStep_stop hd hb]
      exact rawRow_of_context (by simp [hd, hb]) _ s
  all_goals
    refine exec_decodeField (by rw [hd]; rfl) fun he hr => ?_
    rw [Decoder.fieldByte, hd]
    exact rawRow_of_context (hcontext _ hd he hr) _ s

end Sys2Proof.Machine
end

section
/-! SUPPORT and the settled statement of the receive contents (43_frame_decode.md R187): two decoders agree when they hold the same in
what the current frame has written, and everything the block does keeps the agreement. -/

namespace Sys2Proof.Machine

/-! ### Decoders that agree on the current frame -/

/-- The registers and the buffer bytes that the current frame has written, as far as `ds` says it has come, are the same. -/
def Decoder.SameWritten (d e : Decoder) : DState → Prop
  | .awaitingStart => True
  | .readingAddress => True
  | .readingCommand => e.rxAddr = d.rxAddr
  | .readingLength => e.rxAddr = d.rxAddr ∧ e.rxCmd = d.rxCmd
  | .readingPayload =>
    e.rxAddr = d.rxAddr ∧ e.rxCmd = d.rxCmd ∧ e.rxLen = d.rxLen ∧ ∀ k, k < d.payloadIndex → e.buf.read k = d.buf.read k
  | .readingChecksum =>
    e.rxAddr = d.rxAddr ∧ e.rxCmd = d.rxCmd ∧ e.rxLen = d.rxLen ∧ ∀ k, k < d.rxLen.toNat → e.buf.read k = d.buf.read k
  | .awaitingStop =>
    e.rxAddr = d.rxAddr ∧ e.rxCmd = d.rxCmd ∧ e.rxLen = d.rxLen ∧ e.rxChk = d.rxChk ∧
      ∀ k, k < d.rxLen.toNat → e.buf.read k = d.buf.read k

/-- Two decoders that differ at most in what the current frame has not written. -/
structure Decoder.Agrees (d e : Decoder) : Prop where
  dstate : e.dstate = d.dstate
  esc : e.esc = d.esc
  remaining : e.remaining = d.remaining
  written : d.SameWritten e d.dstate

/-- Cleared decoders agree: no frame has begun. -/
theorem Decoder.Agrees.of_cleared {d e : Decoder} (hd : d.cleared) (he : e.cleared) : d.Agrees e := by
  obtain ⟨h1, h2, h3⟩ := hd
  obtain ⟨g1, g2, g3⟩ := he
  exact ⟨g1.trans h1.symm, g2.trans h2.symm, g3.trans h3.symm, by rw [h1]; trivial⟩

theorem Decoder.agrees_clear (d e : Decoder) : d.clear.Agrees e.clear := .of_cleared d.clear_cleared e.clear_cleared

/-- Buffers that are the same below an index are the same up to it after a write there. -/
theorem Memory.read_write_congr {m m' : Memory} {n : Nat} (h : ∀ k, k < n → m'.read k = m.read k) (v : Byte) {k : Nat}
    (hk : k < n + 1) : (Memory.write m' n v).read k = (Memory.write m n v).read k := by
  rw [Memory.read_write, Memory.read_write]
  split
  · rfl
  · exact h k (by omega)

/-- Buffers that are the same below `n` give the same `n` bytes. -/
theorem Memory.readN_congr {m m' : Memory} {n : Nat} (h : ∀ k, k < n → m'.read k = m.read k) {q : List Byte}
    (hq : m.readN 0 n = some q) : m'.readN 0 n = some q := by
  obtain ⟨hl, hr⟩ := (Memory.readN_eq_some_iff _ _ _ _).mp hq
  exact (Memory.readN_eq_some_iff _ _ _ _).mpr ⟨hl, fun k hk => by simpa using (h k hk).trans (by simpa using hr k hk)⟩

/-- A payload byte is stored only where its index exists (R178, R179). -/
theorem Decoder.storePayload_ok {p : Params} {d d' : Decoder} {v : Byte} {out : DecOut} (h : d.storePayload p v = .ok (d', out)) :
    1 ≤ d.remaining.toNat ∧ d.remaining.toNat ≤ d.rxLen.toNat := by
  unfold Decoder.storePayload at h
  split at h
  · cases h
  · rename_i hc
    simp only [not_or, not_lt] at hc
    obtain ⟨hr, hl, -⟩ := hc
    exact ⟨by bv_omega, hl⟩

/-- Agreeing decoders agree after the same payload byte, which both store at the same index (R178). -/
theorem Decoder.Agrees.storePayload {p : Params} {d e d' : Decoder} (h : d.Agrees e) (hd : d.dstate = .readingPayload) {v : Byte}
    {out : DecOut} (hs : d.storePayload p v = .ok (d', out)) :
    ∃ e', e.storePayload p v = .ok (e', out) ∧ d'.Agrees e' := by
  obtain ⟨hr1, hr2⟩ := Decoder.storePayload_ok hs
  obtain ⟨hds, -, hrem, hw⟩ := h
  rw [hd] at hw
  obtain ⟨ha, hc, hl, hb⟩ := hw
  have hi : e.payloadIndex = d.payloadIndex := by rw [Decoder.payloadIndex, hrem, hl, Decoder.payloadIndex]
  unfold Decoder.storePayload at hs ⊢
  rw [hrem, hl, hi]
  split_ifs at hs ⊢ with hfault hlast
  case pos =>
    cases hs
    refine ⟨_, rfl, rfl, rfl, rfl, ha, hc, rfl, fun k hk => Memory.read_write_congr hb v ?_⟩
    have hone : d.remaining.toNat = 1 := by rw [hlast]; rfl
    have hlen : d.rxLen.toNat = d.payloadIndex + 1 := by rw [Decoder.payloadIndex]; omega
    exact hlen ▸ hk
  case neg =>
    cases hs
    refine ⟨_, rfl, hds, rfl, rfl, ?_⟩
    rw [hd]
    refine ⟨ha, hc, rfl, fun k hk => Memory.read_write_congr hb v ?_⟩
    have hsub : (d.remaining - 1#8).toNat = d.remaining.toNat - 1 := by bv_omega
    simp only [Decoder.payloadIndex, hsub] at hk ⊢
    omega

/-- Agreeing decoders agree after the same field byte, and report the same (R175 to R180). -/
theorem Decoder.Agrees.fieldByte {p : Params} {d e d' : Decoder} (h : d.Agrees e) {v : Byte} {out : DecOut}
    (hs : d.fieldByte p v = .ok (d', out)) : ∃ e', e.fieldByte p v = .ok (e', out) ∧ d'.Agrees e' := by
  obtain ⟨hds, hesc, hrem, hw⟩ := id h
  unfold Decoder.fieldByte at hs ⊢
  rw [hds]
  cases hd : d.dstate <;> simp only [hd, Decoder.SameWritten] at hs hw ⊢
  case awaitingStart => cases hs; exact ⟨e, rfl, h⟩
  case awaitingStop => cases hs; exact ⟨e, rfl, h⟩
  case readingAddress => cases hs; exact ⟨_, rfl, rfl, rfl, hrem, rfl⟩
  case readingCommand => cases hs; exact ⟨_, rfl, rfl, rfl, hrem, hw, rfl⟩
  case readingLength =>
    obtain ⟨ha, hc⟩ := hw
    unfold Decoder.storeLen at hs ⊢
    split_ifs at hs ⊢ with hcap hzero <;> cases hs
    · exact ⟨_, rfl, Decoder.agrees_clear _ _⟩
    · exact ⟨_, rfl, rfl, rfl, rfl, ha, hc, rfl, fun k hk => by simp [hzero] at hk⟩
    · exact ⟨_, rfl, rfl, rfl, rfl, ha, hc, rfl, fun k hk => by simp [Decoder.payloadIndex] at hk⟩
  case readingPayload => exact h.storePayload hd hs
  case readingChecksum =>
    obtain ⟨ha, hc, hl, hb⟩ := hw
    cases hs
    exact ⟨_, rfl, rfl, rfl, hrem, ha, hc, hl, rfl, hb⟩

/-- Agreeing decoders complete the same frame (R183). -/
theorem Decoder.Agrees.complete {d e d' : Decoder} (h : d.Agrees e) (hd : d.dstate = .awaitingStop) {out : DecOut}
    (hs : d.complete = .ok (d', out)) : ∃ e', e.complete = .ok (e', out) ∧ d'.Agrees e' := by
  obtain ⟨-, -, -, hw⟩ := h
  rw [hd] at hw
  obtain ⟨ha, hc, hl, hchk, hb⟩ := hw
  cases hq : Memory.readN d.buf 0 d.rxLen.toNat with
  | none => simp [Decoder.complete, hq] at hs
  | some q =>
    have hq' : Memory.readN e.buf 0 e.rxLen.toNat = some q := by rw [hl]; exact Memory.readN_congr hb hq
    rw [Decoder.complete_eq hq] at hs
    cases hs
    exact ⟨e.clear, by rw [Decoder.complete_eq hq', ha, hc, hl, hchk], Decoder.agrees_clear d e⟩

/-- Agreeing decoders agree after the same raw byte, and report the same (R165, R187). -/
theorem Decoder.Agrees.decStep {p : Params} {d e d' : Decoder} (h : d.Agrees e) {b : Byte} {out : DecOut}
    (hs : decStep p d b = .ok (d', out)) : ∃ e', decStep p e b = .ok (e', out) ∧ d'.Agrees e' := by
  obtain ⟨hds, hesc, hrem, hw⟩ := id h
  rcases dstate_cases d.dstate with hd | hd | hf
  · rw [decStep_start _ hd] at hs
    rw [decStep_start _ (hds.trans hd)]
    cases hs
    refine ⟨_, rfl, ?_⟩
    split
    · exact ⟨rfl, rfl, hrem, trivial⟩
    · exact h
  · by_cases hb : b = p.delim
    · subst hb
      rw [decStep_close hd] at hs
      rw [decStep_close (hds.trans hd)]
      exact h.complete hd hs
    · rw [decStep_stop hd hb] at hs
      rw [decStep_stop (hds.trans hd) hb]
      cases hs
      exact ⟨_, rfl, Decoder.agrees_clear d e⟩
  · have hf' : e.dstate.inField = true := hds ▸ hf
    by_cases hb : b = p.delim
    · subst hb
      rw [decStep_delim hf] at hs
      rw [decStep_delim hf']
      cases hs
      exact ⟨_, rfl, Decoder.agrees_clear d e⟩
    · rw [decStep_field hf hb] at hs
      rw [decStep_field hf' hb, hesc]
      generalize destuffStep p d.esc b = r at hs ⊢
      match r, hs with
      | (_, .none), hs => cases hs; exact ⟨_, rfl, hds, rfl, hrem, hw⟩
      | (_, .byte v), hs => exact h.fieldByte hs
      | (_, .error sub), hs => cases hs; exact ⟨_, rfl, Decoder.agrees_clear d e⟩

/-! ### Machines that differ in what the current frame has not written -/

/-- `f` answers machines with agreeing decoders alike: the next states differ in their decoders only, which agree again. -/
def Respects (f : State → Answer) : Prop :=
  ∀ (s t : State) (e : Decoder), s.dec.Agrees e → f s = .next t →
    ∃ e', f { s with dec := e } = .next { t with dec := e' } ∧ t.dec.Agrees e'

theorem Respects.refused (r : Refusal) : Respects fun _ => .refused r := fun _ _ _ _ h => by cases h

/-- A case split on anything but the decoder. -/
theorem Respects.ite {c : State → Prop} [∀ s, Decidable (c s)] {f g : State → Answer} (hc : ∀ s e, c { s with dec := e } ↔ c s)
    (hf : Respects f) (hg : Respects g) : Respects fun s => if c s then f s else g s := by
  intro s t e hd h
  simp only [hc]
  by_cases hs : c s
  · simp only [if_pos hs] at h ⊢; exact hf s t e hd h
  · simp only [if_neg hs] at h ⊢; exact hg s t e hd h

/-- A state update that leaves the decoder alone. -/
theorem Respects.next_keeping {g : State → State} (hg : ∀ s e, g { s with dec := e } = { g s with dec := e })
    (hdec : ∀ s, (g s).dec = s.dec) : Respects fun s => .next (g s) := by
  intro s t e hd h
  cases h
  exact ⟨e, congrArg _ (hg s e), (hdec s).symm ▸ hd⟩

/-- A state update that clears the decoder. -/
theorem Respects.next_clearing {g : State → State} (hg : ∀ s e, g { s with dec := e } = { g s with dec := e.clear })
    (hdec : ∀ s, (g s).dec = s.dec.clear) : Respects fun s => .next (g s) := by
  intro s t e hd h
  cases h
  exact ⟨e.clear, congrArg _ (hg s e), (hdec s).symm ▸ Decoder.agrees_clear s.dec e⟩

/-- No change at all. -/
theorem Respects.next_self : Respects fun s => .next s := Respects.next_keeping (fun _ _ => rfl) fun _ => rfl

/-- A failed attempt clears the decoder and does not read it (R252). -/
theorem State.failAttempt_with_dec (s : State) (e : Decoder) (c : ErrorRecord) :
    ({ s with dec := e } : State).failAttempt c = { s.failAttempt c with dec := e.clear } := by
  simp only [State.failAttempt_eq_failed, State.failed]
  split <;> rfl

/-- The reaction to a decoder output clears the decoder and does not read it (R246, R254). -/
theorem State.react_with_dec (s : State) (e : Decoder) {out : DecOut} (ho : out ≠ .none) :
    ({ s with dec := e } : State).react out = { s.react out with dec := e.clear } := by
  match out with
  | .none => exact absurd rfl ho
  | .frame addr cmd len q =>
    simp only [State.react, State.validate]
    split
    · rfl
    · exact State.failAttempt_with_dec { s with estate := .validating } e _
  | .error (.framing sub) => exact s.failAttempt_with_dec e _
  | .error .checksum => exact s.failAttempt_with_dec e _
  | .error (.overflow len) => rfl

/-- The reaction to one decoder output, from agreeing decoders. -/
theorem Decoder.Agrees.react {d e : Decoder} (h : d.Agrees e) (s : State) (out : DecOut) :
    ∃ e', ({ s with dec := e } : State).react out = { ({ s with dec := d } : State).react out with dec := e' } ∧
      (({ s with dec := d } : State).react out).dec.Agrees e' := by
  by_cases ho : out = .none
  · subst ho
    exact ⟨e, rfl, h⟩
  · rw [s.react_with_dec d ho, s.react_with_dec e ho]
    exact ⟨e.clear, rfl, Decoder.agrees_clear d e⟩

/-- A raw byte: the decoders report the same, and the engine reacts the same. -/
theorem respects_rawByte (b : Byte) : Respects fun s => exec (s.rawInstr b) s := by
  simp only [exec_rawInstr, rawRow, if_true]
  refine Respects.ite (fun _ _ => Iff.rfl) (fun s t e hd h => ?_) (Respects.refused _)
  cases hs : decStep s.par s.dec b with
  | error f => rw [hs] at h; cases h
  | ok r =>
    obtain ⟨d', out⟩ := r
    obtain ⟨e', he, ha⟩ := hd.decStep hs
    rw [hs] at h
    cases h
    simp only [he, State.receive_ok]
    obtain ⟨e'', hreact, ha'⟩ := ha.react s out
    exact ⟨e'', congrArg _ hreact, ha'⟩

/-- A chunk, byte by byte (R246). -/
theorem respects_feed (bytes : List Byte) : Respects (feed bytes) := by
  induction bytes with
  | nil => exact Respects.next_self
  | cons b bs ih =>
    intro s t e hd h
    simp only [feed] at h ⊢
    cases hx : exec (s.rawInstr b) s with
    | fault f => simp [hx] at h
    | refused r => simp [hx] at h
    | next u =>
      obtain ⟨e', he, ha⟩ := respects_rawByte b s u e hd hx
      simp only [hx] at h
      simp only [he]
      exact Respects.ite (c := fun u => u.estate = .awaitingResponse) (fun _ _ => Iff.rfl) ih Respects.next_self u t e' ha h

/-- `START` as a function of the state (R120, R241). -/
theorem exec_decodeStart_eq (sel : BitVec 4) (a : StartArgs) :
    (∃ op, exec (decodeStart sel a) = startRow op a) ∨ exec (decodeStart sel a) = reservedRow := by
  unfold decodeStart
  cases opOfSel sel with
  | some op => exact .inl ⟨op, funext (exec_startInstr op a)⟩
  | none => right; split_ifs <;> rfl

/-- Every input event: an accepted `START`, an end of the exchange and a reset clear the decoder, a chunk steps it, and the other
events leave it alone (R186). -/
theorem respects_runInput (ev : Input) : Respects (runInput ev) := by
  cases ev with
  | start sel a =>
    have hrefuse : Respects fun s => .next s.refuseStart := .next_keeping (fun _ _ => rfl) fun _ => rfl
    show Respects (exec (decodeStart sel a))
    rcases exec_decodeStart_eq sel a with ⟨op, h⟩ | h <;> rw [h]
    · exact .ite (fun _ _ => Iff.rfl)
        (.ite (fun _ _ => Iff.rfl) (.next_clearing (fun _ _ => rfl) fun _ => rfl) hrefuse) (.refused _)
    · exact .ite (fun _ _ => Iff.rfl) hrefuse (.refused _)
  | cancel => exact .ite (fun _ _ => Iff.rfl) .next_self (.next_clearing (fun _ _ => rfl) fun _ => rfl)
  | txDone => exact .ite (fun _ _ => Iff.rfl) (.next_keeping (fun _ _ => rfl) fun _ => rfl) (.refused _)
  | txError err => exact .ite (fun _ _ => Iff.rfl) (.next_clearing (fun _ _ => rfl) fun _ => rfl) (.refused _)
  | rxChunk bytes => exact .ite (fun _ _ => Iff.rfl) (respects_feed bytes) (.refused _)
  | rxError err => exact .ite (fun _ _ => Iff.rfl) (.next_clearing (fun _ _ => rfl) fun _ => rfl) (.refused _)
  | tick =>
    have htimeout : Respects fun s => .next (s.failAttempt .timeout) :=
      .next_clearing (fun s e => s.failAttempt_with_dec e _) fun s => congrArg State.dec (s.failAttempt_with_dec s.dec _)
    exact .ite (fun _ _ => Iff.rfl)
      (.ite (fun _ _ => Iff.rfl) htimeout (.next_keeping (fun _ _ => rfl) fun _ => rfl)) .next_self
  | reset => exact .next_clearing (fun _ _ => rfl) fun _ => rfl

theorem respects_step : Respects step := by
  intro s t e hd h
  cases hi : s.inputs with
  | nil => rw [step_nil hi] at h; cases h
  | cons ev rest =>
    simp only [step, hi] at h ⊢
    exact respects_runInput ev { s with inputs := rest } t e hd h

/-- Any number of steps. -/
theorem respects_run (k : Nat) : Respects (Host.Core.run Sys2Proof.core k) := by
  induction k with
  | zero => exact Respects.next_self
  | succ k ih =>
    intro s t e hd h
    simp only [Host.Core.run, Sys2Proof.core] at h ⊢
    cases hs : step s with
    | fault f => simp [hs] at h
    | refused r => simp [hs] at h
    | next u =>
      obtain ⟨e', he, ha⟩ := respects_step s u e hd hs
      simp only [hs] at h
      simp only [he]
      exact ih u t e' ha h

/-- Settles O54: cleared decoders agree, and a run keeps the agreement. -/
theorem staleReceiveContentsAreUnobservable : Obligations.StaleReceiveContentsAreUnobservable := by
  intro s t d k _ hs hd h
  obtain ⟨d', hrun, hagree⟩ := respects_run k s t d (.of_cleared hs hd) h
  exact ⟨d', hrun, hagree.dstate, hagree.esc, hagree.remaining⟩

end Sys2Proof.Machine
end

section
/-! SUPPORT and the settled statements of the host port (45_engine.md R241, R256): when the arguments of a `START` are refused, and
what a refused `START` and a `CANCEL` do. -/

namespace Sys2Proof.Machine

/-- The arguments `START` refuses are those R241 names. -/
theorem argsValid_eq_false_iff (op : Op) (a : StartArgs) :
    argsValid op a = false ↔
      a.maxAttempts = 0#8 ∨ a.timeout = 0#32 ∨ (op = .devInfo ∧ a.arg.extractLsb' 8 24 ≠ 0#24) ∨
        (op = .readStatus ∧ a.arg.extractLsb' 1 31 ≠ 0#31) := by
  unfold argsValid
  by_cases hmax : a.maxAttempts = 0#8
  · simp [hmax]
  by_cases htimeout : a.timeout = 0#32
  · simp [htimeout]
  cases op <;> simp [hmax, htimeout]

/-- A `START` with arguments that R241 names, in `Idle`. -/
theorem startRow_refused {op : Op} {a : StartArgs} {s : State} (he : s.estate = .idle) (ha : argsValid op a = false) :
    startRow op a s = .next s.refuseStart := by
  rw [startRow, if_pos he, if_neg (by simp [ha])]

/-- A `START` with a reserved selector, in `Idle` (R241). -/
theorem reservedRow_idle {s : State} (he : s.estate = .idle) : reservedRow s = .next s.refuseStart := if_pos he

/-- `CANCEL` in `Idle` (R256). -/
theorem exec_hostCancel_idle {s : State} (he : s.estate = .idle) : exec .hostCancel s = .next s := if_pos he

/-- `CANCEL` outside `Idle` (R256). -/
theorem exec_hostCancel_of_ne_idle {s : State} (he : s.estate ≠ .idle) :
    exec .hostCancel s = .next { s.decClear with estate := .idle } := if_neg he

/-- Settles O6: the twelve legal selectors share `startRow`, the four reserved ones `reservedRow`, and both refuse alike. -/
theorem refusedStartChangesNothing : Obligations.RefusedStartChangesNothing := by
  intro s a he
  have hreserved := reservedRow_idle he
  refine ⟨fun op ha => ?_, hreserved, hreserved, hreserved, hreserved⟩
  rw [exec_startInstr]
  exact startRow_refused he ((argsValid_eq_false_iff op a).mpr ha)

/-- Settles O7, by the two branches of `CANCEL`. -/
theorem cancelClearsAndReturnsToIdle : Obligations.CancelClearsAndReturnsToIdle :=
  fun _ => ⟨exec_hostCancel_idle, exec_hostCancel_of_ne_idle⟩

end Sys2Proof.Machine
end

section
/-! SUPPORT and the settled statements of a failed attempt and of the transport's and the timer's events (45_engine.md R244, R245,
R250 to R253, R255): each event in each of its branches, and `FAIL_ATTEMPT` by the attempts left. -/

namespace Sys2Proof.Machine

/-- Attempts are left (R252). -/
theorem State.failed_of_attempts_left {s : State} (h : s.attempt.toNat + 1 < s.cfgMaxAttempts.toNat) (c : ErrorRecord) :
    s.failed c = s.retried c := if_pos h

/-- No attempt is left (R253). -/
theorem State.failed_of_no_attempts_left {s : State} (h : s.cfgMaxAttempts.toNat ≤ s.attempt.toNat + 1) (c : ErrorRecord) :
    s.failed c = s.exhausted c := if_neg (Nat.not_lt.mpr h)

/-- `TxDone` while a write is outstanding (R244). -/
theorem onTxDone_sending {s : State} (he : s.estate = .sending) :
    onTxDone s = .next { s with deadline := s.cfgTimeout, estate := .awaitingResponse } := if_pos he

/-- `TxError` while a write is outstanding (R245). -/
theorem onTxError_sending {s : State} (he : s.estate = .sending) (e : TransportErr) :
    onTxError e s = .next (s.ended (.err (.transportError e))) := if_pos he

/-- `RxError` while a read is armed (R255). -/
theorem onRxError_awaitingResponse {s : State} (he : s.estate = .awaitingResponse) (e : TransportErr) :
    onRxError e s = .next (s.ended (.err (.transportError e))) := if_pos he

/-- The last tick of the deadline (R250). -/
theorem onTick_last {s : State} (he : s.estate = .awaitingResponse) (hd : s.deadline = 1#32) :
    onTick s = .next (s.failed .timeout) := by
  rw [onTick, if_pos he, if_pos hd, State.failAttempt_eq_failed]

/-- A tick before the last one (R250). -/
theorem onTick_earlier {s : State} (he : s.estate = .awaitingResponse) (hd : s.deadline ≠ 1#32) :
    onTick s = .next { s with deadline := s.deadline - 1#32 } := by
  rw [onTick, if_pos he, if_neg hd]

/-- A tick while no response is awaited (R251). -/
theorem onTick_of_ne_awaitingResponse {s : State} (he : s.estate ≠ .awaitingResponse) : onTick s = .next s := if_neg he

/-- Settles O19: `FAIL_ATTEMPT` is `State.failed`, which is a retry or an exhaustion by the attempts left. -/
theorem failedAttemptIsTracedAndRetriedOrEnded : Obligations.FailedAttemptIsTracedAndRetriedOrEnded := by
  intro s cause
  rw [State.failAttempt_eq_failed]
  exact ⟨fun h => State.failed_of_attempts_left h cause, fun h => State.failed_of_no_attempts_left h cause, rfl⟩

/-- Settles O37: in `Sending` the event is enabled. -/
theorem txDoneArmsTheDeadline : Obligations.TxDoneArmsTheDeadline := by
  intro s rest h he
  rw [step_txDone h]
  exact onTxDone_sending he

/-- Settles O38: neither event consults `attempt`; each ends the exchange. -/
theorem transportErrorEndsTheExchange : Obligations.TransportErrorEndsTheExchange := by
  refine fun s e rest => ⟨fun h he => ?write, fun h he => ?read⟩
  case write =>
    rw [step_txError h]
    exact onTxError_sending (s := { s with inputs := rest }) he e
  case read =>
    rw [step_rxError h]
    exact onRxError_awaitingResponse (s := { s with inputs := rest }) he e

/-- Settles O39, by the three branches of `Tick`. -/
theorem tickCountsTheDeadlineDown : Obligations.TickCountsTheDeadlineDown := by
  intro s rest h
  rw [step_tick h]
  let t : State := { s with inputs := rest }
  exact ⟨onTick_last (s := t), onTick_earlier (s := t), onTick_of_ne_awaitingResponse (s := t)⟩

end Sys2Proof.Machine
end

section
/-! SUPPORT and the settled statement of a received chunk (45_engine.md R246, R247): its bytes are fed to the decoder one by one, as
`DEC.RUN` does, until the first that reports something. -/

namespace Sys2Proof.Machine

variable {s : State} {b : Byte} {d : Decoder} {out : DecOut}

/-- One raw byte while a read is armed: the decoder's step, and the engine's reaction to its output (R246). -/
theorem exec_rawInstr_of_decStep (he : s.estate = .awaitingResponse) (hs : decStep s.par s.dec b = .ok (d, out)) :
    exec (s.rawInstr b) s = .next ({ s with dec := d }.react out) := by
  rw [exec_rawInstr, rawRow_eq _ he rfl, hs, State.receive_ok]

/-- A byte the decoder absorbs: the chunk goes on (R246). -/
theorem feed_cons_silent (he : s.estate = .awaitingResponse) (hs : decStep s.par s.dec b = .ok (d, .none)) (bs : List Byte) :
    feed (b :: bs) s = feed bs { s with dec := d } := by
  simp only [feed, exec_rawInstr_of_decStep he hs, State.react_none]
  exact if_pos he

/-- A byte the decoder reports on: the engine leaves `AwaitingResponse`, and the rest of the chunk is dropped (R247). -/
theorem feed_cons_output (he : s.estate = .awaitingResponse) (hs : decStep s.par s.dec b = .ok (d, out)) (ho : out ≠ .none)
    (dropped : List Byte) : feed (b :: dropped) s = .next ({ s with dec := d }.react out) := by
  have hleft : ({ s with dec := d }.react out).estate ≠ .awaitingResponse :=
    fun h => ho ((State.react_estate { s with dec := d } out he).mp h)
  simp only [feed, exec_rawInstr_of_decStep he hs]
  exact if_neg hleft

/-- Bytes the decoder absorbs change the decoder only, as `DEC.RUN` does, and the chunk goes on after them (R188, R246). -/
theorem feed_append_silent (he : s.estate = .awaitingResponse) {bytes : List Byte} (hr : decRun s.par s.dec bytes = .ok ([], d))
    (more : List Byte) : feed (bytes ++ more) s = feed more { s with dec := d } := by
  induction bytes generalizing s with
  | nil => cases hr; rfl
  | cons b bs ih =>
    obtain ⟨d₁, hs, hr⟩ := decRun_cons_silent hr
    rw [List.cons_append, feed_cons_silent he hs]
    exact ih (s := { s with dec := d₁ }) he hr

/-- Settles O40: the absorbed bytes are fed one by one, and the first output ends the chunk. -/
theorem chunkIsFedToTheFirstOutput : Obligations.ChunkIsFedToTheFirstOutput := by
  refine fun s bytes d rest _ he hr => ⟨fun h => ?absorbed, fun b d' out dropped hs ho h => ?reported⟩
  case absorbed =>
    rw [step_rxChunk h he, ← List.append_nil bytes, feed_append_silent (s := { s with inputs := rest }) he hr]
    rfl
  case reported =>
    rw [step_rxChunk h he, feed_append_silent (s := { s with inputs := rest }) he hr]
    exact feed_cons_output (s := { s with inputs := rest, dec := d }) he hs ho dropped

end Sys2Proof.Machine
end

section
/-! SUPPORT and the settled statements of the payload decoders (46_payload_decode.md R281 to R285): the big-endian fields of a byte
list by index, and the answer of each decoder on a payload of its own length. -/

namespace Sys2Proof.Machine

variable {p : List Byte}

/-! ### The fields of a byte list -/

/-- A byte list has a 4-byte field for every four bytes, and none for the bytes left over. -/
@[simp] theorem length_fields32 (p : List Byte) : (fields32 p).length = p.length / 4 := by
  match p with
  | _ :: _ :: _ :: _ :: rest =>
    simp only [fields32, List.length_cons, length_fields32 rest]
    omega
  | [] | [_] | [_, _] | [_, _, _] => simp [fields32]

/-- A byte list has a 2-byte field for every two bytes, and none for a byte left over. -/
@[simp] theorem length_fields16 (p : List Byte) : (fields16 p).length = p.length / 2 := by
  match p with
  | _ :: _ :: rest =>
    simp only [fields16, List.length_cons, length_fields16 rest]
    omega
  | [] | [_] => simp [fields16]

/-- Field `k` is the big-endian word of bytes `4k` to `4k+3`: four bytes fewer are one field fewer. -/
theorem getElem?_fields32 {k : Nat} (h : 4 * k + 3 < p.length) :
    (fields32 p)[k]? = some (be32 p[4 * k] p[4 * k + 1] p[4 * k + 2] p[4 * k + 3]) := by
  induction k generalizing p with
  | zero =>
    match p, h with
    | _ :: _ :: _ :: _ :: _, _ => rfl
  | succ k ih =>
    match p, h with
    | _ :: _ :: _ :: _ :: rest, h =>
      have hrest : 4 * k + 3 < rest.length := by simp only [List.length_cons] at h; omega
      exact ih hrest

/-- Field `k` is the big-endian value of bytes `2k` and `2k+1`: two bytes fewer are one field fewer. -/
theorem getElem?_fields16 {k : Nat} (h : 2 * k + 1 < p.length) :
    (fields16 p)[k]? = some (be16 p[2 * k] p[2 * k + 1]) := by
  induction k generalizing p with
  | zero =>
    match p, h with
    | _ :: _ :: _, _ => rfl
  | succ k ih =>
    match p, h with
    | _ :: _ :: rest, h =>
      have hrest : 2 * k + 1 < rest.length := by simp only [List.length_cons] at h; omega
      exact ih hrest

/-! ### The decoders on a payload of their own length -/

/-- `MEAS.DECODE_FLOAT` in its domain (R281). -/
theorem measDecodeFloat_of_length (h : p.length = 40) : measDecodeFloat p = some (fields32 p) := if_pos h

/-- `MEAS.DECODE_FIXED` in its domain (R282). -/
theorem measDecodeFixed_of_length (h : p.length = 20) : measDecodeFixed p = some (fields16 p) := if_pos h

/-- `STATUS.DECODE` in its domain: the reserved bytes are in no field of the answer (R283). -/
theorem statusDecode_of_length {par : Params} {b0 b1 b2 b3 : Byte} {reserved : List Byte}
    (h : reserved.length = par.statusRsvdLen) :
    statusDecode par (b0 :: b1 :: b2 :: b3 :: reserved) =
      some ⟨be32 b0 b1 b2 b3, (be32 b0 b1 b2 b3).getLsbD par.speedBit, (be32 b0 b1 b2 b3).getLsbD par.laserBit,
        (be32 b0 b1 b2 b3).getLsbD par.fanBit⟩ :=
  if_pos (by simp only [List.length_cons, h]; omega)

/-- `DeviceFault` is reported exactly when a condition is (R284). -/
theorem DeviceStatus.deviceFault_iff (d : DeviceStatus) :
    d.deviceFault = true ↔ d.speed = true ∨ d.laser = true ∨ d.fan = true := by
  simp only [DeviceStatus.deviceFault, Bool.or_eq_true, or_assoc]

/-- `INTERVAL.DECODE` undoes the byte order in which a request writes a 32-bit value (R106, R285). -/
@[simp] theorem intervalDecode_bytes32 (v : Word32) : intervalDecode (bytes32 v) = some v :=
  congrArg some (be32_extract v)

/-! ### The statements -/

/-- Settles O55, by the `k`-th 4-byte field of the payload. -/
theorem floatMeasurementIsTenBigEndianWords : Obligations.FloatMeasurementIsTenBigEndianWords := by
  refine fun p hp => ⟨fields32 p, measDecodeFloat_of_length hp, by rw [length_fields32, hp], fun k hk => ?_⟩
  have hin : 4 * k + 3 < p.length := by omega
  refine ⟨p[4 * k], p[4 * k + 1], p[4 * k + 2], p[4 * k + 3], List.getElem?_eq_getElem _, List.getElem?_eq_getElem _,
    List.getElem?_eq_getElem _, List.getElem?_eq_getElem _, ?_⟩
  rw [getElem?_fields32 hin, Option.map_some, toNat_be32]

/-- Settles O56, by the `k`-th 2-byte field of the payload. -/
theorem fixedMeasurementIsTenBigEndianValues : Obligations.FixedMeasurementIsTenBigEndianValues := by
  refine fun p hp => ⟨fields16 p, measDecodeFixed_of_length hp, by rw [length_fields16, hp], fun k hk => ?_⟩
  have hin : 2 * k + 1 < p.length := by omega
  refine ⟨p[2 * k], p[2 * k + 1], List.getElem?_eq_getElem _, List.getElem?_eq_getElem _, ?_⟩
  rw [getElem?_fields16 hin, Option.map_some, toNat_be16]

/-- Settles O57: a condition is a bit of the word, and a word's bits are those of its number. -/
theorem statusBitsAreDecoded : Obligations.StatusBitsAreDecoded :=
  fun _ b0 b1 b2 b3 _ h =>
    ⟨_, statusDecode_of_length h, toNat_be32 b0 b1 b2 b3, rfl, rfl, rfl, DeviceStatus.deviceFault_iff _⟩

/-- Settles O58: the payload of a `WRITE_INTERVAL` request is its argument's four bytes, most significant first. -/
theorem intervalByteOrderMirrorsTheRequest : Obligations.IntervalByteOrderMirrorsTheRequest :=
  ⟨fun b0 b1 b2 b3 => ⟨be32 b0 b1 b2 b3, rfl, toNat_be32 b0 b1 b2 b3⟩, fun _ _ v => intervalDecode_bytes32 v⟩

end Sys2Proof.Machine
end

section
/-! SUPPORT and the settled statement of the decoder-level error entry (60_exceptions.md R317): what each operation of the decoder
step leaves behind when it reports something. -/

namespace Sys2Proof.Machine

/-- The length byte is reported on only when it is above `CAP`, and is then the one register that has changed (R177). -/
theorem Decoder.storeLen_output {p : Params} {v : Byte} {d d' : Decoder} {out : DecOut} (h : d.storeLen p v = (d', out))
    (ho : out ≠ .none) : d' = ({ d with rxLen := v } : Decoder).clear ∧ out = .error (.overflow v) := by
  by_cases hc : p.cap < v.toNat
  · rw [Decoder.storeLen_overflow d hc] at h
    cases h
    exact ⟨rfl, rfl⟩
  · by_cases hz : v = 0#8
    · rw [hz, Decoder.storeLen_zero] at h
      cases h
      contradiction
    · rw [Decoder.storeLen_pos d (by omega) hz] at h
      cases h
      contradiction

/-- A payload byte is never reported on (R178). -/
theorem Decoder.storePayload_silent {p : Params} {v : Byte} {d d' : Decoder} {out : DecOut}
    (h : d.storePayload p v = .ok (d', out)) : out = .none := by
  unfold Decoder.storePayload at h
  split_ifs at h <;> cases h <;> rfl

/-- A field byte is reported on only as a length above `CAP` (R175 to R180). -/
theorem Decoder.fieldByte_output {p : Params} {v : Byte} {d d' : Decoder} {out : DecOut}
    (h : d.fieldByte p v = .ok (d', out)) (ho : out ≠ .none) :
    d' = ({ d with rxLen := v } : Decoder).clear ∧ out = .error (.overflow v) := by
  unfold Decoder.fieldByte at h
  cases hd : d.dstate <;> simp only [hd] at h
  case readingLength => exact Decoder.storeLen_output (Except.ok.inj h) ho
  case readingPayload => exact absurd (Decoder.storePayload_silent h) ho
  all_goals
    cases h
    contradiction

/-- The closing delimiter clears the decoder, whether or not the checksum matches (R183). -/
theorem Decoder.complete_clears {d d' : Decoder} {out : DecOut} (h : d.complete = .ok (d', out)) : d' = d.clear := by
  cases hq : Memory.readN d.buf 0 d.rxLen.toNat with
  | none => simp [Decoder.complete, hq] at h
  | some q =>
    rw [Decoder.complete_eq hq] at h
    cases h
    rfl

/-- A step that reports anything clears the decoder and changes nothing else, but for the length byte of an overflow (R184). -/
theorem decStep_output {p : Params} {d d' : Decoder} {b : Byte} {out : DecOut} (h : decStep p d b = .ok (d', out))
    (ho : out ≠ .none) :
    d' = d.clear ∨ ∃ v, d' = ({ d with rxLen := v } : Decoder).clear ∧ out = .error (.overflow v) := by
  rcases dstate_cases d.dstate with hd | hd | hf
  · rw [decStep_start _ hd] at h
    cases h
    contradiction
  · by_cases hb : b = p.delim
    · rw [hb, decStep_close hd] at h
      exact .inl (Decoder.complete_clears h)
    · rw [decStep_stop hd hb] at h
      cases h
      exact .inl rfl
  · by_cases hb : b = p.delim
    · rw [hb, decStep_delim hf] at h
      cases h
      exact .inl rfl
    · rw [decStep_field hf hb] at h
      generalize destuffStep p d.esc b = r at h
      obtain ⟨e, r⟩ := r
      cases r with
      | none =>
        cases h
        contradiction
      | byte v => exact .inr ⟨v, Decoder.fieldByte_output h ho⟩
      | error sub =>
        cases h
        exact .inl rfl

/-- Settles O23: the registers of a cleared decoder are those it had before, with the length byte of an overflow just stored. -/
theorem decoderOutputsResynchronize : Obligations.DecoderOutputsResynchronize := by
  intro p d d' b out h ho
  rcases decStep_output h ho with rfl | ⟨v, rfl, rfl⟩
  · exact ⟨rfl, rfl, rfl, rfl, rfl, rfl, rfl, .inl rfl⟩
  · exact ⟨rfl, rfl, rfl, rfl, rfl, rfl, rfl, .inr rfl⟩

end Sys2Proof.Machine
end

section
/-! SUPPORT and the settled statement of the echo (70_reset_and_hazards.md R364): a chunk that is one whole frame of the latched
command's opcode, with a length the command allows, ends the exchange; the request frame of six commands is such a frame. -/

namespace Sys2Proof.Machine

/-- A request payload has at most the four bytes of a 32-bit argument (R201). -/
theorem length_reqPayload_le (p : Params) (op : Op) (fmt : Fmt) (arg : Word32) : (reqPayload p op fmt arg).length ≤ 4 := by
  cases op <;> simp [reqPayload, bytes32]

/-- For the five commands whose request and response are both empty, and for `WRITE_INTERVAL`, whose request and response are both
four bytes, a request payload has a length allowed of a response (R201, R364). -/
theorem rspLenOk_length_reqPayload (p : Params) {op : Op} (fmt : Fmt) (arg : Word32)
    (h : op ∈ [Op.stopMeas, .sleep, .wakeUp, .fanClean, .reset, .writeInterval]) :
    rspLenOk p op fmt (reqPayload p op fmt arg).length = true := by
  simp only [List.mem_cons, List.not_mem_nil, or_false] at h
  rcases h with rfl | rfl | rfl | rfl | rfl | rfl <;> rfl

/-- A whole frame that answers the latched request, in one chunk, ends the exchange with its payload (R189, R246, R249). -/
theorem step_rxChunk_frameBytes {s : State} {rest : List Input} {q : List Byte} (hp : s.par.Valid)
    (he : s.estate = .awaitingResponse) (hd : s.dec.dstate = .awaitingStart) (hq : q.length ≤ s.par.cap)
    (hlen : rspLenOk s.par s.reqOp s.reqFmt q.length = true)
    (h : s.inputs = .rxChunk (frameBytes s.par s.par.addr0 (cmdOf s.par s.reqOp) q) :: rest) :
    ∃ d : Decoder,
      step s = .next ({ s with inputs := rest, dec := d }.ended (.ok s.reqOp (BitVec.ofNat 8 q.length) q)) := by
  obtain ⟨d, hrun, hclose⟩ := decStep_closing_frameBytes hp hd s.par.addr0 (cmdOf s.par s.reqOp) hq
  have hchunk := (chunkIsFedToTheFirstOutput s _ d rest hp he hrun).2 _ _ _ [] hclose (by simp)
    (by rw [h, dropLast_frameBytes]; rfl)
  have hn : (BitVec.ofNat 8 q.length).toNat = q.length := by have := hp.cap_le; simp; omega
  have hcheck : catCheck s.par s.reqOp s.reqFmt s.par.addr0 (cmdOf s.par s.reqOp) (BitVec.ofNat 8 q.length).toNat = none :=
    (catCheck_eq_none_iff ..).mpr ⟨rfl, rfl, hn.symm ▸ hlen⟩
  exact ⟨d.clear, hchunk.trans (congrArg _ (State.validate_of_catCheck_none q hcheck))⟩

/-- Settles O36: the request frame is a whole frame with the command's own opcode and a length its response may have. -/
theorem echoOfTheRequestIsAccepted : Obligations.EchoOfTheRequestIsAccepted := by
  intro s rest hp he hd hop h
  have hq : (reqPayload s.par s.reqOp s.reqFmt s.reqArg).length ≤ s.par.cap :=
    (length_reqPayload_le ..).trans (by have := hp.cap_ge; omega)
  obtain ⟨d, hstep⟩ := step_rxChunk_frameBytes hp he hd hq (rspLenOk_length_reqPayload s.par _ _ hop) h
  exact ⟨_, hstep, rfl, rfl⟩

end Sys2Proof.Machine
end

section
/-! SUPPORT and the settled statements of the encodings (30_encoding.md R90, R93, R100 to R108, R111, R120): what the encoding of a row
says of the row, kind by kind, and what the decoder of that kind answers. -/

namespace Sys2Proof.Machine

/-! ### The kind of a row's encoding -/

/-- The low byte of a byte in a 32-bit argument (R107). -/
theorem extractLsb'_setWidth_byte (k : Byte) : (k.setWidth 32).extractLsb' 0 8 = k := by
  apply BitVec.eq_of_toNat_eq
  have := k.isLt
  simp
  omega

/-- The rows encoded as a request frame are the request rows, with the payload of their operands (R100, R105 to R108). -/
theorem encode_request {p : Params} {i : Instr} {body : List Byte} (h : encode p i = .request body) :
    ∃ op fmt arg, i = requestInstr op fmt arg ∧ body = frameBody p.addr0 (cmdOf p op) (reqPayload p op fmt arg) := by
  cases i <;> simp only [encode, requestBody, responseBody, reduceCtorEq, Code.request.injEq] at h <;> subst h
  case startMeas fmt => exact ⟨.startMeas, fmt, 0#32, rfl, rfl⟩
  case stopMeas => exact ⟨.stopMeas, .float, 0#32, rfl, rfl⟩
  case readMeas => exact ⟨.readMeas, .float, 0#32, rfl, rfl⟩
  case sleep => exact ⟨.sleep, .float, 0#32, rfl, rfl⟩
  case wakeUp => exact ⟨.wakeUp, .float, 0#32, rfl, rfl⟩
  case fanClean => exact ⟨.fanClean, .float, 0#32, rfl, rfl⟩
  case readInterval => exact ⟨.readInterval, .float, 0#32, rfl, rfl⟩
  case writeInterval interval => exact ⟨.writeInterval, .float, interval, rfl, rfl⟩
  case devInfo k =>
    exact ⟨.devInfo, .float, k.setWidth 32, by rw [requestInstr, extractLsb'_setWidth_byte],
      by rw [reqPayload, extractLsb'_setWidth_byte]⟩
  case readVersion => exact ⟨.readVersion, .float, 0#32, rfl, rfl⟩
  case readStatus clear =>
    cases clear with
    | false => exact ⟨.readStatus, .float, 0#32, rfl, rfl⟩
    | true => exact ⟨.readStatus, .float, 1#32, rfl, rfl⟩
  case reset => exact ⟨.reset, .float, 0#32, rfl, rfl⟩

/-- The rows encoded as a response frame are the response rows, and their meaning is the shared one of the command (R101, R215). -/
theorem encode_response {p : Params} {i : Instr} {op : Op} {fmt : Fmt} {body : List Byte} (h : encode p i = .response op fmt body) :
    ∃ q, i = responseInstr op fmt q ∧ body = frameBody p.addr0 (cmdOf p op) q ∧
      i.wellFormed p = rspLenOk p op fmt q.length ∧ exec i = responseRow op q := by
  cases i <;> simp only [encode, requestBody, responseBody, reduceCtorEq, Code.response.injEq] at h <;>
    obtain ⟨rfl, rfl, rfl⟩ := h <;> exact ⟨_, rfl, rfl, rfl, rfl⟩

/-- A raw-byte row is encoded as its byte, in one of its contexts (R93). -/
theorem encode_raw {p : Params} {i : Instr} {ds : DState} {esc : Bool} {b : Byte} (h : encode p i = .raw ds esc b) :
    rawByte p i = some b ∧ rawContext i ds esc = true := by
  cases i <;> simp only [encode, requestBody, responseBody, reduceCtorEq, Code.raw.injEq] at h <;>
    obtain ⟨rfl, rfl, rfl⟩ := h <;> exact ⟨rfl, rfl⟩

/-- The rows encoded as a `START` are those of their selector (R120). -/
theorem encode_start {p : Params} {i : Instr} {sel : BitVec 4} {a : StartArgs} (h : encode p i = .start sel a) :
    decodeStart sel a = i := by
  cases i <;> simp only [encode, requestBody, responseBody, reduceCtorEq, Code.start.injEq] at h <;>
    obtain ⟨rfl, rfl⟩ := h <;> rfl

/-- The one row encoded as a cancel. -/
theorem encode_cancel {p : Params} {i : Instr} (h : encode p i = .cancel) : i = .hostCancel := by
  cases i <;> simp only [encode, requestBody, responseBody, reduceCtorEq] at h
  rfl

/-! ### Raw bytes -/

/-- The row of an escape pair's second byte (R93, classes 2 and 3). -/
theorem decodeEscaped_row (p : Params) (hp : p.Valid) {ds : DState} {b : Byte} (hf : ds.inField = true) (hb : b ≠ p.delim) :
    rawByte p (decodeEscaped p b) = some b ∧ rawContext (decodeEscaped p b) ds true = true ∧
      (decodeEscaped p b).wellFormed p = true := by
  have hx := hp.xf_unxf b
  unfold decodeEscaped
  split_ifs with hdelim hesc hfc1 hfc2
  · exact ⟨by simp [rawByte, ← hdelim, hx], by simp [rawContext, hf], rfl⟩
  · exact ⟨by simp [rawByte, ← hesc, hx], by simp [rawContext, hf], rfl⟩
  · exact ⟨by simp [rawByte, ← hfc1, hx], by simp [rawContext, hf], rfl⟩
  · exact ⟨by simp [rawByte, ← hfc2, hx], by simp [rawContext, hf], rfl⟩
  · have hr := (p.isReserved_eq_false_iff _).mpr ⟨hdelim, hesc, hfc1, hfc2⟩
    exact ⟨rfl, by simp [rawContext, hf], by simp [Instr.wellFormed, hb, hr]⟩

/-- The row of a byte where a field byte is expected (R93, classes 2 to 6), given that of the state's own data row. -/
theorem decodeField_row (p : Params) (hp : p.Valid) {ds : DState} (esc : Bool) {b : Byte} {data : Instr} (hf : ds.inField = true)
    (hbyte : rawByte p data = some b) (hcontext : rawContext data ds false = true) (hwf : data.wellFormed p = !p.isReserved b) :
    rawByte p (decodeField p esc b data) = some b ∧ rawContext (decodeField p esc b data) ds esc = true ∧
      (decodeField p esc b data).wellFormed p = true := by
  unfold decodeField
  by_cases hb : b = p.delim
  · rw [if_pos hb, hb]
    exact ⟨rfl, hf, rfl⟩
  rw [if_neg hb]
  cases esc with
  | true => exact decodeEscaped_row p hp hf hb
  | false =>
    rw [if_neg Bool.false_ne_true]
    split_ifs with hesc hfc1 hfc2
    · exact ⟨hesc ▸ rfl, by simp [rawContext, hf], rfl⟩
    · exact ⟨hfc1 ▸ rfl, by simp [rawContext, hf], rfl⟩
    · exact ⟨hfc2 ▸ rfl, by simp [rawContext, hf], rfl⟩
    · exact ⟨hbyte, hcontext, by rw [hwf, (p.isReserved_eq_false_iff b).mpr ⟨hb, hesc, hfc1, hfc2⟩]; rfl⟩

/-- The row of a raw byte has that byte, applies in its context, and is well-formed (R93). -/
theorem decodeRaw_row (p : Params) (hp : p.Valid) (ds : DState) (esc : Bool) (b : Byte) :
    rawByte p (decodeRaw p ds esc b) = some b ∧ rawContext (decodeRaw p ds esc b) ds esc = true ∧
      (decodeRaw p ds esc b).wellFormed p = true := by
  cases ds <;> simp only [decodeRaw]
  case awaitingStart =>
    split_ifs with hb
    · exact ⟨hb ▸ rfl, rfl, rfl⟩
    · exact ⟨rfl, rfl, by simpa [Instr.wellFormed] using hb⟩
  case awaitingStop =>
    split_ifs with hb
    · exact ⟨hb ▸ rfl, rfl, rfl⟩
    · exact ⟨rfl, rfl, by simpa [Instr.wellFormed] using hb⟩
  all_goals exact decodeField_row p hp esc rfl rfl rfl rfl

/-- Where a field byte is expected, its row is decided by the classes of R93. -/
theorem decodeRaw_field {ds : DState} (hf : ds.inField = true) (p : Params) (esc : Bool) (b : Byte) :
    ∃ data, decodeRaw p ds esc b = decodeField p esc b data := by
  cases ds
  case awaitingStart => cases hf
  case awaitingStop => cases hf
  all_goals exact ⟨_, rfl⟩

/-- Without a pending escape a byte that is not reserved is the state's own data row (R93, class 6). -/
theorem decodeField_data {p : Params} {b : Byte} (hr : p.isReserved b = false) (data : Instr) :
    decodeField p false b data = data := by
  obtain ⟨hdelim, hesc, hfc1, hfc2⟩ := (p.isReserved_eq_false_iff b).mp hr
  simp [decodeField, hdelim, hesc, hfc1, hfc2]

/-- A well-formed raw-byte row is the one decoded for its byte in each of its contexts (R93). -/
theorem decodeRaw_of_row {p : Params} (hp : p.Valid) {i : Instr} {ds : DState} {esc : Bool} {b : Byte}
    (hwf : i.wellFormed p = true) (hb : rawByte p i = some b) (hc : rawContext i ds esc = true) : decodeRaw p ds esc b = i := by
  obtain ⟨de, df1, df2, ef1, ef2, ff⟩ := hp.distinct
  have inField : ds.inField = true → ∃ data, decodeRaw p ds esc b = decodeField p esc b data :=
    fun hf => decodeRaw_field hf p esc b
  have escaped : ∀ r, p.isReserved r = true → p.xf r = b → ds.inField = true ∧ esc = true →
      decodeRaw p ds esc b = decodeEscaped p b ∧ p.unxf b = r := by
    rintro r hr rfl ⟨hf, rfl⟩
    obtain ⟨data, h⟩ := inField hf
    exact ⟨by rw [h, decodeField, if_neg (hp.xf_not_reserved hr).1, if_pos rfl], hp.unxf_xf r⟩
  cases i <;> simp only [rawByte, reduceCtorEq, Option.some.injEq] at hb <;>
    simp only [rawContext, Bool.and_eq_true, beq_iff_eq, Bool.not_eq_true'] at hc <;>
    simp only [Instr.wellFormed, Bool.and_eq_true, bne_iff_ne, ne_eq, Bool.not_eq_true'] at hwf
  case rawDelimOpen => simp [hc, decodeRaw, hb]
  case rawOtherIdle v => subst hb; simp [hc, decodeRaw, hwf]
  case rawDelimClose => simp [hc, decodeRaw, hb]
  case rawOtherStop v => subst hb; simp [hc, decodeRaw, hwf]
  case rawDelimMidframe =>
    obtain ⟨data, h⟩ := inField hc
    rw [h, decodeField, if_pos hb.symm]
  case rawEsc =>
    obtain ⟨data, h⟩ := inField hc.1
    rw [h, hc.2, ← hb]
    simp [decodeField, de.symm]
  case rawFc1 =>
    obtain ⟨data, h⟩ := inField hc.1
    rw [h, hc.2, ← hb]
    simp [decodeField, df1.symm, ef1.symm]
  case rawFc2 =>
    obtain ⟨data, h⟩ := inField hc.1
    rw [h, hc.2, ← hb]
    simp [decodeField, df2.symm, ef2.symm, ff.symm]
  case escapedDelim =>
    obtain ⟨h, hx⟩ := escaped p.delim (by simp [Params.isReserved]) hb hc
    simp [h, decodeEscaped, hx]
  case escapedEsc =>
    obtain ⟨h, hx⟩ := escaped p.esc (by simp [Params.isReserved]) hb hc
    simp [h, decodeEscaped, hx, de.symm]
  case escapedFc1 =>
    obtain ⟨h, hx⟩ := escaped p.fc1 (by simp [Params.isReserved]) hb hc
    simp [h, decodeEscaped, hx, df1.symm, ef1.symm]
  case escapedFc2 =>
    obtain ⟨h, hx⟩ := escaped p.fc2 (by simp [Params.isReserved]) hb hc
    simp [h, decodeEscaped, hx, df2.symm, ef2.symm, ff.symm]
  case escapedIllegal v =>
    subst hb
    obtain ⟨data, h⟩ := inField hc.1
    rw [h, hc.2, decodeField, if_neg hwf.1, if_pos rfl, decodeEscaped_illegal hwf.2]
  all_goals
    subst hb
    rw [hc.1, hc.2]
    exact decodeField_data hwf _

/-- Settles O2, by the two halves: the decoded row belongs to its context, and a row of the context is the decoded one. -/
theorem rawByteRowsPartitionTheContexts : Obligations.RawByteRowsPartitionTheContexts :=
  fun p hp => ⟨decodeRaw_row p hp, fun _ _ _ _ => decodeRaw_of_row hp⟩

/-! ### Frame bodies -/

/-- The payload of a request is decoded to its row: the eleven opcodes differ (R8(e)), and `READ_INTERVAL` and `WRITE_INTERVAL`,
which share one, differ in length (R105 to R108). -/
theorem decodeCommand_reqPayload {p : Params} (hp : p.Valid) (op : Op) (fmt : Fmt) (arg : Word32) :
    decodeCommand p (cmdOf p op) (reqPayload p op fmt arg) = .ok (requestInstr op fmt arg) := by
  have hne := List.nodup_reverse.mpr hp.opcodes_distinct
  simp only [Params.opcodes, List.reverse_cons, List.reverse_nil, List.nil_append, List.cons_append, List.nodup_cons,
    List.mem_cons, List.not_mem_nil, or_false, not_or] at hne
  cases op <;> simp only [decodeCommand, cmdOf, reqPayload, requestInstr, hne, if_true, if_false]
  case startMeas => cases fmt <;> simp [fmtSelector, decodeFormat, hp.fmt_distinct.symm]
  case writeInterval => simp [bytes32, decodeInterval]
  case readStatus => cases arg.getLsbD 0 <;> simp [clearByte, decodeClear]
  all_goals rfl

/-- The response lengths a command allows fit `CAP` (R8(d), R8(g), R201). -/
theorem le_cap_of_rspLenOk {p : Params} (hp : p.Valid) {op : Op} {fmt : Fmt} {n : Nat} (h : rspLenOk p op fmt n = true) :
    n ≤ p.cap := by
  have hcap := hp.cap_ge
  have hdev := hp.devinfo_fits
  have hver := hp.fwver_fits
  have hstatus := hp.status_fits
  cases op <;> simp only [rspLenOk, beq_iff_eq, decide_eq_true_eq] at h
  case readMeas => cases fmt <;> simp only [beq_iff_eq] at h <;> omega
  all_goals omega

/-- The length byte of a payload that one byte can count (R90). -/
theorem toNat_ofNat_length {q : List Byte} (h : q.length ≤ 255) : (BitVec.ofNat 8 q.length).toNat = q.length := by
  simp; omega

/-- A request body is decoded to its row (R90, R100). -/
theorem decode_requestBody {p : Params} (hp : p.Valid) (op : Op) (fmt : Fmt) (arg : Word32) :
    decode p (.request (frameBody p.addr0 (cmdOf p op) (reqPayload p op fmt arg))) = .ok (requestInstr op fmt arg) := by
  have hlen := toNat_ofNat_length ((length_reqPayload_le p op fmt arg).trans (by omega))
  simp [decode, frameBody, decodeRequest, hlen, decodeCommand_reqPayload hp]

/-- A response body of an allowed length is decoded to the row of the latched request (R101, R111). -/
theorem decode_responseBody {p : Params} (hp : p.Valid) {op : Op} {fmt : Fmt} {q : List Byte}
    (h : rspLenOk p op fmt q.length = true) :
    decode p (.response op fmt (frameBody p.addr0 (cmdOf p op) q)) = .ok (responseInstr op fmt q) := by
  have hlen := toNat_ofNat_length ((le_cap_of_rspLenOk hp h).trans hp.cap_le)
  simp [decode, frameBody, decodeResponse, hlen, h]

/-- Settles O1, by the five kinds of encoding: each says which rows it is the encoding of, and its decoder answers those. -/
theorem decodeEncodeRoundTrip : Obligations.DecodeEncodeRoundTrip := by
  intro p i hp hwf
  cases h : encode p i with
  | request body =>
    obtain ⟨op, fmt, arg, rfl, rfl⟩ := encode_request h
    exact decode_requestBody hp op fmt arg
  | response op fmt body =>
    obtain ⟨q, rfl, rfl, hlen, -⟩ := encode_response h
    exact decode_responseBody hp (hlen ▸ hwf)
  | raw ds esc b =>
    obtain ⟨hb, hc⟩ := encode_raw h
    exact congrArg Except.ok (decodeRaw_of_row hp hwf hb hc)
  | start sel a => exact congrArg Except.ok (encode_start h)
  | cancel => exact congrArg Except.ok (encode_cancel h).symm

/-- Settles O3, by evaluation. -/
theorem sampleWordsDecodeToTheirRows : Obligations.SampleWordsDecodeToTheirRows := by
  unfold Obligations.SampleWordsDecodeToTheirRows
  decide

end Sys2Proof.Machine
end

section
/-! SUPPORT and the settled statements of the request, host and response rows (42_frame_encode.md R159, 44_commands.md R202 to R215,
45_engine.md R242, R243, R248, R249): each shared meaning in its context, and the rows that are refused outside it. -/

namespace Sys2Proof.Machine

/-! ### The request rows -/

/-- A row the latches hold, while no write is outstanding, sends the frame of its command and payload (R159, R243). -/
theorem requestRow_sends {s : State} (hs : s.estate ≠ .sending) {op : Op} (hop : s.reqOp = op) {i : Instr}
    (hi : requestInstr op s.reqFmt s.reqArg = i) {q : List Byte} (hq : reqPayload s.par op s.reqFmt s.reqArg = q) :
    requestRow i s =
      .next { s with
        estate := .sending
        outputs := s.outputs ++ [.txWrite (frameBytes s.par s.par.addr0 (cmdOf s.par op) q)] } := by
  subst hop hi hq
  rw [requestRow, if_neg hs]
  exact if_pos rfl

/-- Settles O4: each row is the shared meaning of a request, and its payload is the operand of the row. -/
theorem requestRowsSendTheirFrame : Obligations.RequestRowsSendTheirFrame := by
  intro s hs sent
  refine ⟨fun h hf => requestRow_sends hs h ?_ ?_, fun h hf => requestRow_sends hs h ?_ ?_,
    fun h => requestRow_sends hs h rfl rfl, fun h => requestRow_sends hs h rfl rfl, fun h => requestRow_sends hs h rfl rfl,
    fun h => requestRow_sends hs h rfl rfl, fun h => requestRow_sends hs h rfl rfl, fun h => requestRow_sends hs h rfl rfl,
    fun h b0 b1 b2 b3 ha => requestRow_sends hs h ?_ ?_, fun h k hk => requestRow_sends hs h ?_ ?_,
    fun h => requestRow_sends hs h rfl rfl, fun h ha => requestRow_sends hs h ?_ ?_,
    fun h ha => requestRow_sends hs h ?_ ?_, fun h => requestRow_sends hs h rfl rfl⟩
  -- the operands of `START_MEAS`, `WRITE_INTERVAL`, `DEV_INFO` and `READ_STATUS`
  · rw [hf]; rfl
  · rw [hf]; rfl
  · rw [hf]; rfl
  · rw [hf]; rfl
  · rw [ha]; rfl
  · rw [ha]; exact bytes32_be32 b0 b1 b2 b3
  · rw [hk, requestInstr, extractLsb'_setWidth_byte]
  · rw [hk, reqPayload, extractLsb'_setWidth_byte]
  · rw [ha]; rfl
  · rw [ha]; rfl
  · rw [ha]; rfl
  · rw [ha]; rfl

/-! ### The host port -/

/-- A `START` with arguments that R241 does not name, in `Idle` (R242). -/
theorem startRow_accepted {op : Op} {a : StartArgs} {s : State} (he : s.estate = .idle) (ha : argsValid op a = true) :
    startRow op a s = .next (s.latch op a).send := by
  rw [startRow, if_pos he, if_pos ha]

/-- A `START` with a legal selector outside `Idle` (R242). -/
theorem startRow_busy {op : Op} {a : StartArgs} {s : State} (he : s.estate ≠ .idle) : startRow op a s = .refused .startBusy :=
  if_neg he

/-- A `START` with a reserved selector outside `Idle` (R242). -/
theorem reservedRow_busy {s : State} (he : s.estate ≠ .idle) : reservedRow s = .refused .startBusy := if_neg he

/-- Settles O5: the twelve rows share `startRow`, and the arguments are those it accepts. -/
theorem acceptedStartLatchesAndSends : Obligations.AcceptedStartLatchesAndSends := by
  intro s op a hmax htimeout hdev hstatus
  have ha : argsValid op a = true := by
    rw [← Bool.not_eq_false, argsValid_eq_false_iff]
    rintro (h | h | ⟨h, hne⟩ | ⟨h, hne⟩)
    exacts [hmax h, htimeout h, hne (hdev h), hne (hstatus h)]
  rw [exec_startInstr]
  exact ⟨fun he => startRow_accepted he ha, startRow_busy⟩

/-! ### The response rows -/

/-- An allowed response of the latched command ends the exchange with its payload (R248, R249). -/
theorem responseRow_accepted {s : State} (hp : s.par.Valid) (he : s.estate = .awaitingResponse) {op : Op} (hop : s.reqOp = op)
    {q : List Byte} (hlen : rspLenOk s.par op s.reqFmt q.length = true) :
    responseRow op q s = .next (s.ended (.ok s.reqOp (BitVec.ofNat 8 q.length) q)) := by
  subst hop
  have hmax : q.length ≤ 255 := (le_cap_of_rspLenOk hp hlen).trans hp.cap_le
  have hcheck : catCheck s.par s.reqOp s.reqFmt s.par.addr0 (cmdOf s.par s.reqOp) (BitVec.ofNat 8 q.length).toNat = none :=
    (catCheck_eq_none_iff ..).mpr ⟨rfl, rfl, (toNat_ofNat_length hmax).symm ▸ hlen⟩
  rw [responseRow, if_pos he, if_pos hmax, State.validate_of_catCheck_none q hcheck]

/-- A response that `CAT.CHECK` does not accept fails the attempt (R248, R249). -/
theorem responseRow_failed {s : State} (he : s.estate = .awaitingResponse) {op : Op} {q : List Byte} (hmax : q.length ≤ 255)
    {sub : ShapeSub} (h : catCheck s.par s.reqOp s.reqFmt s.par.addr0 (cmdOf s.par op) q.length = some sub) :
    responseRow op q s = .next (s.failed (.shape sub)) := by
  rw [responseRow, if_pos he, if_pos hmax, State.validate_of_catCheck_some q ((toNat_ofNat_length hmax).symm ▸ h)]

/-- The response row of a command, with a payload of a length the command allows, is the shared meaning of a response (R101, R215). -/
theorem exec_responseInstr {p : Params} {op : Op} {fmt : Fmt} {q : List Byte} (h : rspLenOk p op fmt q.length = true) :
    exec (responseInstr op fmt q) = responseRow op q := by
  cases op <;> simp only [rspLenOk, beq_iff_eq, List.length_eq_zero_iff] at h
  case readMeas => cases fmt <;> rfl
  case startMeas | stopMeas | sleep | wakeUp | fanClean | reset => rw [h]; rfl
  all_goals rfl

/-- Settles O9: each row is the shared meaning of a response, and its length is the one its command allows. -/
theorem responseRowsCompleteTheExchange : Obligations.ResponseRowsCompleteTheExchange := by
  intro s hp he done
  have accepted : ∀ {op : Op} {n : Nat} (q : List Byte), s.reqOp = op → q.length = n → rspLenOk s.par op s.reqFmt n = true →
      responseRow op q s = done n q := by
    rintro op _ q hop rfl hlen
    exact responseRow_accepted hp he hop hlen
  exact ⟨fun h => accepted [] h rfl rfl, fun h => accepted [] h rfl rfl,
    fun h hf q hq => accepted q h hq (by rw [hf]; rfl), fun h hf q hq => accepted q h hq (by rw [hf]; rfl),
    fun h => accepted [] h rfl rfl, fun h => accepted [] h rfl rfl, fun h => accepted [] h rfl rfl,
    fun h q hq => accepted q h hq rfl, fun h q hq => accepted q h hq rfl,
    fun h q hq => accepted q h rfl (decide_eq_true hq), fun h q hq => accepted q h hq (beq_self_eq_true _),
    fun h q hq => accepted q h hq (beq_self_eq_true _), fun h => accepted [] h rfl rfl⟩

/-- Settles O10: the address is `ADDR0`, so `CAT.CHECK` decides by the opcode and then by the length. -/
theorem foreignResponseRowsFailTheAttempt : Obligations.ForeignResponseRowsFailTheAttempt := by
  intro s op fmt q hp he hlen
  have hmax : q.length ≤ 255 := (le_cap_of_rspLenOk hp hlen).trans hp.cap_le
  rw [exec_responseInstr hlen]
  refine ⟨fun hc => responseRow_failed he hmax ?_, fun hc hl => responseRow_failed he hmax ?_⟩
  · rw [catCheck, if_neg (not_not.mpr rfl), if_pos hc]
  · rw [catCheck, if_neg (not_not.mpr rfl), if_neg (not_not.mpr hc), if_pos hl]

/-! ### Rows outside their condition -/

/-- A raw-byte row applies while a read is armed, in its contexts, with operands that no other row of them has (R44, R102). -/
theorem exec_raw_eq {s : State} {i : Instr} {b : Byte} (h : rawByte s.par i = some b) :
    ∃ r, exec i s = rawRow (rawContext i s.dec.dstate s.dec.esc && i.wellFormed s.par) r s := by
  cases i <;> simp only [rawByte, reduceCtorEq] at h <;>
    exact ⟨_, congrArg (rawRow · _ s) (by simp [rawContext, Instr.wellFormed, Decoder.plainField, Decoder.pairField,
      State.dataContext, Bool.and_assoc])⟩

/-- Settles O8, by the shared meaning of each kind of row: its guards, in order. -/
theorem rowsOutsideTheirConditionHaveNoStep : Obligations.RowsOutsideTheirConditionHaveNoStep := by
  intro s i
  refine ⟨fun sel a h he => ?start, fun body h => ?request, fun op fmt body h => ?response, fun b h => ?raw⟩
  case start =>
    rw [← encode_start h]
    rcases exec_decodeStart sel a s with ⟨op, -, hx⟩ | hx <;> rw [hx]
    · exact startRow_busy he
    · exact reservedRow_busy he
  case request =>
    obtain ⟨op, fmt, arg, rfl, -⟩ := encode_request h
    rw [exec_requestInstr]
    exact ⟨fun he => if_pos he, fun he hi => (if_neg he).trans (if_neg hi)⟩
  case response =>
    obtain ⟨q, -, rfl, -, hx⟩ := encode_response h
    rw [hx]
    refine ⟨fun he => if_neg he, fun he hlen => (if_pos he).trans (if_neg ?_)⟩
    simp only [frameBody, List.length_append, List.length_cons, List.length_nil] at hlen
    omega
  case raw =>
    obtain ⟨r, hx⟩ := exec_raw_eq h
    rw [hx]
    refine ⟨fun he => if_neg he, fun he hc => (if_pos he).trans (if_neg ?_)⟩
    rcases hc with hc | hc <;> simp [hc]

end Sys2Proof.Machine
end

section
/-! SUPPORT and the settled statements of the raw-byte rows that store a field byte (43_frame_decode.md R171, R173, R175 to R180): each is
the field byte it stands for, received by the engine. -/

namespace Sys2Proof.Machine

/-! ### The field byte, by state -/

section fieldByte
variable {p : Params} {d : Decoder} (v : Byte)

theorem Decoder.fieldByte_readingAddress (hd : d.dstate = .readingAddress) : d.fieldByte p v = .ok (d.storeAddr v, .none) := by
  simp only [Decoder.fieldByte, hd]

theorem Decoder.fieldByte_readingCommand (hd : d.dstate = .readingCommand) : d.fieldByte p v = .ok (d.storeCmd v, .none) := by
  simp only [Decoder.fieldByte, hd]

theorem Decoder.fieldByte_readingLength (hd : d.dstate = .readingLength) : d.fieldByte p v = .ok (d.storeLen p v) := by
  simp only [Decoder.fieldByte, hd]

theorem Decoder.fieldByte_readingPayload (hd : d.dstate = .readingPayload) : d.fieldByte p v = d.storePayload p v := by
  simp only [Decoder.fieldByte, hd]

theorem Decoder.fieldByte_readingChecksum (hd : d.dstate = .readingChecksum) : d.fieldByte p v = .ok (d.storeChk v, .none) := by
  simp only [Decoder.fieldByte, hd]

end fieldByte

/-! ### The field byte, received -/

section receive
variable {s : State} {v : Byte}

/-- A length above `CAP` ends the exchange (R177, R254). -/
theorem State.receive_storeLen_overflow (s : State) (hv : s.par.cap < v.toNat) :
    s.receive (.ok (s.dec.storeLen s.par v)) =
      .next { s with
        dec := { s.dec with rxLen := v, dstate := .awaitingStart, esc := false, remaining := 0#8 }
        estate := .idle
        outputs := s.outputs ++ [.result (.err (.bufferOverflow v))] } := by
  rw [Decoder.storeLen_overflow _ hv, State.receive_overflow]
  rfl

/-- A length of 0 is followed by the checksum (R177). -/
theorem State.receive_storeLen_zero (s : State) (hz : v = 0#8) :
    s.receive (.ok (s.dec.storeLen s.par v)) =
      .next { s with dec := { s.dec with rxLen := v, remaining := 0#8, dstate := .readingChecksum, esc := false } } := by
  rw [hz, Decoder.storeLen_zero, State.receive_none]

/-- Any other length is followed by its payload (R177). -/
theorem State.receive_storeLen_pos (s : State) (hv : v.toNat ≤ s.par.cap) (hz : v ≠ 0#8) :
    s.receive (.ok (s.dec.storeLen s.par v)) =
      .next { s with dec := { s.dec with rxLen := v, remaining := v, dstate := .readingPayload, esc := false } } := by
  rw [Decoder.storeLen_pos _ hv hz, State.receive_none]

/-- A payload byte is stored at its index, and the last one is followed by the checksum (R178). -/
theorem State.receive_storePayload (v : Byte) (hd : s.dec.dstate = .readingPayload) (h1 : 1 ≤ s.dec.remaining.toNat)
    (h2 : s.dec.remaining.toNat ≤ s.dec.rxLen.toNat) (h3 : s.dec.rxLen.toNat ≤ s.par.cap) :
    s.receive (s.dec.storePayload s.par v) =
      .next { s with
        dec := { s.dec with
          buf := Memory.write s.dec.buf s.dec.payloadIndex v
          remaining := s.dec.remaining - 1#8
          dstate := if s.dec.remaining = 1#8 then .readingChecksum else .readingPayload
          esc := false } } := by
  rw [Decoder.storePayload_eq v hd h1 h2 h3, State.receive_none]

/-- A data row in its context: no escape is pending, and the byte is not reserved (R175 to R180). -/
theorem rawRow_dataContext (r : Except Fault (Decoder × DecOut)) {ds : DState} (he : s.estate = .awaitingResponse)
    (hd : s.dec.dstate = ds) (hesc : s.dec.esc = false) (hv : s.par.isReserved v = false) :
    rawRow (s.dataContext ds v) r s = s.receive r :=
  rawRow_eq r he (by simp [State.dataContext, hd, hesc, hv])

end receive

/-! ### The statements -/

/-- Settles O13: the three rows are silent, and no escape was pending. -/
theorem headerAndChecksumBytesAreStored : Obligations.HeaderAndChecksumBytesAreStored := by
  intro s v he hesc hv
  refine ⟨fun hd => ?_, fun hd => ?_, fun hd => ?_⟩ <;>
    refine (rawRow_dataContext _ he hd hesc hv).trans ?_ <;>
    simp only [State.receive_none, Decoder.storeAddr, Decoder.storeCmd, Decoder.storeChk, hesc]

/-- Settles O14: the row is the length byte, which is above `CAP`, 0 or neither. -/
theorem lengthByteFixesTheCount : Obligations.LengthByteFixesTheCount := by
  intro s v he hd hesc hv
  have hrow : exec (.rawDataLen v) s = s.receive (.ok (s.dec.storeLen s.par v)) := rawRow_dataContext _ he hd hesc hv
  rw [hrow]
  refine ⟨s.receive_storeLen_overflow, fun _ hz => ?_, fun hcap hz => ?_⟩
  · simp only [s.receive_storeLen_zero hz, hesc]
  · simp only [s.receive_storeLen_pos hcap hz, hesc]

/-- Settles O15: the row is the payload byte, and the buffer after it is one write. -/
theorem payloadByteIsStoredAtItsIndex : Obligations.PayloadByteIsStoredAtItsIndex := by
  intro s v he hd hesc hv h1 h2 h3
  have hrow : exec (.rawDataPayload v) s = s.receive (s.dec.storePayload s.par v) := rawRow_dataContext _ he hd hesc hv
  rw [hrow, State.receive_storePayload v hd h1 h2 h3]
  refine ⟨_, fun i => Memory.read_write s.dec.buf s.dec.payloadIndex v i, fun hr => ?_, fun hr => ?_⟩
  · simp [hr, hesc]
  · simp [hr, hd, hesc]

/-- The row of an escape pair is its reserved byte as a field byte (R173). -/
theorem exec_escaped {s : State} {i : Instr} {r : Byte}
    (hi : (i, r) ∈ [(Instr.escapedDelim, s.par.delim), (.escapedEsc, s.par.esc), (.escapedFc1, s.par.fc1), (.escapedFc2, s.par.fc2)])
    (he : s.estate = .awaitingResponse) (hesc : s.dec.esc = true) (hf : s.dec.dstate.inField = true) :
    exec i s = s.receive (s.dec.fieldByte s.par r) := by
  have hc : s.dec.pairField = true := by simp [Decoder.pairField, hf, hesc]
  simp only [List.mem_cons, List.not_mem_nil, or_false, Prod.mk.injEq] at hi
  obtain ⟨rfl, rfl⟩ | ⟨rfl, rfl⟩ | ⟨rfl, rfl⟩ | ⟨rfl, rfl⟩ := hi <;> exact rawRow_eq _ he hc

/-- Settles O16: the pair is its field byte, by state. -/
theorem escapedBytesAreFieldBytes : Obligations.EscapedBytesAreFieldBytes := by
  intro s i r hi he hesc
  have hrow : ∀ {ds}, s.dec.dstate = ds → ds.inField = true → exec i s = s.receive (s.dec.fieldByte s.par r) :=
    fun hd hf => exec_escaped hi he hesc (hd ▸ hf)
  have hlen : s.dec.dstate = .readingLength → exec i s = s.receive (.ok (s.dec.storeLen s.par r)) :=
    fun hd => by rw [hrow hd rfl, Decoder.fieldByte_readingLength r hd]
  refine ⟨fun hd => ?address, fun hd => ?command, fun hd hcap => ?overflow, fun hd _ hz => ?zero, fun hd hcap hz => ?length,
    fun hd h1 h2 h3 => ?payload, fun hd => ?checksum⟩
  case address => rw [hrow hd rfl, Decoder.fieldByte_readingAddress r hd, State.receive_none]; rfl
  case command => rw [hrow hd rfl, Decoder.fieldByte_readingCommand r hd, State.receive_none]; rfl
  case overflow => rw [hlen hd, s.receive_storeLen_overflow hcap]
  case zero => rw [hlen hd, s.receive_storeLen_zero hz]
  case length => rw [hlen hd, s.receive_storeLen_pos hcap hz]
  case payload =>
    refine ⟨_, fun k => Memory.read_write s.dec.buf s.dec.payloadIndex r k, ?_⟩
    rw [hrow hd rfl, Decoder.fieldByte_readingPayload r hd, State.receive_storePayload r hd h1 h2 h3]
  case checksum => rw [hrow hd rfl, Decoder.fieldByte_readingChecksum r hd, State.receive_none]; rfl

/-- Settles O20: the row is the decoder step as a row of its own, and a read is armed. -/
theorem rawByteRowIsDecoderStepAndReaction : Obligations.RawByteRowIsDecoderStepAndReaction := by
  intro s b _ he
  rw [exec_rawInstr, rawRow_eq _ he rfl]

end Sys2Proof.Machine
end

section
/-! SUPPORT and the settled statements of a step and the instruction it runs (00_scope.md R12, 10_state.md R45, R50, 45_engine.md R246,
70_reset_and_hazards.md R351). -/

namespace Sys2Proof.Machine

/-- An accepted `START` sends as the request row of its latches does (R242, R243). -/
theorem exec_requestInstr_latch {op : Op} {a : StartArgs} {s : State} (he : s.estate = .idle) :
    exec (requestInstr op a.fmt a.arg) (s.latch op a) = .next (s.latch op a).send := by
  rw [exec_requestInstr, requestRow, if_neg (by simp [he])]
  exact if_pos rfl

/-- Settles O34, by the equation of `step` for each event. -/
theorem stepRunsTheDecodedInstruction : Obligations.StepRunsTheDecodedInstruction := by
  intro s rest s₀
  refine ⟨fun sel a h => step_start h, step_cancel, fun b bs h he => ?chunk, fun op a h he ha => ?start, step_nil⟩
  case chunk =>
    have hrow : decodeRaw s.par s.dec.dstate s.dec.esc b = s₀.rawInstr b := rfl
    rw [step_rxChunk h he, feed, hrow]
    cases exec (s₀.rawInstr b) s₀ with
    | next t =>
      by_cases ht : t.estate = .awaitingResponse
      · simp only [if_pos ht]
        exact (step_rxChunk (s := { t with inputs := .rxChunk bs :: t.inputs }) rfl ht).symm
      · simp only [if_neg ht]
    | fault f => rfl
    | refused r => rfl
  case start =>
    rw [step_start h, decodeStart, opOfSel_opSel]
    exact ((exec_startInstr op a s₀).trans (startRow_accepted he ha)).trans (exec_requestInstr_latch (s := s₀) he).symm

/-- The bytes of a frame before its closing delimiter leave it in the registers and the buffer, with nothing above the payload changed,
and the closing delimiter delivers it (43_frame_decode.md R175 to R183). -/
theorem decRun_frame_stored {p : Params} (hp : p.Valid) {d : Decoder} (hd : d.dstate = .awaitingStart) (addr cmd : Byte)
    {q : List Byte} (hq : q.length ≤ p.cap) :
    ∃ d' : Decoder, decRun p d ([p.delim] ++ stuff p (fieldBytes addr cmd q)) = .ok ([], d') ∧
      decStep p d' p.delim = .ok (d'.clear, .frame addr cmd (BitVec.ofNat 8 q.length) q) ∧ d'.rxAddr = addr ∧ d'.rxCmd = cmd ∧
      d'.rxLen = BitVec.ofNat 8 q.length ∧ Memory.readN d'.buf 0 q.length = some q ∧
      ∀ k, q.length ≤ k → d'.buf.read k = d.buf.read k := by
  obtain ⟨buf, hrun, hread⟩ := decRun_body hp hd addr cmd (chkCompute (frameBody addr cmd q)) hq
  have hpayload : Memory.readN buf 0 q.length = some q :=
    (Memory.readN_eq_some_iff ..).mpr ⟨rfl, fun k hk => by simp [hread, hk]⟩
  refine ⟨_, by simpa [fieldBytes] using hrun [], ?_, rfl, rfl, rfl, hpayload, fun k hk => (hread k).trans (if_neg (by omega))⟩
  have hn := toNat_ofNat_length (hq.trans hp.cap_le)
  rw [decStep_close rfl, Decoder.complete_eq (by exact hn.symm ▸ hpayload)]
  exact congrArg (fun out => Except.ok (_, out)) (if_pos rfl)

/-- Settles O35: the frame is stored, its closing delimiter delivers it, and what the engine then does is what its row does. -/
theorem frameChunkRunsItsResponseRow : Obligations.FrameChunkRunsItsResponseRow := by
  intro s q rest hp he hd hlen hq h
  obtain ⟨d, hrun, hclose, haddr, hcmd, hrxLen, hbuf, habove⟩ :=
    decRun_frame_stored hp hd s.par.addr0 (cmdOf s.par s.reqOp) hq
  let t : State := { s with inputs := rest, dec := d.clear }
  have hrow : exec (responseInstr s.reqOp s.reqFmt q) t = .next (t.ended (.ok s.reqOp (BitVec.ofNat 8 q.length) q)) := by
    rw [exec_responseInstr hlen]
    exact responseRow_accepted (s := t) hp he rfl hlen
  have hcheck : catCheck s.par s.reqOp s.reqFmt s.par.addr0 (cmdOf s.par s.reqOp) (BitVec.ofNat 8 q.length).toNat = none :=
    (catCheck_eq_none_iff ..).mpr ⟨rfl, rfl, (toNat_ofNat_length (hq.trans hp.cap_le)).symm ▸ hlen⟩
  have hstep : step s = .next (t.ended (.ok s.reqOp (BitVec.ofNat 8 q.length) q)) := by
    rw [(chunkIsFedToTheFirstOutput s _ d rest hp he hrun).2 _ _ _ [] hclose (by simp) h]
    exact congrArg _ (State.validate_of_catCheck_none (s := t) q hcheck)
  exact ⟨d.clear, d.clear_cleared, haddr, hcmd, hrxLen, hbuf, habove, hstep.trans hrow.symm, hstep⟩

/-- Settles O41, by the guard of each event. -/
theorem strayTransportEventsHaveNoStep : Obligations.StrayTransportEventsHaveNoStep := by
  refine fun s rest e bytes => ⟨fun he => ⟨fun h => ?done, fun h => ?txError⟩, fun he => ⟨fun h => ?chunk, fun h => ?rxError⟩⟩
  case done => rw [step_txDone h]; exact if_neg he
  case txError => rw [step_txError h]; exact if_neg he
  case chunk => exact step_rxChunk_stray h he
  case rxError => rw [step_rxError h]; exact if_neg he

/-- Settles O42, field by field. -/
theorem resetStateHoldsTheSpecValues : Obligations.ResetStateHoldsTheSpecValues := ⟨rfl, rfl, rfl, rfl, rfl, rfl, rfl⟩

/-- Settles O43, by the meaning of the reset input. -/
theorem resetInputEqualsCancelAndClear : Obligations.ResetInputEqualsCancelAndClear := by
  intro s rest h
  rw [step_reset h]
  rfl

end Sys2Proof.Machine
end

section
/-! SUPPORT and the settled statements of a corrupted frame (43_frame_decode.md R191): one raw byte of an encoded frame is replaced. A
frame of the same length is never the original; and when no escape marker is made or destroyed the field bytes differ in at most one
place, which the checksum sees. -/

namespace Sys2Proof.Machine

/-! ### Stuffed bytes with one raw byte replaced -/

/-- `STUFF` is injective: `DESTUFF` undoes it (R149). -/
theorem stuff_injective {p : Params} (hp : p.Valid) {as bs : List Byte} (h : stuff p as = stuff p bs) : as = bs := by
  simpa [destuff_stuff hp] using congrArg (destuff p) h

/-- Stuffed bytes that start with an `ESC` are those of a reserved byte (R141). -/
theorem stuff_eq_esc_cons {p : Params} {gs raw : List Byte} (h : stuff p gs = p.esc :: raw) :
    ∃ g gs', gs = g :: gs' ∧ p.isReserved g = true ∧ raw = p.xf g :: stuff p gs' := by
  cases gs with
  | nil => cases h
  | cons g gs' =>
    rw [stuff_cons] at h
    rcases stuffByte_cases p g with ⟨hr, e⟩ | ⟨hr, e⟩ <;> rw [e] at h <;> cases h
    · exact ⟨g, gs', rfl, hr, rfl⟩
    · exact absurd rfl ((p.isReserved_eq_false_iff _).mp hr).2.1

/-- Stuffed bytes that start with anything else are those of that byte (R141). -/
theorem stuff_eq_cons {p : Params} {x : Byte} (hx : x ≠ p.esc) {gs raw : List Byte} (h : stuff p gs = x :: raw) :
    ∃ gs', gs = x :: gs' ∧ raw = stuff p gs' := by
  cases gs with
  | nil => cases h
  | cons g gs' =>
    rw [stuff_cons] at h
    rcases stuffByte_cases p g with ⟨hr, e⟩ | ⟨hr, e⟩ <;> rw [e] at h <;> cases h
    · exact absurd rfl hx
    · exact ⟨gs', rfl, rfl⟩

/-- Stuffed bytes in which one byte other than `ESC` is replaced by another are the stuffed bytes of a list with one byte replaced, if
they are stuffed bytes at all: each pair still begins where it did. -/
theorem stuff_eq_set {p : Params} (hp : p.Valid) {fs gs : List Byte} {j : Nat} {b x : Byte} (hb : (stuff p fs)[j]? = some b)
    (hbesc : b ≠ p.esc) (hx : x ≠ p.esc) (h : stuff p gs = (stuff p fs).set j x) :
    ∃ i, ∃ _ : i < fs.length, ∃ y, gs = fs.set i y := by
  induction fs generalizing gs j with
  | nil => simp [stuff_nil] at hb
  | cons f fs ih =>
    have later : ∀ {gs' j'}, (stuff p fs)[j']? = some b → stuff p gs' = (stuff p fs).set j' x → gs = f :: gs' →
        ∃ i, ∃ _ : i < (f :: fs).length, ∃ y, gs = (f :: fs).set i y := by
      rintro gs' j' hb' h' rfl
      obtain ⟨i, hi, y, rfl⟩ := ih hb' h'
      exact ⟨i + 1, Nat.succ_lt_succ hi, y, rfl⟩
    rw [stuff_cons] at hb h
    rcases stuffByte_cases p f with ⟨hr, e⟩ | ⟨hr, e⟩ <;> rw [e] at hb h
    case inl =>
      match j with
      | 0 => exact absurd (Option.some.inj hb).symm hbesc
      | 1 =>
        obtain ⟨g, gs', rfl, -, hraw⟩ := stuff_eq_esc_cons h
        cases stuff_injective hp (List.cons.inj hraw).2
        exact ⟨0, Nat.succ_pos _, g, rfl⟩
      | j + 2 =>
        obtain ⟨g, gs', rfl, -, hraw⟩ := stuff_eq_esc_cons h
        obtain ⟨hxf, hrest⟩ := List.cons.inj hraw
        have hg : f = g := by rw [← hp.unxf_xf f, ← hp.unxf_xf g, hxf]
        exact later hb hrest.symm (hg ▸ rfl)
    case inr =>
      match j with
      | 0 =>
        obtain ⟨gs', rfl, hraw⟩ := stuff_eq_cons hx h
        cases stuff_injective hp hraw
        exact ⟨0, Nat.succ_pos _, x, rfl⟩
      | j + 1 =>
        obtain ⟨gs', rfl, hraw⟩ := stuff_eq_cons ((p.isReserved_eq_false_iff f).mp hr).2.1 h
        exact later hb hraw.symm rfl

/-- The field bytes of a frame sum to 255 modulo 256 (R131). -/
theorem sum_fieldBytes (addr cmd : Byte) (q : List Byte) : ((fieldBytes addr cmd q).map BitVec.toNat).sum % 256 = 255 := by
  have h := (chkVerify_eq_true_iff_sum (frameBody addr cmd q) _).mp ((chkVerify_eq_true_iff _ _).mpr rfl)
  simpa [fieldBytes] using h

/-- Two frames whose field bytes differ in at most one place are the same (R134). -/
theorem fieldBytes_eq_of_eq_set {a c addr cmd y : Byte} {q q' : List Byte} {i : Nat} (hi : i < (fieldBytes addr cmd q).length)
    (h : fieldBytes a c q' = (fieldBytes addr cmd q).set i y) : fieldBytes a c q' = fieldBytes addr cmd q := by
  have hset := sum_map_toNat_set_add (fieldBytes addr cmd q) hi y
  have hnew := sum_fieldBytes a c q'
  have hold := sum_fieldBytes addr cmd q
  rw [h] at hnew
  have hy : y = (fieldBytes addr cmd q)[i] := by
    have := y.isLt
    have := ((fieldBytes addr cmd q)[i]).isLt
    apply BitVec.eq_of_toNat_eq
    omega
  rw [h, hy, List.set_getElem_self]

/-! ### Runs over a corrupted frame -/

/-- The one stretch without `DELIM` between two delimiters is the whole. -/
theorem eq_of_infix_of_delim_not_mem {δ : Byte} {m m' : List Byte} (hm : δ ∉ m') (h : δ :: m ++ [δ] <:+: δ :: m' ++ [δ]) :
    m = m' := by
  obtain ⟨u, v, h⟩ := h
  have hcount := congrArg (List.count δ) h
  simp only [List.count_append, List.count_cons, beq_self_eq_true, if_true, List.count_nil, List.count_eq_zero.mpr hm] at hcount
  have hu : δ ∉ u := List.count_eq_zero.mp (by omega)
  have hv : δ ∉ v := List.count_eq_zero.mp (by omega)
  have hu' : u = [] := by
    cases u with
    | nil => rfl
    | cons x u =>
      obtain ⟨rfl, -⟩ := List.cons.inj h
      exact absurd List.mem_cons_self hu
  have hv' : v = [] := by
    rcases List.eq_nil_or_concat' v with rfl | ⟨v, x, rfl⟩
    · rfl
    · rw [← List.append_assoc] at h
      cases (List.append_inj' h rfl).2
      exact absurd (by simp) hv
  subst hu' hv'
  simpa using h

/-- Settles O27: a run reports only frames that stand, encoded, in what it has read, and the corrupted frame has the original's
length. -/
theorem corruptedFrameIsNeverTheOriginal : Obligations.CorruptedFrameIsNeverTheOriginal := by
  intro p d d' addr cmd q k x outs hp hd _ hk hx hrun hmem
  obtain ⟨-, -, hinfix⟩ := decRun_frame_infix hp _ [] (.inl ⟨hd, rfl⟩) hrun hmem
  have heq := hinfix.eq_of_length (by simp)
  apply hx
  conv_lhs => rw [heq]
  simp [hk]

/-- A replaced byte between the delimiters that is not `DELIM` gives no frame: it would have the original's field bytes (R191(b)). -/
theorem no_frame_of_byte_replaced {p : Params} (hp : p.Valid) {d d' : Decoder} (hd : d.dstate = .awaitingStart) {addr cmd : Byte}
    {q : List Byte} {j : Nat} {b x : Byte} (hb : (stuff p (fieldBytes addr cmd q))[j]? = some b) (hne : x ≠ b) (hbesc : b ≠ p.esc)
    (hx : x ≠ p.esc) (hdelim : x ≠ p.delim) {outs : List DecOut}
    (hrun : decRun p d (p.delim :: (stuff p (fieldBytes addr cmd q)).set j x ++ [p.delim]) = .ok (outs, d')) (a c n : Byte)
    (q' : List Byte) : DecOut.frame a c n q' ∉ outs := by
  intro hmem
  obtain ⟨-, -, hinfix⟩ := decRun_frame_infix hp _ [] (.inl ⟨hd, rfl⟩) hrun hmem
  have hmid : p.delim ∉ (stuff p (fieldBytes addr cmd q)).set j x := fun hm =>
    (List.mem_or_eq_of_mem_set hm).elim (not_mem_stuff hp _).1 fun h => hdelim h.symm
  have hset : stuff p (fieldBytes a c q') = (stuff p (fieldBytes addr cmd q)).set j x :=
    eq_of_infix_of_delim_not_mem hmid hinfix
  obtain ⟨i, hi, y, hy⟩ := stuff_eq_set hp hb hbesc hx hset
  rw [fieldBytes_eq_of_eq_set hi hy] at hset
  obtain ⟨hj, rfl⟩ := List.getElem?_eq_some_iff.mp hb
  have := congrArg (·[j]?) hset
  simp [hj] at this
  exact hne this.symm

/-- A run without outputs over `a ++ b` has none over `a` either (R188). -/
theorem decRun_append_silent {p : Params} {d d' : Decoder} {a b : List Byte} (h : decRun p d (a ++ b) = .ok ([], d')) :
    ∃ d₁, decRun p d a = .ok ([], d₁) ∧ decRun p d₁ b = .ok ([], d') := by
  induction a generalizing d with
  | nil => exact ⟨d, rfl, h⟩
  | cons x a ih =>
    obtain ⟨d₁, hstep, hrest⟩ := decRun_cons_silent h
    obtain ⟨d₂, ha, hb⟩ := ih hrest
    exact ⟨d₂, (decRun_cons_none hstep a).trans ha, hb⟩

/-- Where a silent byte follows in a frame, a field byte is expected: the closing delimiter's place reports on every byte (R182). -/
theorem Decoder.reads_inField {p : Params} {d d' : Decoder} {w : List Byte} {b : Byte} (h : d.reads p w) (hb : b ≠ p.delim)
    (hs : decStep p d b = .ok (d', .none)) : d.dstate.inField = true := by
  rcases dstate_cases d.dstate with hd | hd | hd
  · obtain ⟨fs, -, hm⟩ := h
    simp only [hd] at hm
  · rw [decStep_stop hd hb] at hs
    cases hs
  · exact hd

/-- The opening delimiter replaced: the rest is discarded, and the closing one opens a frame (R170). -/
theorem decRun_opening_replaced {p : Params} (hp : p.Valid) {d : Decoder} (hd : d.dstate = .awaitingStart) {x : Byte}
    (hx : x ≠ p.delim) (fs : List Byte) : decRun p d (x :: (stuff p fs ++ [p.delim])) = .ok ([], d.openFrame) := by
  rw [decRun_cons_none (decStep_discard hd hx), decRun_stuff_delim hp hd]

/-- The closing delimiter replaced: the byte is a framing error (R182). -/
theorem decRun_closing_replaced {p : Params} (hp : p.Valid) {d : Decoder} (hd : d.dstate = .awaitingStart) (addr cmd : Byte)
    {q : List Byte} (hq : q.length ≤ p.cap) {x : Byte} (hx : x ≠ p.delim) :
    ∃ d', decRun p d (p.delim :: stuff p (fieldBytes addr cmd q) ++ [x]) = .ok ([.error (.framing .unexpectedByte)], d') := by
  obtain ⟨d₁, hrun, hclose⟩ := decStep_closing_frameBytes hp hd addr cmd hq
  obtain ⟨hstop, -⟩ := decStep_frame hclose
  rw [dropLast_frameBytes] at hrun
  exact ⟨d₁.clear, decRun_append_ok hrun (decRun_singleton (decStep_stop hstop hx) (by simp))⟩

/-- A byte between the delimiters replaced by `DELIM`: the delimiter is a framing error, and what is left of the frame is discarded up
to the closing delimiter, which opens a frame (R181, R170). -/
theorem decRun_byte_to_delim {p : Params} (hp : p.Valid) {d : Decoder} (hd : d.dstate = .awaitingStart) (addr cmd : Byte)
    {q : List Byte} (hq : q.length ≤ p.cap) {j : Nat} (hj : j < (stuff p (fieldBytes addr cmd q)).length) :
    ∃ d', decRun p d (p.delim :: (stuff p (fieldBytes addr cmd q)).set j p.delim ++ [p.delim]) =
      .ok ([.error (.framing .delimMidFrame)], d') := by
  obtain ⟨d₁, hrun, -⟩ := decStep_closing_frameBytes hp hd addr cmd hq
  have hdelim := (not_mem_stuff hp (fieldBytes addr cmd q)).1
  rw [dropLast_frameBytes, List.cons_append, decRun_cons_none (decStep_open hd)] at hrun
  generalize stuff p (fieldBytes addr cmd q) = raw at hrun hdelim hj ⊢
  have hsplit : raw = raw.take j ++ raw[j] :: raw.drop (j + 1) := by simp
  rw [List.nil_append, hsplit] at hrun
  obtain ⟨d₂, hpre, hpost⟩ := decRun_append_silent hrun
  obtain ⟨d₃, hstep, -⟩ := decRun_cons_silent hpost
  have hfield := Decoder.reads_inField (Decoder.reads_run hp (d.reads_open p) hpre)
    (fun h => hdelim (h ▸ List.getElem_mem hj)) hstep
  have hrest : p.delim ∉ raw.drop (j + 1) := fun h => hdelim (List.mem_of_mem_drop h)
  have htail : decRun p d₂.clear (raw.drop (j + 1) ++ [p.delim]) = .ok ([], d₂.clear.openFrame) :=
    decRun_append_ok (decRun_of_delim_not_mem rfl hrest) (by rw [decRun_cons_none (decStep_open rfl), decRun_nil])
  refine ⟨d₂.clear.openFrame, ?_⟩
  rw [List.set_eq_take_append_cons_drop, if_pos hj, List.cons_append, List.append_assoc, decRun_cons_none (decStep_open hd)]
  exact decRun_append_ok hpre (decRun_cons_some (decStep_delim hfield) (by simp) htail)

/-- The places of an encoded frame: its opening delimiter, a stuffed byte, its closing delimiter. -/
theorem set_frameBytes_cases {p : Params} {addr cmd : Byte} {q : List Byte} {k : Nat} {b : Byte}
    (hb : (frameBytes p addr cmd q)[k]? = some b) (x : Byte) :
    (b = p.delim ∧ (frameBytes p addr cmd q).set k x = x :: (stuff p (fieldBytes addr cmd q) ++ [p.delim])) ∨
    (∃ j, (stuff p (fieldBytes addr cmd q))[j]? = some b ∧
      (frameBytes p addr cmd q).set k x = p.delim :: (stuff p (fieldBytes addr cmd q)).set j x ++ [p.delim]) ∨
    (b = p.delim ∧ (frameBytes p addr cmd q).set k x = p.delim :: stuff p (fieldBytes addr cmd q) ++ [x]) := by
  rw [frameBytes, List.singleton_append, List.cons_append] at hb ⊢
  generalize stuff p (fieldBytes addr cmd q) = raw at hb ⊢
  match k with
  | 0 => exact .inl ⟨(Option.some.inj hb).symm, rfl⟩
  | j + 1 =>
    rw [List.getElem?_cons_succ] at hb
    rw [List.set_cons_succ]
    rcases Nat.lt_or_ge j raw.length with hj | hj
    · rw [List.getElem?_append_left hj] at hb
      exact .inr (.inl ⟨j, hb, by rw [List.set_append_left _ _ hj]; rfl⟩)
    · rw [List.getElem?_append_right hj, List.getElem?_singleton] at hb
      split at hb <;> cases hb
      rename_i hlast
      exact .inr (.inr ⟨rfl, by rw [List.set_append_right _ _ hj, hlast]; rfl⟩)

/-- Settles O59, by the place of the replaced byte: a delimiter, or a byte between them that becomes `DELIM` or another byte. -/
theorem corruptionThatSparesEscapesGivesNoFrame : Obligations.CorruptionThatSparesEscapesGivesNoFrame := by
  intro p d d' addr cmd q k b x outs hp hd hq hb hne hbesc hx hrun a c n q'
  rcases set_frameBytes_cases hb x with ⟨rfl, hset⟩ | ⟨j, hj, hset⟩ | ⟨rfl, hset⟩ <;> rw [hset] at hrun
  · rw [decRun_opening_replaced hp hd hne] at hrun
    cases hrun
    simp
  · by_cases hdelim : x = p.delim
    · obtain ⟨hlt, -⟩ := List.getElem?_eq_some_iff.mp hj
      obtain ⟨d₂, h⟩ := decRun_byte_to_delim hp hd addr cmd hq hlt
      rw [hdelim, h] at hrun
      cases hrun
      simp
    · exact no_frame_of_byte_replaced hp hd hj hne hbesc hx hdelim hrun a c n q'
  · obtain ⟨d₂, h⟩ := decRun_closing_replaced hp hd addr cmd hq hne
    rw [h] at hrun
    cases hrun
    simp

end Sys2Proof.Machine
end

section
/-! SUPPORT and the settled statements of the invariant (10_state.md R22, R25, R26, R50, 20_memory.md R65, R71, 43_frame_decode.md
R179, R187, 45_engine.md R258): every input event keeps it, and under it no byte of a chunk faults. -/

namespace Sys2Proof.Machine

/-- A cancel or a reset keeps the invariant: in `Idle` with a cleared decoder only the attempt counter is bounded (R256, R351). -/
theorem State.Inv.idle {s : State} (h : s.Inv) {n : BitVec 8} (hn : n.toNat ≤ s.cfgMaxAttempts.toNat) (c : Option ErrorRecord) :
    ({ s.decClear with estate := .idle, attempt := n, lastCause := c } : State).Inv where
  par_valid := h.par_valid
  dec_inv := h.dec_inv.clear
  resting := .inl rfl
  dec_cleared := fun _ => s.dec.clear_cleared
  attempt_le := hn
  attempt_lt := fun hne => absurd rfl hne
  latched_valid := fun hne => absurd rfl hne
  cause_iff := fun hne => absurd rfl hne
  deadline_range := fun ha => by cases ha

/-- A deadline in its range, while an exchange is in flight and its response is awaited (R244, R250). -/
theorem State.Inv.awaiting {s : State} (h : s.Inv) (he : s.estate ≠ .idle) {n : Word32} {e : EState}
    (hawait : e = .awaitingResponse) (hn : 1 ≤ n.toNat ∧ n.toNat ≤ s.cfgTimeout.toNat) : ({ s with deadline := n, estate := e } : State).Inv where
  par_valid := h.par_valid
  dec_inv := h.dec_inv
  resting := .inr (.inr hawait)
  dec_cleared := fun hne => absurd hawait hne
  attempt_le := h.attempt_le
  attempt_lt := fun _ => h.attempt_lt he
  latched_valid := fun _ => h.latched_valid he
  cause_iff := fun _ => h.cause_iff he
  deadline_range := fun _ => hn

/-- A latched timeout is not 0 (R241). -/
theorem State.Inv.one_le_cfgTimeout {s : State} (h : s.Inv) (he : s.estate ≠ .idle) : 1 ≤ s.cfgTimeout.toNat := by
  have hvalid := h.latched_valid he
  have hne : s.cfgTimeout ≠ 0#32 := fun h0 => by simp [argsValid, h0] at hvalid
  bv_omega

/-- A chunk never faults under the invariant, and keeps it: each byte is one decoder step, and the first output is one reaction of
the engine (R246, R247). -/
theorem State.Inv.feed {s : State} (h : s.Inv) (he : s.estate = .awaitingResponse) (bytes : List Byte) :
    ∃ t, feed bytes s = .next t ∧ t.Inv := by
  induction bytes generalizing s with
  | nil => exact ⟨s, rfl, h⟩
  | cons b bs ih =>
    obtain ⟨d, out, hstep, hd, -⟩ := h.dec_inv.step b
    have hs : ({ s with dec := d } : State).Inv := h.decoder he hd
    by_cases ho : out = .none
    · subst ho
      rw [feed_cons_silent he hstep]
      exact ih hs he
    · rw [feed_cons_output he hstep ho]
      exact ⟨_, rfl, hs.react he out⟩

/-- Settles O45, by the input event: each outcome of each event keeps the invariant. -/
theorem stepKeepsTheInvariant : Obligations.StepKeepsTheInvariant := by
  intro s t h hstep
  obtain ⟨e, rest, hi, hcases⟩ := step_next_cases hstep
  have h₀ : ({ s with inputs := rest } : State).Inv := h.streams rest s.outputs
  cases e with
  | start sel a =>
    obtain ⟨-, ⟨op, -, ha, rfl⟩ | rfl⟩ := hcases
    · exact h₀.start ha
    · exact h₀.streams rest _
  | cancel =>
    obtain ⟨-, rfl⟩ | ⟨-, rfl⟩ := hcases
    · exact h₀
    · exact h₀.idle h.attempt_le s.lastCause
  | txDone =>
    obtain ⟨he, rfl⟩ := hcases
    have hne : s.estate ≠ .idle := by simp [he]
    exact h₀.awaiting hne rfl ⟨h.one_le_cfgTimeout hne, le_refl _⟩
  | txError e =>
    obtain ⟨-, rfl⟩ := hcases
    exact h₀.ended _
  | rxChunk bytes =>
    obtain ⟨he, -⟩ := hcases
    obtain ⟨u, hfeed, hu⟩ := h₀.feed he bytes
    rw [step_rxChunk hi he, hfeed] at hstep
    cases hstep
    exact hu
  | rxError e =>
    obtain ⟨-, rfl⟩ := hcases
    exact h₀.ended _
  | tick =>
    obtain ⟨he, -, rfl⟩ | ⟨he, hd, rfl⟩ | ⟨-, rfl⟩ := hcases
    · exact h₀.failed (by simp [he]) _
    · obtain ⟨h1, h2⟩ := h.deadline_range he
      have hn : 1 ≤ (s.deadline - 1#32).toNat ∧ (s.deadline - 1#32).toNat ≤ s.cfgTimeout.toNat := by bv_omega
      exact h₀.awaiting (by simp [he]) he hn
    · exact h₀
  | reset =>
    subst hcases
    exact h₀.idle (by simp) none

/-- `START` never faults (R241, R242). -/
theorem exec_decodeStart_ne_fault (sel : BitVec 4) (a : StartArgs) (s : State) (f : Fault) :
    exec (decodeStart sel a) s ≠ .fault f := by
  rcases exec_decodeStart sel a s with ⟨op, -, h⟩ | h <;> rw [h]
  · rcases startRow_cases op a s with ⟨-, h⟩ | ⟨-, -, h⟩ | ⟨-, -, h⟩ <;> simp [h]
  · unfold reservedRow
    split <;> simp

/-- Settles O46: a chunk is the one event that runs the decoder, and under the invariant it has a next state. -/
theorem noStepFaultsUnderTheInvariant : Obligations.NoStepFaultsUnderTheInvariant := by
  intro s f h
  cases hi : s.inputs with
  | nil => simp [step_nil hi]
  | cons e rest =>
    cases e with
    | start sel a => exact step_start hi ▸ exec_decodeStart_ne_fault sel a _ f
    | rxChunk bytes =>
      by_cases he : s.estate = .awaitingResponse
      · have h₀ : ({ s with inputs := rest } : State).Inv := h.streams rest s.outputs
        obtain ⟨t, hfeed, -⟩ := h₀.feed he bytes
        simp [step_rxChunk hi he, hfeed]
      · simp [step_rxChunk_stray hi he]
    | cancel => rw [step_cancel hi]; simp only [exec, execHostCancel]; split <;> simp
    | txDone => rw [step_txDone hi, onTxDone]; split <;> simp
    | txError e => rw [step_txError hi, onTxError]; split <;> simp
    | rxError e => rw [step_rxError hi, onRxError]; split <;> simp
    | tick => rw [step_tick hi, onTick]; split_ifs <;> simp
    | reset => rw [step_reset hi]; simp [onReset]

/-- Settles O44: a valid parameter set, an empty buffer, and `Idle`. -/
theorem resetMeetsTheInvariant : Obligations.ResetMeetsTheInvariant where
  par_valid := Params.default_valid
  dec_inv := ⟨List.Pairwise.nil, by simp [State.reset, Decoder.reset], by simp [State.reset, Decoder.reset],
    fun _ => rfl, by simp [State.reset, Decoder.reset], by simp [State.reset, Decoder.reset],
    by simp [State.reset, Decoder.reset]⟩
  resting := .inl rfl
  dec_cleared := fun _ => ⟨rfl, rfl, rfl⟩
  attempt_le := Nat.le_refl _
  attempt_lt := fun hne => absurd rfl hne
  latched_valid := fun hne => absurd rfl hne
  cause_iff := fun hne => absurd rfl hne
  deadline_range := fun ha => by cases ha

end Sys2Proof.Machine
end

section
/-! SUPPORT and the settled statements of the events a step emits (10_state.md R44, R46, 44_commands.md R216, 45_engine.md R243, R252 to
R257, R261, 20_memory.md R73): what a step can do, as one of seven effects with the events each adds to the history. -/

namespace Sys2Proof.Machine

/-! ### The reaction to an output -/

/-- The two outcomes of a failed attempt (R252, R253). -/
theorem State.failed_cases (s : State) (cause : ErrorRecord) :
    (s.attempt.toNat + 1 < s.cfgMaxAttempts.toNat ∧ s.failed cause = s.retried cause) ∨
    (s.cfgMaxAttempts.toNat ≤ s.attempt.toNat + 1 ∧ s.failed cause = s.exhausted cause) := by
  rcases Nat.lt_or_ge (s.attempt.toNat + 1) s.cfgMaxAttempts.toNat with h | h
  · exact .inl ⟨h, State.failed_of_attempts_left h cause⟩
  · exact .inr ⟨h, State.failed_of_no_attempts_left h cause⟩

/-- What the engine does with an output of the decoder: an accepted frame or an overflow ends the exchange, anything else fails the
attempt, with a cause that is not `TimeoutError` (R246, R249, R254). -/
theorem State.react_output (s : State) {out : DecOut} (ho : out ≠ .none) :
    (∃ addr cmd len q, out = .frame addr cmd len q ∧ catCheck s.par s.reqOp s.reqFmt addr cmd len.toNat = none ∧
      s.react out = s.ended (.ok s.reqOp len q)) ∨
    (∃ len, out = .error (.overflow len) ∧ s.react out = s.ended (.err (.bufferOverflow len))) ∨
    ∃ cause, cause ≠ .timeout ∧ s.react out = s.failed cause := by
  rcases s.react_cases out with ⟨h, -⟩ | h | ⟨_, _, _, _, sub, -, -, h⟩ | ⟨sub, -, h⟩ | ⟨-, h⟩ | h
  · exact absurd h ho
  · exact .inl h
  · exact .inr (.inr ⟨.shape sub, by simp, h⟩)
  · exact .inr (.inr ⟨.framing sub, by simp, h⟩)
  · exact .inr (.inr ⟨.checksum, by simp, h⟩)
  · exact .inr (.inl h)

/-! ### The effects of a step -/

/-- A result that is not a truncated or padded response: an `Ok` is all of what the field registers and the buffer of `d` hold, and
`CAT.CHECK` of the latched request has accepted it (R215, R216). -/
def Result.Fits (s : State) (d : Decoder) (r : Result) : Prop :=
  ∀ op n q, r = .ok op n q → op = s.reqOp ∧ n = d.rxLen ∧ Memory.readN d.buf 0 n.toNat = some q ∧
    catCheck s.par s.reqOp s.reqFmt d.rxAddr d.rxCmd n.toNat = none

/-- An error is no `Ok`. -/
theorem Result.fits_err (s : State) (d : Decoder) (e : CallerError) : (Result.err e).Fits s d := by
  intro op n q h
  cases h

/-- `Effect s e t outs`: the event `e` can take the machine from `s`, where the event is off the input stream already, to `t`, and
`outs` are the events emitted. Tied to `step` by `step_effect`. -/
inductive Effect (s : State) : Input → State → List Output → Prop
  /-- a `START` in `Idle` is accepted (R242) -/
  | accepted {sel : BitVec 4} {a : StartArgs} (op : Op) (he : s.estate = .idle) :
    Effect s (.start sel a) (s.latch op a).send [.txWrite (s.latch op a).requestFrame]
  /-- a `START` in `Idle` is refused (R241) -/
  | refused {sel : BitVec 4} {a : StartArgs} (he : s.estate = .idle) :
    Effect s (.start sel a) s.refuseStart [.result (.err .invalidRequest)]
  /-- a cancel or a reset (R256, R351) -/
  | stopped {e : Input} (d : Decoder) (n : BitVec 8) (c : Option ErrorRecord) (he : e = .cancel ∨ e = .reset) :
    Effect s e { s with dec := d, estate := .idle, attempt := n, lastCause := c } []
  /-- the exchange goes on, or none is in flight, and no event is emitted (R244, R246, R250, R251) -/
  | silent {e : Input} (d : Decoder) (st : EState) (n : Word32) (hst : s.estate ≠ .idle → st ≠ .idle)
    (he : e ≠ .cancel ∧ e ≠ .reset) :
    Effect s e { s with dec := d, estate := st, deadline := n } []
  /-- the exchange ends (R245, R249, R254, R255) -/
  | ended {e : Input} (d : Decoder) (r : Result) (hr : r.Fits s d) (he : e ≠ .cancel ∧ e ≠ .reset) :
    Effect s e ({ s with dec := d }.ended r) [.result r]
  /-- the attempt fails and the frame is sent again (R252) -/
  | retried {e : Input} (d : Decoder) (c : ErrorRecord) (hs : s.estate = .awaitingResponse) (he : e ≠ .cancel ∧ e ≠ .reset) :
    Effect s e ({ s with dec := d }.retried c) [.trace s.attempt c, .txWrite s.requestFrame]
  /-- the attempt fails and none is left (R253) -/
  | exhausted {e : Input} (d : Decoder) (c : ErrorRecord) (he : e ≠ .cancel ∧ e ≠ .reset) :
    Effect s e ({ s with dec := d }.exhausted c) [.trace s.attempt c, .result (.err (.exhaustedRetries c))]

variable {s t : State} {e : Input} {outs : List Output}

/-- The events of an effect are those it adds to the history. -/
theorem Effect.emitted (h : Effect s e t outs) : emitted s t outs := by
  cases h <;> simp [Machine.emitted, State.requestFrame]

/-- A failed attempt, from the two outcomes it has. -/
theorem Effect.failed (d : Decoder) (c : ErrorRecord) (hs : s.estate = .awaitingResponse) (he : e ≠ .cancel ∧ e ≠ .reset) :
    ∃ outs, Effect s e ({ s with dec := d }.failed c) outs := by
  rcases ({ s with dec := d } : State).failed_cases c with ⟨-, h⟩ | ⟨-, h⟩ <;> rw [h]
  · exact ⟨_, .retried d c hs he⟩
  · exact ⟨_, .exhausted d c he⟩

/-- The reaction to an output that says of the decoder what it holds. -/
theorem Effect.react {d : Decoder} {out : DecOut} (ho : out ≠ .none) (hsound : out.sound s.par d)
    (hs : s.estate = .awaitingResponse) (he : e ≠ .cancel ∧ e ≠ .reset) :
    ∃ outs, Effect s e ({ s with dec := d }.react out) outs := by
  rcases ({ s with dec := d } : State).react_output ho with ⟨addr, cmd, len, q, rfl, hcheck, h⟩ | ⟨len, -, h⟩ | ⟨c, -, h⟩ <;>
    rw [h]
  · obtain ⟨rfl, rfl, rfl, hq⟩ := hsound
    refine ⟨_, .ended d _ (fun op n q' hr => ?_) he⟩
    cases hr
    exact ⟨rfl, rfl, hq, hcheck⟩
  · exact ⟨_, .ended d _ (Result.fits_err s d _) he⟩
  · exact Effect.failed d c hs he

/-- Everything a step can do is an effect of the event it takes. -/
theorem step_effect (h : step s = .next t) :
    ∃ e rest outs, s.inputs = e :: rest ∧ Effect { s with inputs := rest } e t outs := by
  obtain ⟨e, rest, hi, hcases⟩ := step_next_cases h
  refine ⟨e, rest, ?_⟩
  simp only [hi, true_and]
  cases e with
  | start sel a =>
    obtain ⟨he, ⟨op, -, -, rfl⟩ | rfl⟩ := hcases
    · exact ⟨_, .accepted op he⟩
    · exact ⟨_, .refused he⟩
  | cancel =>
    obtain ⟨he, rfl⟩ | ⟨-, rfl⟩ := hcases
    · have hstop := Effect.stopped (s := { s with inputs := rest }) s.dec s.attempt s.lastCause (.inl rfl)
      rw [← he] at hstop
      exact ⟨_, hstop⟩
    · exact ⟨_, .stopped s.dec.clear s.attempt s.lastCause (.inl rfl)⟩
  | txDone =>
    obtain ⟨-, rfl⟩ := hcases
    exact ⟨_, .silent s.dec .awaitingResponse s.cfgTimeout (by simp) (by simp)⟩
  | txError err =>
    obtain ⟨-, rfl⟩ := hcases
    exact ⟨_, .ended s.dec _ (Result.fits_err _ _ _) (by simp)⟩
  | rxError err =>
    obtain ⟨-, rfl⟩ := hcases
    exact ⟨_, .ended s.dec _ (Result.fits_err _ _ _) (by simp)⟩
  | rxChunk bytes =>
    obtain ⟨he, ⟨d, rfl⟩ | ⟨d, out, ho, hsound, rfl⟩⟩ := hcases
    · exact ⟨_, .silent d s.estate s.deadline id (by simp)⟩
    · exact Effect.react ho hsound he (by simp)
  | tick =>
    obtain ⟨he, -, rfl⟩ | ⟨-, -, rfl⟩ | ⟨-, rfl⟩ := hcases
    · exact Effect.failed s.dec .timeout he (by simp)
    · exact ⟨_, .silent s.dec s.estate (s.deadline - 1#32) id (by simp)⟩
    · exact ⟨_, .silent s.dec s.estate s.deadline id (by simp)⟩
  | reset =>
    subst hcases
    exact ⟨_, .stopped s.dec.clear 0#8 none (.inr rfl)⟩

/-- A step with given events is an effect with those events. -/
theorem step_effect_of_emitted (h : step s = .next t) (ho : Machine.emitted s t outs) :
    ∃ e rest, s.inputs = e :: rest ∧ Effect { s with inputs := rest } e t outs := by
  obtain ⟨e, rest, outs', hi, heffect⟩ := step_effect h
  have : outs' = outs := List.append_cancel_left (heffect.emitted.symm.trans ho)
  exact ⟨e, rest, hi, this ▸ heffect⟩

/-! ### The statements -/

/-- No effect changes a parameter or the rest of the input stream. -/
theorem Effect.par_inputs (h : Effect s e t outs) : t.par = s.par ∧ t.inputs = s.inputs := by
  cases h <;> simp

/-- No effect emits more than two events. -/
theorem Effect.length_le (h : Effect s e t outs) : outs.length ≤ 2 := by
  cases h <;> simp

/-- Settles O47, by what every effect keeps. -/
theorem stepExtendsTheHistoryAndKeepsTheParameters : Obligations.StepExtendsTheHistoryAndKeepsTheParameters := by
  intro s t h
  obtain ⟨e, rest, outs, hi, heffect⟩ := step_effect h
  obtain ⟨hpar, hinputs⟩ := heffect.par_inputs
  exact ⟨hpar, by rw [hi, hinputs]; rfl, by simp [hi], outs, heffect.emitted, heffect.length_le⟩

/-- An effect of anything but an accepted `START` keeps the latches (R73). -/
theorem Effect.latches (h : Effect s e t outs) (hs : s.estate ≠ .idle ∨ ∀ sel a, e ≠ .start sel a) :
    t.reqOp = s.reqOp ∧ t.reqFmt = s.reqFmt ∧ t.reqArg = s.reqArg ∧ t.cfgMaxAttempts = s.cfgMaxAttempts ∧
      t.cfgTimeout = s.cfgTimeout := by
  cases h
  case accepted sel a op he =>
    rcases hs with hs | hs
    · exact absurd he hs
    · exact absurd rfl (hs sel a)
  all_goals simp

/-- The request frame is a function of the parameters and the request latches (42_frame_encode.md R159). -/
theorem State.requestFrame_congr (hpar : t.par = s.par) (hop : t.reqOp = s.reqOp) (hfmt : t.reqFmt = s.reqFmt)
    (harg : t.reqArg = s.reqArg) : t.requestFrame = s.requestFrame := by
  simp only [State.requestFrame, hpar, hop, hfmt, harg]

/-- Settles O48: only an accepted `START` writes the latches, and the frame is that of the latches. -/
theorem onlyStartWritesTheLatches : Obligations.OnlyStartWritesTheLatches := by
  intro s t h _ hs
  obtain ⟨e, rest, outs, hi, heffect⟩ := step_effect h
  have hstart : s.estate ≠ .idle ∨ ∀ sel a, e ≠ .start sel a := by simpa [hi] using hs
  obtain ⟨hop, hfmt, harg, hmax, htimeout⟩ := heffect.latches hstart
  exact ⟨hop, hfmt, harg, hmax, htimeout, State.requestFrame_congr (s := s) heffect.par_inputs.1 hop hfmt harg⟩

/-- Settles O49: a silent chunk, or the reaction to the one output, which is one of three, the last of them in two outcomes. -/
theorem chunkOutcomesOfTheEngine : Obligations.ChunkOutcomesOfTheEngine := by
  intro s t bytes rest hi h
  obtain ⟨e, rest', hi', hcases⟩ := step_next_cases h
  rw [hi] at hi'
  cases hi'
  obtain ⟨he, ⟨d, rfl⟩ | ⟨d, out, ho, hsound, rfl⟩⟩ := hcases
  · exact ⟨he, .inl ⟨he, by simp [emitted], rfl, rfl⟩⟩
  refine ⟨he, .inr ?_⟩
  let u : State := { s with inputs := rest, dec := d }
  rcases u.react_output ho with ⟨addr, cmd, len, q, rfl, -, hr⟩ | ⟨len, rfl, hr⟩ | ⟨cause, hc, hr⟩ <;> rw [hr]
  · exact .inl ⟨rfl, rfl, len, q, rfl⟩
  · exact .inr (.inl ⟨rfl, rfl, len, hsound, rfl⟩)
  · rcases u.failed_cases cause with ⟨hleft, hf⟩ | ⟨hleft, hf⟩ <;> rw [hf]
    · exact .inr (.inr (.inl ⟨rfl, hleft, rfl, cause, hc, rfl, rfl⟩))
    · exact .inr (.inr (.inr ⟨rfl, hleft, rfl, cause, hc, rfl, rfl⟩))

/-- Settles O50, by the effects of an exchange in flight. -/
theorem exchangeEndsWithOneResult : Obligations.ExchangeEndsWithOneResult := by
  intro s t outs _ hs h ho
  obtain ⟨e, rest, hi, heffect⟩ := step_effect_of_emitted h ho
  simp only [hi, List.head?_cons, Option.some.injEq, ne_eq]
  cases heffect with
  | accepted op he => exact absurd he hs
  | refused he => exact absurd he hs
  | stopped d n c he => exact ⟨fun _ => ⟨rfl, rfl⟩, fun h1 h2 => absurd he (not_or.mpr ⟨h1, h2⟩)⟩
  | silent d st n hst he =>
    exact ⟨fun h => absurd h (not_or.mpr he), fun _ _ => ⟨fun hidle => absurd hidle (hst hs), by simp⟩⟩
  | ended d r _ he =>
    exact ⟨fun h => absurd h (not_or.mpr he), fun _ _ => ⟨fun _ => ⟨[], r, rfl, by simp⟩, fun hidle => absurd rfl hidle⟩⟩
  | retried d c _ he => exact ⟨fun h => absurd h (not_or.mpr he), fun _ _ => ⟨by simp, by simp⟩⟩
  | exhausted d c he =>
    exact ⟨fun h => absurd h (not_or.mpr he), fun _ _ => ⟨fun _ => ⟨[_], _, rfl, by simp⟩, fun hidle => absurd rfl hidle⟩⟩

/-- Settles O51: an accepted `START` and a retry are the two effects that write, and both go to `Sending`. -/
theorem everyWriteIsTheLatchedRequest : Obligations.EveryWriteIsTheLatchedRequest := by
  intro s t outs bytes h ho hw
  obtain ⟨e, rest, -, heffect⟩ := step_effect_of_emitted h ho
  cases heffect with
  | accepted op he =>
    have hbytes := List.mem_singleton.mp hw
    cases hbytes
    have hidle : s.estate = .idle := he
    exact ⟨by simp [hidle], rfl, rfl, fun hne => absurd he hne⟩
  | retried d c hs =>
    have hbytes : bytes = ({ s with inputs := rest } : State).requestFrame := by simpa using hw
    have hawait : s.estate = .awaitingResponse := hs
    exact ⟨by simp [hawait], rfl, hbytes, fun _ => hbytes⟩
  | _ => simp at hw

/-- Settles O52: only the end of an exchange emits an `Ok`, which fits the request. -/
theorem okResultsFitTheRequest : Obligations.OkResultsFitTheRequest := by
  intro s t outs op n q h ho hmem
  obtain ⟨e, rest, -, heffect⟩ := step_effect_of_emitted h ho
  cases heffect with
  | ended d r hr =>
    have hok : r = .ok op n q := by simpa [eq_comm] using hmem
    obtain ⟨hop, hn, hq, hcheck⟩ := hr op n q hok
    obtain ⟨haddr, hcmd, hlen⟩ := (catCheck_eq_none_iff ..).mp hcheck
    have hlength := ((Memory.readN_eq_some_iff ..).mp hq).1
    exact ⟨hop, hn, hq, hlength, haddr, hcmd, hlength ▸ hlen⟩
  | _ => simp at hmem

end Sys2Proof.Machine
end

section
/-! SUPPORT and the settled statement of the retry bound (45_engine.md R259): a tick, a round of `TxDone` and ticks, and the rounds of an
exchange to which the transport never responds. -/

namespace Sys2Proof.Machine

variable {s t : State} {rest : List Input}

/-- A run starts with a step. -/
theorem run_succ_of_step (h : step s = .next t) (k : Nat) :
    Host.Core.run Sys2Proof.core (k + 1) s = Host.Core.run Sys2Proof.core k t := by
  simp [Host.Core.run, Sys2Proof.core, h]

/-- As many ticks as the deadline has left fail the attempt (R250). -/
theorem run_ticks {n : Nat} (he : s.estate = .awaitingResponse) (hd : s.deadline.toNat = n + 1)
    (hi : s.inputs = List.replicate (n + 1) .tick ++ rest) (k : Nat) :
    Host.Core.run Sys2Proof.core (k + (n + 1)) s =
      Host.Core.run Sys2Proof.core k ({ s with inputs := rest, deadline := 1#32 }.failed .timeout) := by
  induction n generalizing s with
  | zero =>
    have hlast : s.deadline = 1#32 := BitVec.eq_of_toNat_eq hd
    have hstep := (tickCountsTheDeadlineDown s rest hi).1 he hlast
    rw [run_succ_of_step hstep, ← hlast]
  | succ n ih =>
    obtain ⟨-, hearlier, -⟩ := tickCountsTheDeadlineDown s (List.replicate (n + 1) Input.tick ++ rest) hi
    have hstep := hearlier he (by bv_omega)
    rw [← Nat.add_assoc, run_succ_of_step hstep]
    exact ih (s := { s with inputs := List.replicate (n + 1) .tick ++ rest, deadline := s.deadline - 1#32 }) he
      (by show (s.deadline - 1#32).toNat = n + 1; bv_omega) rfl

/-- A round of `TxDone` and as many ticks as the timeout has fails the attempt (R244, R250). -/
theorem run_round {n : Nat} (he : s.estate = .sending) (ht : s.cfgTimeout.toNat = n + 1)
    (hi : s.inputs = .txDone :: List.replicate (n + 1) .tick ++ rest) (k : Nat) :
    Host.Core.run Sys2Proof.core (k + (n + 2)) s =
      Host.Core.run Sys2Proof.core k ({ s with inputs := rest, deadline := 1#32 }.failed .timeout) := by
  have hstep := txDoneArmsTheDeadline s (List.replicate (n + 1) Input.tick ++ rest) hi he
  rw [← Nat.add_assoc k (n + 1) 1, run_succ_of_step hstep]
  exact run_ticks (s := { s with
    inputs := List.replicate (n + 1) .tick ++ rest, deadline := s.cfgTimeout, estate := .awaitingResponse }) rfl ht rfl k

/-- The events of an exchange whose attempts all time out, from the attempt `a` on, with `n` attempts left after it. -/
def timeoutEvents (frame : List Byte) (a : BitVec 8) : Nat → List Output
  | 0 => [.trace a .timeout, .result (.err (.exhaustedRetries .timeout))]
  | n + 1 => .trace a .timeout :: .txWrite frame :: timeoutEvents frame (a + 1#8) n

/-- The same events by the number of the attempt: a trace and a re-send for each but the last. -/
theorem timeoutEvents_eq (frame : List Byte) (a : BitVec 8) (n : Nat) :
    timeoutEvents frame a n =
      (List.range n).flatMap (fun k => [.trace (a + BitVec.ofNat 8 k) .timeout, .txWrite frame]) ++
        [.trace (a + BitVec.ofNat 8 n) .timeout, .result (.err (.exhaustedRetries .timeout))] := by
  induction n generalizing a with
  | zero => simp [timeoutEvents]
  | succ n ih =>
    have hshift : ∀ k, a + 1#8 + BitVec.ofNat 8 k = a + BitVec.ofNat 8 (k + 1) := fun k => by
      rw [BitVec.add_assoc, BitVec.add_comm 1#8, BitVec.ofNat_add]
    simp [timeoutEvents, ih, hshift, List.range_succ_eq_map, List.flatMap_map]

/-- The rounds of an exchange from an attempt with `n` attempts left after it, by what each round leaves: a retry, and after the last
the exhaustion (R252, R253, R259). -/
theorem run_rounds {n m : Nat} (he : s.estate = .sending) (hmax : s.cfgMaxAttempts.toNat = s.attempt.toNat + n + 1)
    (ht : s.cfgTimeout.toNat = m + 1)
    (hi : s.inputs = (List.replicate (n + 1) (Input.txDone :: List.replicate (m + 1) .tick)).flatten ++ rest) :
    ∃ u : State, Host.Core.run Sys2Proof.core ((n + 1) * (m + 2)) s = .next u ∧ u.inputs = rest ∧ u.estate = .idle ∧
      u.attempt = s.cfgMaxAttempts ∧ u.lastCause = some .timeout ∧
      u.outputs = s.outputs ++ timeoutEvents s.requestFrame s.attempt n := by
  induction n generalizing s with
  | zero =>
    have hround := run_round (rest := rest) he ht (by simpa using hi) 0
    have hfailed := State.failed_of_no_attempts_left (s := { s with inputs := rest, deadline := 1#32 }) (by simp [hmax]) .timeout
    have hattempt : s.attempt + 1#8 = s.cfgMaxAttempts := by bv_omega
    rw [hfailed] at hround
    exact ⟨_, by rw [Nat.add_comm 0 1, Nat.one_mul, ← Nat.zero_add (m + 2)]; exact hround, rfl, rfl, hattempt, rfl, rfl⟩
  | succ n ih =>
    have hround := run_round he ht (by rw [hi, List.replicate_succ, List.flatten_cons, List.append_assoc]) ((n + 1) * (m + 2))
    have hleft : s.attempt.toNat + 1 < s.cfgMaxAttempts.toNat := by omega
    rw [State.failed_of_attempts_left (by exact hleft)] at hround
    have hnext : (s.attempt + 1#8).toNat = s.attempt.toNat + 1 := by bv_omega
    let v : State := { s with
      inputs := (List.replicate (n + 1) (Input.txDone :: List.replicate (m + 1) .tick)).flatten ++ rest, deadline := 1#32 }
    obtain ⟨u, hrun, hinputs, hidle, hattempt, hcause, houts⟩ :=
      ih (s := v.retried .timeout) rfl (by show s.cfgMaxAttempts.toNat = (s.attempt + 1#8).toNat + n + 1; omega) ht rfl
    refine ⟨u, ?_, hinputs, hidle, hattempt, hcause, ?_⟩
    · rw [Nat.succ_mul, hround]
      exact hrun
    · rw [houts]
      exact List.append_assoc ..

/-- Settles O53, by the rounds from attempt 0 and their events by number. -/
theorem silentTransportExhaustsTheRetries : Obligations.SilentTransportExhaustsTheRetries := by
  intro s n m rest he ha hmax ht hi
  obtain ⟨u, hrun, hinputs, hidle, hattempt, hcause, houts⟩ := run_rounds he (by simpa [ha] using hmax) ht hi
  refine ⟨u, hrun, hinputs, hidle, hattempt, hcause, ?_⟩
  simp [houts, timeoutEvents_eq, ha]

end Sys2Proof.Machine
end
